-- ==== Sys2Proof/Word.lean ====
section
/-! DEFINITION. The word types of the core (rules R11, R12, R13): bytes, 32-bit registers, 16-byte blocks, byte strings.
A block is one 128-bit value whose most significant byte is byte 0, so that `toNat` is the spec's `int_BE`
(rule R14; notes/assumptions/11.md). -/
namespace Sys2Proof

/-- A byte: 8 bits, 0 to 255 (rule R13). -/
abbrev Byte := BitVec 8

/-- A register or command word: 32 bits, unsigned (rules R11, R12). -/
abbrev Word := BitVec 32

/-- A block: a byte string of length 16, byte 0 most significant (rules R13, R14). -/
abbrev Block := BitVec 128

/-- A semiblock of Key Wrap: a byte string of length 8, byte 0 most significant (rule R391). -/
abbrev Semiblock := BitVec 64

/-- A byte string (rule R13). -/
abbrev Bytes := List Byte

end Sys2Proof
end

