-- ==== Sys2Proof/Syntax.lean ====
section
/-! DEFINITION. The commands of the core: one constructor per row of spec/opcode_table.json (rules R103, R104).
A constructor carries the fields of the command word that its row leaves free; a field is the unsigned integer the
spec reads it as (rule R102). WellFormed.lean bounds the fields. -/
namespace Sys2Proof

/-- The direction bit Q[0] of CTX_CREATE, AES_BLOCK and BLOCK_MODE (rules R42, R102): ENC is 0, DEC is 1. -/
inductive Dir where
  | enc
  | dec
deriving DecidableEq, Repr

/-- The variant bit Q[0] of XCBC_CREATE (rules R102, R320): MAC-96 is 0, PRF-128 is 1. -/
inductive XcbcVariant where
  | mac96
  | prf128
deriving DecidableEq, Repr

/-- A command of the core (rule R104). Operands other than these fields come from A0 to A7 (rule R100). -/
inductive Instr where
  /-- CTX_CREATE, OP 0x01: Q[0] = dir, Q[2:1] = mode (rule R160). -/
  | ctxCreate (dir : Dir) (mode : Nat)
  /-- CTX_DESTROY, OP 0x02: H = handle (rule R165). -/
  | ctxDestroy (h : Nat)
  /-- AES_BLOCK, OP 0x03: H = handle, Q[0] = dir (rule R170). -/
  | aesBlock (h : Nat) (dir : Dir)
  /-- BLOCK_MODE, OP 0x04: H = handle, Q[0] = dir (rule R204). -/
  | blockMode (h : Nat) (dir : Dir)
  /-- CTR_CREATE, OP 0x10 (rule R230). -/
  | ctrCreate
  /-- CTR_APPLY, OP 0x11: H = handle, P = incrementLimit (rule R234). -/
  | ctrApply (h : Nat) (lim : Nat)
  /-- CCM_ENCRYPT, OP 0x20: P = M, Q = L (rule R264). -/
  | ccmEncrypt (m : Nat) (l : Nat)
  /-- CCM_DECRYPT, OP 0x21: P = M, Q = L (rule R268). -/
  | ccmDecrypt (m : Nat) (l : Nat)
  /-- CMAC_CREATE, OP 0x30 (rule R300). -/
  | cmacCreate
  /-- CMAC_UPDATE, OP 0x31: H = handle (rule R303). -/
  | cmacUpdate (h : Nat)
  /-- CMAC_FINAL, OP 0x32: H = handle (rule R306). -/
  | cmacFinal (h : Nat)
  /-- XCBC_CREATE, OP 0x38: Q[0] = variant (rule R330). -/
  | xcbcCreate (variant : XcbcVariant)
  /-- XCBC_UPDATE, OP 0x39: H = handle (rule R333). -/
  | xcbcUpdate (h : Nat)
  /-- XCBC_FINAL, OP 0x3A: H = handle (rule R336). -/
  | xcbcFinal (h : Nat)
  /-- EAX_CREATE, OP 0x40 (rule R360). -/
  | eaxCreate
  /-- EAX_HEADER, OP 0x41: H = handle (rule R363). -/
  | eaxHeader (h : Nat)
  /-- EAX_ENCRYPT, OP 0x42: H = handle (rule R365). -/
  | eaxEncrypt (h : Nat)
  /-- EAX_DECRYPT, OP 0x43: H = handle (rule R367). -/
  | eaxDecrypt (h : Nat)
  /-- EAX_FINAL, OP 0x44: H = handle, P = tagLen (rule R369). -/
  | eaxFinal (h : Nat) (tagLen : Nat)
  /-- EAX_GENTAG, OP 0x45: H = handle, P = tagLen (rule R372). -/
  | eaxGentag (h : Nat) (tagLen : Nat)
  /-- EAX_GETPT, OP 0x46: H = handle (rule R375). -/
  | eaxGetpt (h : Nat)
  /-- KW_WRAP, OP 0x50 (rule R400). -/
  | kwWrap
  /-- KW_UNWRAP, OP 0x51 (rule R403). -/
  | kwUnwrap
  /-- CT_COMPARE, OP 0x60 (rule R422). -/
  | ctCompare
deriving DecidableEq, Repr

end Sys2Proof
end

