-- ==== Sys2Proof/WellFormed.lean ====
section
/-! DEFINITION. Which command terms a command word can hold (rules R101, R102): H, P and Q are 8-bit fields and the
mode of CTX_CREATE is the 2-bit field Q[2:1]. A value in range that its command refuses (mode 2, lim 17, M 3) is
well-formed: it is no encoding error (rule R106). -/
namespace Sys2Proof

/-- A value of an 8-bit field of the command word. -/
abbrev isField8 (x : Nat) : Prop := x < 256

/-- Every field of the command fits its place in the command word. -/
def Instr.wf : Instr → Bool
  | .ctxCreate _ mode => decide (mode < 4)
  | .ctxDestroy h => decide (isField8 h)
  | .aesBlock h _ => decide (isField8 h)
  | .blockMode h _ => decide (isField8 h)
  | .ctrCreate => true
  | .ctrApply h lim => decide (isField8 h ∧ isField8 lim)
  | .ccmEncrypt m l => decide (isField8 m ∧ isField8 l)
  | .ccmDecrypt m l => decide (isField8 m ∧ isField8 l)
  | .cmacCreate => true
  | .cmacUpdate h => decide (isField8 h)
  | .cmacFinal h => decide (isField8 h)
  | .xcbcCreate _ => true
  | .xcbcUpdate h => decide (isField8 h)
  | .xcbcFinal h => decide (isField8 h)
  | .eaxCreate => true
  | .eaxHeader h => decide (isField8 h)
  | .eaxEncrypt h => decide (isField8 h)
  | .eaxDecrypt h => decide (isField8 h)
  | .eaxFinal h tagLen => decide (isField8 h ∧ isField8 tagLen)
  | .eaxGentag h tagLen => decide (isField8 h ∧ isField8 tagLen)
  | .eaxGetpt h => decide (isField8 h)
  | .kwWrap => true
  | .kwUnwrap => true
  | .ctCompare => true

end Sys2Proof
end

