-- ==== Sys2Proof/Decode.lean ====
section
/-! DEFINITION. Decoding and encoding of the command word (rules R100 to R109), the opcode table as masks and matches
(rule R108), and the pseudo-instructions that name a command (rule R111). -/
namespace Sys2Proof

/-- The four fields of a command word, each an unsigned 8-bit integer (rule R101). -/
structure CmdFields where
  op : Nat
  h : Nat
  p : Nat
  q : Nat
deriving DecidableEq, Repr

/-- OP = w[7:0], H = w[15:8], P = w[23:16], Q = w[31:24] (rule R101). -/
def CmdFields.ofWord (w : Word) : CmdFields where
  op := w.toNat % 256
  h := w.toNat / 256 % 256
  p := w.toNat / 65536 % 256
  q := w.toNat / 16777216 % 256

/-- The assembled word, `zext_32(Q) << 24 | zext_32(P) << 16 | zext_32(H) << 8 | OP` (rule R109), for 8-bit fields. -/
def CmdFields.toWord (f : CmdFields) : Word :=
  BitVec.ofNat 32 (f.op + 256 * f.h + 65536 * f.p + 16777216 * f.q)

/-- Why a command word is no command; the core answers both with ILLEGAL_CMD (rule R437 step 1). -/
inductive DecodeError where
  /-- OP is reserved (rule R105). -/
  | reservedOpcode (op : Nat)
  /-- OP is defined and a field or sub-field that must be zero is not (rule R106). -/
  | fieldNotZero (op : Nat)
deriving DecidableEq, Repr

/-- Q[0] as a direction (rule R102). -/
def Dir.ofBit (b : Nat) : Dir := if b = 0 then .enc else .dec

/-- A direction as Q[0] (rule R102). -/
def Dir.toBit : Dir → Nat
  | .enc => 0
  | .dec => 1

/-- Q[0] as an XCBC variant (rule R102). -/
def XcbcVariant.ofBit (b : Nat) : XcbcVariant := if b = 0 then .mac96 else .prf128

/-- An XCBC variant as Q[0] (rule R102). -/
def XcbcVariant.toBit : XcbcVariant → Nat
  | .mac96 => 0
  | .prf128 => 1

/-- Accept a row only when its must-be-zero fields are zero (rule R106). -/
def acceptIf (zeroFieldsOk : Bool) (op : Nat) (i : Instr) : Except DecodeError Instr :=
  if zeroFieldsOk then .ok i else .error (.fieldNotZero op)

/-- Decoding of the four fields, row by row of rule R103; every other OP is reserved (rule R105). -/
def decodeFields (f : CmdFields) : Except DecodeError Instr :=
  match f.op with
  | 0x01 => acceptIf (f.h = 0 ∧ f.p = 0 ∧ f.q < 8) 0x01 (.ctxCreate (Dir.ofBit (f.q % 2)) (f.q / 2))
  | 0x02 => acceptIf (f.p = 0 ∧ f.q = 0) 0x02 (.ctxDestroy f.h)
  | 0x03 => acceptIf (f.p = 0 ∧ f.q < 2) 0x03 (.aesBlock f.h (Dir.ofBit f.q))
  | 0x04 => acceptIf (f.p = 0 ∧ f.q < 2) 0x04 (.blockMode f.h (Dir.ofBit f.q))
  | 0x10 => acceptIf (f.h = 0 ∧ f.p = 0 ∧ f.q = 0) 0x10 .ctrCreate
  | 0x11 => acceptIf (f.q = 0) 0x11 (.ctrApply f.h f.p)
  | 0x20 => acceptIf (f.h = 0) 0x20 (.ccmEncrypt f.p f.q)
  | 0x21 => acceptIf (f.h = 0) 0x21 (.ccmDecrypt f.p f.q)
  | 0x30 => acceptIf (f.h = 0 ∧ f.p = 0 ∧ f.q = 0) 0x30 .cmacCreate
  | 0x31 => acceptIf (f.p = 0 ∧ f.q = 0) 0x31 (.cmacUpdate f.h)
  | 0x32 => acceptIf (f.p = 0 ∧ f.q = 0) 0x32 (.cmacFinal f.h)
  | 0x38 => acceptIf (f.h = 0 ∧ f.p = 0 ∧ f.q < 2) 0x38 (.xcbcCreate (XcbcVariant.ofBit f.q))
  | 0x39 => acceptIf (f.p = 0 ∧ f.q = 0) 0x39 (.xcbcUpdate f.h)
  | 0x3A => acceptIf (f.p = 0 ∧ f.q = 0) 0x3A (.xcbcFinal f.h)
  | 0x40 => acceptIf (f.h = 0 ∧ f.p = 0 ∧ f.q = 0) 0x40 .eaxCreate
  | 0x41 => acceptIf (f.p = 0 ∧ f.q = 0) 0x41 (.eaxHeader f.h)
  | 0x42 => acceptIf (f.p = 0 ∧ f.q = 0) 0x42 (.eaxEncrypt f.h)
  | 0x43 => acceptIf (f.p = 0 ∧ f.q = 0) 0x43 (.eaxDecrypt f.h)
  | 0x44 => acceptIf (f.q = 0) 0x44 (.eaxFinal f.h f.p)
  | 0x45 => acceptIf (f.q = 0) 0x45 (.eaxGentag f.h f.p)
  | 0x46 => acceptIf (f.p = 0 ∧ f.q = 0) 0x46 (.eaxGetpt f.h)
  | 0x50 => acceptIf (f.h = 0 ∧ f.p = 0 ∧ f.q = 0) 0x50 .kwWrap
  | 0x51 => acceptIf (f.h = 0 ∧ f.p = 0 ∧ f.q = 0) 0x51 .kwUnwrap
  | 0x60 => acceptIf (f.h = 0 ∧ f.p = 0 ∧ f.q = 0) 0x60 .ctCompare
  | op => .error (.reservedOpcode op)

/-- Decoding of a command word: total on every 32-bit value (rule R108). -/
def decode (w : Word) : Except DecodeError Instr := decodeFields (CmdFields.ofWord w)

/-- The fields of a command's word, row by row of rule R103. -/
def Instr.fields : Instr → CmdFields
  | .ctxCreate dir mode => ⟨0x01, 0, 0, dir.toBit + 2 * mode⟩
  | .ctxDestroy h => ⟨0x02, h, 0, 0⟩
  | .aesBlock h dir => ⟨0x03, h, 0, dir.toBit⟩
  | .blockMode h dir => ⟨0x04, h, 0, dir.toBit⟩
  | .ctrCreate => ⟨0x10, 0, 0, 0⟩
  | .ctrApply h lim => ⟨0x11, h, lim, 0⟩
  | .ccmEncrypt m l => ⟨0x20, 0, m, l⟩
  | .ccmDecrypt m l => ⟨0x21, 0, m, l⟩
  | .cmacCreate => ⟨0x30, 0, 0, 0⟩
  | .cmacUpdate h => ⟨0x31, h, 0, 0⟩
  | .cmacFinal h => ⟨0x32, h, 0, 0⟩
  | .xcbcCreate variant => ⟨0x38, 0, 0, variant.toBit⟩
  | .xcbcUpdate h => ⟨0x39, h, 0, 0⟩
  | .xcbcFinal h => ⟨0x3A, h, 0, 0⟩
  | .eaxCreate => ⟨0x40, 0, 0, 0⟩
  | .eaxHeader h => ⟨0x41, h, 0, 0⟩
  | .eaxEncrypt h => ⟨0x42, h, 0, 0⟩
  | .eaxDecrypt h => ⟨0x43, h, 0, 0⟩
  | .eaxFinal h tagLen => ⟨0x44, h, tagLen, 0⟩
  | .eaxGentag h tagLen => ⟨0x45, h, tagLen, 0⟩
  | .eaxGetpt h => ⟨0x46, h, 0, 0⟩
  | .kwWrap => ⟨0x50, 0, 0, 0⟩
  | .kwUnwrap => ⟨0x51, 0, 0, 0⟩
  | .ctCompare => ⟨0x60, 0, 0, 0⟩

/-- The command word of a well-formed command (rules R101, R103, R109). -/
def encode (i : Instr) : Word := i.fields.toWord

/-- A row of the opcode table as rule R108 reads it: a word is the row's when `(word AND mask) = match`. -/
structure OpcodeRow where
  mnemonic : String
  matchBits : Word
  mask : Word
deriving DecidableEq, Repr

/-- The word belongs to the row: `(word AND mask) = match` (rule R108). -/
def OpcodeRow.hits (r : OpcodeRow) (w : Word) : Bool := w &&& r.mask = r.matchBits

/-- The first half of the masks and matches of spec/opcode_table.json (rule R108), in the table's order. -/
def opcodeTableLow : List OpcodeRow :=
  [⟨"CTX_CREATE", 0x00000001, 0xF8FFFFFF⟩,
   ⟨"CTX_DESTROY", 0x00000002, 0xFFFF00FF⟩,
   ⟨"AES_BLOCK", 0x00000003, 0xFEFF00FF⟩,
   ⟨"BLOCK_MODE", 0x00000004, 0xFEFF00FF⟩,
   ⟨"CTR_CREATE", 0x00000010, 0xFFFFFFFF⟩,
   ⟨"CTR_APPLY", 0x00000011, 0xFF0000FF⟩,
   ⟨"CCM_ENCRYPT", 0x00000020, 0x0000FFFF⟩,
   ⟨"CCM_DECRYPT", 0x00000021, 0x0000FFFF⟩,
   ⟨"CMAC_CREATE", 0x00000030, 0xFFFFFFFF⟩,
   ⟨"CMAC_UPDATE", 0x00000031, 0xFFFF00FF⟩,
   ⟨"CMAC_FINAL", 0x00000032, 0xFFFF00FF⟩,
   ⟨"XCBC_CREATE", 0x00000038, 0xFEFFFFFF⟩]

/-- The second half of the masks and matches of spec/opcode_table.json (rule R108), in the table's order. -/
def opcodeTableHigh : List OpcodeRow :=
  [⟨"XCBC_UPDATE", 0x00000039, 0xFFFF00FF⟩,
   ⟨"XCBC_FINAL", 0x0000003A, 0xFFFF00FF⟩,
   ⟨"EAX_CREATE", 0x00000040, 0xFFFFFFFF⟩,
   ⟨"EAX_HEADER", 0x00000041, 0xFFFF00FF⟩,
   ⟨"EAX_ENCRYPT", 0x00000042, 0xFFFF00FF⟩,
   ⟨"EAX_DECRYPT", 0x00000043, 0xFFFF00FF⟩,
   ⟨"EAX_FINAL", 0x00000044, 0xFF0000FF⟩,
   ⟨"EAX_GENTAG", 0x00000045, 0xFF0000FF⟩,
   ⟨"EAX_GETPT", 0x00000046, 0xFFFF00FF⟩,
   ⟨"KW_WRAP", 0x00000050, 0xFFFFFFFF⟩,
   ⟨"KW_UNWRAP", 0x00000051, 0xFFFFFFFF⟩,
   ⟨"CT_COMPARE", 0x00000060, 0xFFFFFFFF⟩]

/-- The masks and matches of spec/opcode_table.json, one row per command (rule R108). -/
def opcodeTable : List OpcodeRow := opcodeTableLow ++ opcodeTableHigh

/-- The mnemonic of a command, as the opcode table spells it (rule R104). -/
def Instr.mnemonic : Instr → String
  | .ctxCreate _ _ => "CTX_CREATE"
  | .ctxDestroy _ => "CTX_DESTROY"
  | .aesBlock _ _ => "AES_BLOCK"
  | .blockMode _ _ => "BLOCK_MODE"
  | .ctrCreate => "CTR_CREATE"
  | .ctrApply _ _ => "CTR_APPLY"
  | .ccmEncrypt _ _ => "CCM_ENCRYPT"
  | .ccmDecrypt _ _ => "CCM_DECRYPT"
  | .cmacCreate => "CMAC_CREATE"
  | .cmacUpdate _ => "CMAC_UPDATE"
  | .cmacFinal _ => "CMAC_FINAL"
  | .xcbcCreate _ => "XCBC_CREATE"
  | .xcbcUpdate _ => "XCBC_UPDATE"
  | .xcbcFinal _ => "XCBC_FINAL"
  | .eaxCreate => "EAX_CREATE"
  | .eaxHeader _ => "EAX_HEADER"
  | .eaxEncrypt _ => "EAX_ENCRYPT"
  | .eaxDecrypt _ => "EAX_DECRYPT"
  | .eaxFinal _ _ => "EAX_FINAL"
  | .eaxGentag _ _ => "EAX_GENTAG"
  | .eaxGetpt _ => "EAX_GETPT"
  | .kwWrap => "KW_WRAP"
  | .kwUnwrap => "KW_UNWRAP"
  | .ctCompare => "CT_COMPARE"

/-! ### The command syntax -/

/-- One `name=value` item of the command syntax (rule R109), as data; text is not parsed (notes/assumptions/21.md). -/
inductive AsmItem where
  /-- `h=n`, field H. -/
  | h (n : Nat)
  /-- `p=n`, field P, and its aliases `lim`, `m` and `tag`. -/
  | p (n : Nat)
  /-- `q=n`, field Q, and its alias `l`. -/
  | q (n : Nat)
  /-- `dir=enc` or `dir=dec`, Q[0]. -/
  | dir (d : Dir)
  /-- `mode=ecb` (0) or `mode=cbc` (1), Q[2:1]. -/
  | mode (n : Nat)
  /-- `var=mac96` or `var=prf128`, Q[0]. -/
  | var (v : XcbcVariant)
deriving DecidableEq, Repr

/-- The fields after one item (rule R109). DESIGN CHOICE, unsafe (notes/assumptions/23.md): where two items set the same bits, the
later one wins; the spec says only that an item not written is 0. -/
def CmdFields.withItem (f : CmdFields) : AsmItem → CmdFields
  | .h n => { f with h := n }
  | .p n => { f with p := n }
  | .q n => { f with q := n }
  | .dir d => { f with q := f.q / 2 * 2 + d.toBit }
  | .mode n => { f with q := f.q / 8 * 8 + 2 * n + f.q % 2 }
  | .var v => { f with q := f.q / 2 * 2 + v.toBit }

/-- The value of the item fits the bits it sets: 8 bits for a field, 2 for the mode (rules R101, R102). -/
def AsmItem.fits : AsmItem → Bool
  | .h n => n < 256
  | .p n => n < 256
  | .q n => n < 256
  | .dir _ => true
  | .mode n => n < 4
  | .var _ => true

/-- `MNEMONIC items`: the assembled word; an item not written is 0 (rule R109). DESIGN CHOICE, safe (notes/assumptions/23.md):
an item whose value does not fit its bits assembles to no word. -/
def assemble (mnemonic : String) (items : List AsmItem) : Option Word :=
  if items.all AsmItem.fits then
    (opcodeTable.find? fun r => r.mnemonic = mnemonic).map fun r =>
      (items.foldl CmdFields.withItem ⟨r.matchBits.toNat % 256, 0, 0, 0⟩).toWord
  else none

/-! ### Pseudo-instructions -/

/-- AES_CORE_ENCRYPT h=n is AES_BLOCK h=n, dir=enc (rule R111). -/
def Instr.aesCoreEncrypt (h : Nat) : Instr := .aesBlock h .enc

/-- AES_CORE_DECRYPT h=n is AES_BLOCK h=n, dir=dec (rule R111). -/
def Instr.aesCoreDecrypt (h : Nat) : Instr := .aesBlock h .dec

/-- BLOCK_ENCRYPT h=n is BLOCK_MODE h=n, dir=enc (rule R111). -/
def Instr.blockEncrypt (h : Nat) : Instr := .blockMode h .enc

/-- BLOCK_DECRYPT h=n is BLOCK_MODE h=n, dir=dec (rule R111). -/
def Instr.blockDecrypt (h : Nat) : Instr := .blockMode h .dec

/-- XCBC_MAC96_CREATE is XCBC_CREATE var=mac96 (rule R111). -/
def Instr.xcbcMac96Create : Instr := .xcbcCreate .mac96

/-- XCBC_PRF128_CREATE is XCBC_CREATE var=prf128 (rule R111). -/
def Instr.xcbcPrf128Create : Instr := .xcbcCreate .prf128

/-- What the decoder reads from the command word `w` of `nbits` bits, numbered as the opcode table numbers them. Every
command is one 32-bit word (rule R100); a number with a higher bit is no command word. -/
def decodeTableWord (nbits w : Nat) : Option Instr :=
  if nbits ≤ 32 ∧ w < 2 ^ 32 then
    match decode (BitVec.ofNat 32 w) with
    | .ok i => some i
    | .error _ => none
  else none

end Sys2Proof
end

