-- ==== Sys2Proof/Machine/Bytes.lean ====
section
/-! DEFINITION. Byte strings, big-endian numbers and blocks (rules R13, R14): the byte-order helpers every command uses. -/
namespace Sys2Proof.Machine

/-- `0^n`: n zero bytes (rule R13). -/
def zeros (n : Nat) : Bytes := List.replicate n 0

/-- `a XOR b`, bytewise, of two strings of equal length (rule R13). -/
def xorBytes (a b : Bytes) : Bytes := List.zipWith (fun x y => x ^^^ y) a b

/-- `int_BE(b)`: the integer whose big-endian encoding is b (rule R14). -/
def intBE (b : Bytes) : Nat := b.foldl (fun acc x => acc * 256 + x.toNat) 0

/-- `BE_n(x)`: the n-byte big-endian encoding of x, for x < 2^(8n) (rule R14). -/
def beBytes (n x : Nat) : Bytes := (List.range n).map fun i => BitVec.ofNat 8 (x / 256 ^ (n - 1 - i))

/-- Byte i of a block, 0 <= i < 16 (rule R13). -/
def blockByte (b : Block) (i : Nat) : Byte := BitVec.ofNat 8 (b.toNat / 256 ^ (15 - i))

/-- The block whose byte i is `f i` (rule R13). -/
def blockOfFn (f : Nat → Byte) : Block := BitVec.ofNat 128 (intBE ((List.range 16).map f))

/-- The block of a byte string: its first 16 bytes, with zero bytes after its end where it is shorter. -/
def blockOfBytes (b : Bytes) : Block := blockOfFn fun i => b.getD i 0

/-- The 16 bytes of a block, byte 0 first. -/
def blockBytes (b : Block) : Bytes := (List.range 16).map (blockByte b)

/-- The block with byte i replaced: `b[i] <- v`. -/
def blockSetByte (b : Block) (i : Nat) (v : Byte) : Block := blockOfFn fun j => if j = i then v else blockByte b j

/-- `c^16`: the block of 16 bytes c (rule R13). -/
def blockOfRepeat (c : Byte) : Block := blockOfFn fun _ => c

/-- The first n blocks of a byte string; a block past the end is filled up with zero bytes. -/
def blocksFrom : Nat → Bytes → List Block
  | 0, _ => []
  | n + 1, b => blockOfBytes b :: blocksFrom n (b.drop 16)

/-- The blocks of a byte string whose length is a multiple of 16. -/
def wholeBlocks (b : Bytes) : List Block := blocksFrom (b.length / 16) b

/-- The blocks of `Pad16(b)`: b with the fewest zero bytes appended that make its length a multiple of 16 (rule R258). -/
def paddedBlocks (b : Bytes) : List Block := blocksFrom ((b.length + 15) / 16) b

/-- The bytes of a list of blocks, in order. -/
def bytesOfBlocks (bs : List Block) : Bytes := bs.flatMap blockBytes

/-- The semiblock of a byte string of 8 bytes (rule R391). -/
def semiblockOfBytes (b : Bytes) : Semiblock := BitVec.ofNat 64 (intBE (b.take 8))

/-- The 8 bytes of a semiblock, byte 0 first. -/
def semiblockBytes (r : Semiblock) : Bytes := beBytes 8 r.toNat

/-- The first n semiblocks of a byte string (rule R391). -/
def semiblocksFrom : Nat → Bytes → List Semiblock
  | 0, _ => []
  | n + 1, b => semiblockOfBytes b :: semiblocksFrom n (b.drop 8)

/-- The bytes of a list of semiblocks, in order. -/
def bytesOfSemiblocks (rs : List Semiblock) : Bytes := rs.flatMap semiblockBytes

end Sys2Proof.Machine
end

