-- ==== Sys2Proof/Config.lean ====
section
/-! DEFINITION. What an implementation of the core fixes, and the values the spec leaves free.
The two parameters that rules read, NSLOT and MEM_BYTES (rules R8, R9), are plain data of the state, so that every
statement about all states holds for every value of them (notes/assumptions/1.md). -/
namespace Sys2Proof.Config

/-- The NSLOT of the spec's examples (rule R8). Used by the reset state only. DESIGN CHOICE (notes/assumptions/1.md). -/
def exampleNslot : Nat := 8

/-- The MEM_BYTES of the spec's examples (rule R9). Used by the reset state only. DESIGN CHOICE (notes/assumptions/1.md). -/
def exampleMemBytes : Nat := 4096

/-- Rule R8: 1 <= NSLOT <= 255. -/
abbrev validNslot (n : Nat) : Prop := 1 ≤ n ∧ n ≤ 255

/-- Rule R9: 64 <= MEM_BYTES <= 2^32. -/
abbrev validMemBytes (n : Nat) : Prop := 64 ≤ n ∧ n ≤ 2 ^ 32

/-- FREE VALUE (rules R83, R474): the byte that data memory holds at an address after the k-th reset until a write
replaces it, `ramDraw k address`. Nothing constrains it (notes/assumptions/2.md). -/
opaque ramDraw : Nat → Nat → Byte

/-- FREE VALUE (rule R82): REG_BASE, where a platform maps the register file in its own address space. No rule reads
it (notes/assumptions/10.md). -/
opaque regBase : Nat

end Sys2Proof.Config
end

