-- ==== Sys2Proof/Machine/State.lean ====
section
/-! DEFINITION. The state of the machine as plain data: the register file (rules R32 to R37), the context slots
(rules R40 to R46), the scratch area (rule R48), the data memory (rules R70, R83), and the model's own fields that hold
the outside world (rules R30, R31, R84). The reset state is rule R50. -/
namespace Sys2Proof.Machine

/-- The ten status codes of STATUS.CODE (rule R430). Codes 10 to 255 are never written, so they have no constructor. -/
inductive StatusCode where
  | ok
  | invalidArg
  | badLength
  | nullRef
  | allocFail
  | authFail
  | invalidKeyLen
  | badState
  | addrError
  | illegalCmd
deriving DecidableEq, Repr

/-- The mode field of a CIPHER slot (rules R42, R201): ECB is 0, CBC is 1. -/
inductive CipherMode where
  | ecb
  | cbc
deriving DecidableEq, Repr

/-- The phase of a slot that holds a MAC state (rule R46): `opened` is the spec's OPEN, `finalized` its FINAL. -/
inductive Phase where
  | opened
  | finalized
deriving DecidableEq, Repr

/-- A key schedule `(Nr, w)` (rule R43): the round count and the 4(Nr+1) round-key words. -/
structure KeySchedule where
  nr : Nat
  w : List Word
deriving DecidableEq, Repr

/-- The contents of a CIPHER slot (rule R41). -/
structure CipherCtx where
  dir : Dir
  mode : CipherMode
  keyLen : Nat
  ks : KeySchedule
deriving DecidableEq, Repr

/-- A CTR state (rules R41, R42, R220): of a CTR slot, or inside an EAX slot. -/
structure CtrState where
  ks : KeySchedule
  counter : Block
  encBlock : Block
  offset : Nat
deriving DecidableEq, Repr

/-- An OMAC state `(ks, ka, kb, X, pend, plen)` (rule R44). -/
structure Omac where
  ks : KeySchedule
  ka : Block
  kb : Block
  x : Block
  pend : Block
  plen : Nat
deriving DecidableEq, Repr

/-- The contents of a CMAC slot (rule R41). -/
structure CmacCtx where
  om : Omac
  phase : Phase
deriving DecidableEq, Repr

/-- The contents of an XCBC slot (rules R41, R321). -/
structure XcbcCtx where
  ksK : KeySchedule
  om : Omac
  outLen : Nat
  phase : Phase
deriving DecidableEq, Repr

/-- The contents of an EAX slot (rules R41, R350). -/
structure EaxCtx where
  ctr : CtrState
  n : Block
  omH : Omac
  omC : Omac
  phase : Phase
deriving DecidableEq, Repr

/-- The value of one context slot, the spec's `SlotValue` (rule R41). -/
inductive Slot where
  | empty
  | cipher (c : CipherCtx)
  | ctr (c : CtrState)
  | cmac (c : CmacCtx)
  | xcbc (c : XcbcCtx)
  | eax (c : EaxCtx)
deriving DecidableEq, Repr

/-- The argument registers A0 to A7 (rule R34). -/
structure ArgRegs where
  a0 : Word
  a1 : Word
  a2 : Word
  a3 : Word
  a4 : Word
  a5 : Word
  a6 : Word
  a7 : Word
deriving DecidableEq, Repr

/-- The data memory: the bytes written since reset, at strictly rising addresses. An address that is not listed holds no
written byte; what the machine then reads is the draw of rule R83 (`State.readByte`; notes/assumptions/2.md and 3.md). -/
abbrev Memory := List Host.Cell

/-- The canonical form of the data memory: addresses strictly rising, so no address listed twice. -/
abbrev Memory.wf (m : Memory) : Prop := m.Pairwise fun c d => c.1 < d.1

/-- The two agents (rule R30). -/
inductive Agent where
  | host
  | engine
deriving DecidableEq, Repr

/-- The width of a host access to the register file (rule R80): only a 32-bit access is allowed. -/
inductive AccessWidth where
  | byte8
  | half16
  | word32
deriving DecidableEq, Repr

/-- One step of the host: the interactions of rule R84, and the polling loop `wait` of rule R111. -/
inductive HostAction where
  /-- Write one byte of data memory. -/
  | memWrite (addr : Word) (v : Byte)
  /-- Read one byte of data memory. -/
  | memRead (addr : Word)
  /-- Write a register of the register file at a byte offset 0x00 to 0xFF; a write of CMD is the host's command. -/
  | regWrite (width : AccessWidth) (offset : Byte) (v : Word)
  /-- Read a register of the register file. -/
  | regRead (width : AccessWidth) (offset : Byte)
  /-- Read STATUS until BUSY = 0 (rule R111). -/
  | wait
  /-- The reset signal of the platform (rule R470). -/
  | reset
deriving DecidableEq, Repr

/-- Why the machine stops: the host faults of rule R449. No command of the core raises one. -/
inductive Fault where
  /-- Raised by a host register access that is not an aligned 32-bit access (rule R80). Safe: the machine stops where the
  spec records a fault and gives the access no effect. -/
  | registerAccessForm
  /-- Raised by a host memory access at an address >= MEM_BYTES (rule R84). Safe, as above. -/
  | memoryAddressOutOfRange
  /-- Raised by any host access other than a read of STATUS while BUSY = 1 (rule R478). Safe, as above. -/
  | accessWhileBusy
deriving DecidableEq, Repr

/-- Why an instruction has no meaning in the model. -/
inductive Refusal where
  /-- Raised by an arm of exec that has no meaning yet; no arm does, so no state reaches it. Safe. -/
  | notModelled (mnemonic : String)
deriving DecidableEq, Repr

/-- The state of the machine. The fields from `cmd` to `scratch` are the spec's; those from `epoch` on are the model's own
and stand for the outside world (notes/assumptions/2.md, 5.md, 6.md, 7.md). -/
structure State where
  /-- CMD, the last command word the host wrote (rule R35). -/
  cmd : Word
  /-- STATUS.CODE (rule R36). -/
  code : StatusCode
  /-- STATUS.BUSY (rule R36). -/
  busy : Bool
  /-- RESULT.HANDLE (rule R37). -/
  result : Byte
  /-- A0 to A7 (rule R34). -/
  args : ArgRegs
  /-- SLOT[1..NSLOT], slot 1 first (rule R40); its length is NSLOT. -/
  slots : List Slot
  /-- The data memory (rule R70). -/
  mem : Memory
  /-- MEM_BYTES (rule R9). -/
  memBytes : Nat
  /-- The engine's working area (rule R48); the empty string stands for all zero (notes/assumptions/4.md). -/
  scratch : Bytes
  /-- MODEL'S OWN: how many resets there have been, the argument of the free value `Config.ramDraw`. -/
  epoch : Nat
  /-- MODEL'S OWN: what the host will do next, first action first (rule R84). -/
  host : List HostAction
  /-- MODEL'S OWN: which agent moves at each coming step taken while BUSY = 1 (rule R31). -/
  turns : List Agent
  /-- MODEL'S OWN: the value the host's last read returned, if it has read (rule R84). -/
  returned : Option Word
deriving DecidableEq, Repr

/-- Every argument register zero (rule R50). -/
def ArgRegs.zero : ArgRegs := ⟨0, 0, 0, 0, 0, 0, 0, 0⟩

/-- The state after reset of a core with the given NSLOT and MEM_BYTES (rules R50, R470 to R475): registers zero, slots
EMPTY, scratch zero, no data memory byte written. No host action is pending. -/
def State.resetWith (nslot memBytes : Nat) : State where
  cmd := 0
  code := .ok
  busy := false
  result := 0
  args := .zero
  slots := List.replicate nslot .empty
  mem := []
  memBytes := memBytes
  scratch := []
  epoch := 0
  host := []
  turns := []
  returned := none

/-- The state right after reset, with the NSLOT and MEM_BYTES of the spec's examples (notes/assumptions/1.md). -/
def State.reset : State := State.resetWith Config.exampleNslot Config.exampleMemBytes

end Sys2Proof.Machine
end

