-- ==== Sys2Proof/Machine/Aes.lean ====
section
/-! DEFINITION. The AES primitive (rules R140 to R153): field arithmetic, the S-boxes, the round transformations, key
expansion, the forward cipher E and the inverse cipher D. The state array `s[r][c]` of rule R141 is byte r + 4c of a
block. -/
namespace Sys2Proof.Machine

/-- `xtime(b)` in GF(2^8) with the polynomial 0x11B (rule R142). -/
def xtime (b : Byte) : Byte := (b <<< 1) ^^^ (if b.getLsbD 7 then 0x1b else 0)

/-- Add `a • 2^k` for the n lowest bits k of b to an accumulator. -/
def gmulGo : Nat → Byte → Byte → Byte → Byte
  | 0, _, _, acc => acc
  | n + 1, a, b, acc => gmulGo n (xtime a) (b >>> 1) (if b.getLsbD 0 then acc ^^^ a else acc)

/-- `a • b`: the XOR of `xtime^k(a)` over the bits k set in b (rule R142). -/
def gmul (a b : Byte) : Byte := gmulGo 8 a b 0

/-- The rows of the S-box table, row = high nibble, the 16 columns as one big-endian number (rule R143). -/
def sboxRows : List Nat :=
  [0x637c777bf26b6fc53001672bfed7ab76, 0xca82c97dfa5947f0add4a2af9ca472c0,
   0xb7fd9326363ff7cc34a5e5f171d83115, 0x04c723c31896059a071280e2eb27b275,
   0x09832c1a1b6e5aa0523bd6b329e32f84, 0x53d100ed20fcb15b6acbbe394a4c58cf,
   0xd0efaafb434d338545f9027f503c9fa8, 0x51a3408f929d38f5bcb6da2110fff3d2,
   0xcd0c13ec5f974417c4a77e3d645d1973, 0x60814fdc222a908846eeb814de5e0bdb,
   0xe0323a0a4906245cc2d3ac629195e479, 0xe7c8376d8dd54ea96c56f4ea657aae08,
   0xba78252e1ca6b4c6e8dd741f4bbd8b8a, 0x703eb5664803f60e613557b986c11d9e,
   0xe1f8981169d98e949b1e87e9ce5528df, 0x8ca1890dbfe6426841992d0fb054bb16]

/-- The rows of the inverse S-box table (rule R144). -/
def invSboxRows : List Nat :=
  [0x52096ad53036a538bf40a39e81f3d7fb, 0x7ce339829b2fff87348e4344c4dee9cb,
   0x547b9432a6c2233dee4c950b42fac34e, 0x082ea16628d924b2765ba2496d8bd125,
   0x72f8f66486689816d4a45ccc5d65b692, 0x6c704850fdedb9da5e154657a78d9d84,
   0x90d8ab008cbcd30af7e45805b8b34506, 0xd02c1e8fca3f0f02c1afbd0301138a6b,
   0x3a9111414f67dcea97f2cfcef0b4e673, 0x96ac7422e7ad3585e2f937e81c75df6e,
   0x47f11a711d29c5896fb7620eaa18be1b, 0xfc563e4bc6d279209adbc0fe78cd5af4,
   0x1fdda8338807c731b11210592780ec5f, 0x60517fa919b54a0d2de57a9f93c99cef,
   0xa0e03b4dae2af5b0c8ebbb3c83539961, 0x172b047eba77d626e169146355210c7d]

/-- The entry of a byte table at x: row x / 16, column x mod 16. -/
def tableByte (rows : List Nat) (x : Byte) : Byte :=
  BitVec.ofNat 8 (rows.getD (x.toNat / 16) 0 / 256 ^ (15 - x.toNat % 16))

/-- `SBOX[x]` (rule R143). -/
def sbox (x : Byte) : Byte := tableByte sboxRows x

/-- `INV_SBOX[x]` (rule R144). -/
def invSbox (x : Byte) : Byte := tableByte invSboxRows x

/-- `SubBytes` (rule R145). -/
def subBytes (s : Block) : Block := blockOfFn fun i => sbox (blockByte s i)

/-- `InvSubBytes` (rule R145). -/
def invSubBytes (s : Block) : Block := blockOfFn fun i => invSbox (blockByte s i)

/-- `ShiftRows`: `s'[r][c] = s[r][(c + r) mod 4]` (rule R145). -/
def shiftRows (s : Block) : Block := blockOfFn fun i => blockByte s (i % 4 + 4 * ((i / 4 + i % 4) % 4))

/-- `InvShiftRows`: `s'[r][c] = s[r][(c - r) mod 4]` (rule R145). -/
def invShiftRows (s : Block) : Block := blockOfFn fun i => blockByte s (i % 4 + 4 * ((i / 4 + 4 - i % 4) % 4))

/-- Byte (r + k) mod 4 of column c, where i = r + 4c. -/
def columnByte (s : Block) (i k : Nat) : Byte := blockByte s (4 * (i / 4) + (i % 4 + k) % 4)

/-- `MixColumns` (rule R145): row r of a column is 2•a_r ^ 3•a_(r+1) ^ a_(r+2) ^ a_(r+3), indices mod 4. -/
def mixColumns (s : Block) : Block := blockOfFn fun i =>
  gmul (columnByte s i 0) 0x02 ^^^ gmul (columnByte s i 1) 0x03 ^^^ columnByte s i 2 ^^^ columnByte s i 3

/-- `InvMixColumns` (rule R145): row r of a column is e•a_r ^ b•a_(r+1) ^ d•a_(r+2) ^ 9•a_(r+3), indices mod 4. -/
def invMixColumns (s : Block) : Block := blockOfFn fun i =>
  gmul (columnByte s i 0) 0x0e ^^^ gmul (columnByte s i 1) 0x0b ^^^ gmul (columnByte s i 2) 0x0d ^^^
    gmul (columnByte s i 3) 0x09

/-- Word i of a schedule. -/
def KeySchedule.word (ks : KeySchedule) (i : Nat) : Word := ks.w.getD i 0

/-- The round key of round rnd: column c is w[4·rnd + c], its byte 0 most significant (rules R141, R145). -/
def KeySchedule.roundKey (ks : KeySchedule) (rnd : Nat) : Block :=
  ks.word (4 * rnd) ++ ks.word (4 * rnd + 1) ++ ks.word (4 * rnd + 2) ++ ks.word (4 * rnd + 3)

/-- `AddRoundKey(rnd)` (rule R145). -/
def addRoundKey (ks : KeySchedule) (rnd : Nat) (s : Block) : Block := s ^^^ ks.roundKey rnd

/-- One inner round of the forward cipher (rule R150). -/
def encRound (ks : KeySchedule) (rnd : Nat) (s : Block) : Block :=
  addRoundKey ks rnd (mixColumns (shiftRows (subBytes s)))

/-- One inner round of the inverse cipher (rule R151). -/
def decRound (ks : KeySchedule) (rnd : Nat) (s : Block) : Block :=
  invMixColumns (addRoundKey ks rnd (invSubBytes (invShiftRows s)))

/-- The forward cipher `E(ks, x)` (rule R150): rounds 1 .. Nr-1, then the last round without MixColumns. -/
def aesE (ks : KeySchedule) (x : Block) : Block :=
  let s := (List.range (ks.nr - 1)).foldl (fun s i => encRound ks (i + 1) s) (addRoundKey ks 0 x)
  addRoundKey ks ks.nr (shiftRows (subBytes s))

/-- The inverse cipher `D(ks, x)` (rule R151): rounds Nr-1 down to 1, then the last round without InvMixColumns. -/
def aesD (ks : KeySchedule) (x : Block) : Block :=
  let s := (List.range (ks.nr - 1)).foldr (fun i s => decRound ks (i + 1) s) (addRoundKey ks ks.nr x)
  addRoundKey ks 0 (invSubBytes (invShiftRows s))

/-- `RotWord(a0,a1,a2,a3) = (a1,a2,a3,a0)` (rule R147). -/
def rotWord (w : Word) : Word := w.rotateLeft 8

/-- `SubWord`: SBOX on each of the four bytes (rule R147). -/
def subWord (w : Word) : Word :=
  sbox (w.extractLsb' 24 8) ++ sbox (w.extractLsb' 16 8) ++ sbox (w.extractLsb' 8 8) ++ sbox (w.extractLsb' 0 8)

/-- `xtime` applied n times. -/
def xtimePow : Nat → Byte → Byte
  | 0, b => b
  | n + 1, b => xtime (xtimePow n b)

/-- `Rcon[j]` as a word: `(xtime^(j-1)(0x01), 0x00, 0x00, 0x00)` (rule R146). -/
def rcon (j : Nat) : Word := xtimePow (j - 1) 0x01 ++ (0 : BitVec 24)

/-- The temp value that makes word i from word i-1 (rule R147). -/
def expandTemp (nk i : Nat) (prev : Word) : Word :=
  if i % nk = 0 then subWord (rotWord prev) ^^^ rcon (i / nk)
  else if nk > 6 ∧ i % nk = 4 then subWord prev
  else prev

/-- The loop of rule R147 from word i on, for the given number of words; the words so far, last word first. -/
def expandLoop (nk : Nat) : Nat → Nat → List Word → List Word
  | 0, _, ws => ws
  | n + 1, i, ws => expandLoop nk n (i + 1) ((ws.getD (nk - 1) 0 ^^^ expandTemp nk i (ws.getD 0 0)) :: ws)

/-- Word i of the key itself: `key[4i .. 4i+4)` (rule R147). -/
def keyWord (key : Bytes) (i : Nat) : Word := BitVec.ofNat 32 (intBE ((List.range 4).map fun j => key.getD (4 * i + j) 0))

/-- `ExpandKey(key)` (rule R147), for a key of 16, 24 or 32 bytes; no command expands a key of another length (rule R148;
notes/assumptions/13.md). -/
def expandKey (key : Bytes) : KeySchedule :=
  let nk := key.length / 4
  let nr := nk + 6
  { nr := nr
    w := (expandLoop nk (4 * (nr + 1) - nk) nk ((List.range nk).map (keyWord key)).reverse).reverse }

end Sys2Proof.Machine
end

