-- ==== Sys2Proof/Machine/Ops.lean ====
section
/-! DEFINITION. The shared operations of every command: the data memory (rules R70 to R76, R83), the slot file (rules R40,
R439, R442), and the end of a command: `raise` with a status code, or the commit of its effects (rules R436, R438, R440).
The core has no trap (rule R448); a status code is its only exception, and `State.raiseStatus` is the one operation that
takes it. There is no return from it: the next command is the host's. -/
namespace Sys2Proof.Machine

/-! ### The data memory -/

/-- The byte written at an address since reset, if there is one. -/
def Memory.find : Memory → Nat → Option Byte
  | [], _ => none
  | (k, v) :: m, a => if k = a then some v else Memory.find m a

/-- Write one byte, keeping the addresses strictly rising. -/
def Memory.write : Memory → Nat → Byte → Memory
  | [], a, v => [(a, v)]
  | (k, w) :: m, a, v =>
    if a < k then (a, v) :: (k, w) :: m
    else if a = k then (a, v) :: m
    else (k, w) :: Memory.write m a v

/-- Write a byte string at addresses a, a+1, …, in that order. -/
def Memory.writeBytes : Memory → Nat → Bytes → Memory
  | m, _, [] => m
  | m, a, b :: bs => Memory.writeBytes (m.write a b) (a + 1) bs

/-- Commit queued writes in issue order, byte by byte, so that a later write wins (rules R76, R440). -/
def Memory.commit (m : Memory) (queue : List (Nat × Bytes)) : Memory :=
  queue.foldl (fun m w => Memory.writeBytes m w.1 w.2) m

/-- The byte a read of the data memory returns: the last byte written since reset, else the draw of rule R83. -/
def State.readByte (s : State) (a : Nat) : Byte := (Memory.find s.mem a).getD (Config.ramDraw s.epoch a)

/-- `MemRead(addr, n)`: the bytes at addr .. addr+n-1, as the memory stood when the step began (rules R74, R75). -/
def State.memRead (s : State) (addr n : Nat) : Bytes := (List.range n).map fun i => s.readByte (addr + i)

/-! ### The slot file -/

/-- NSLOT (rule R8). -/
def State.nslot (s : State) : Nat := s.slots.length

/-- `SLOT[h]`, 1 <= h <= NSLOT (rule R40); EMPTY where h names no slot. -/
def State.slot (s : State) (h : Nat) : Slot := if h = 0 then .empty else s.slots.getD (h - 1) .empty

/-- `SLOT[h] <- v` on the slot file. -/
def setSlot (slots : List Slot) (h : Nat) (v : Slot) : List Slot := if h = 0 then slots else slots.set (h - 1) v

/-- `Alloc()`: the lowest h in 1..NSLOT with SLOT[h] = EMPTY, or ALLOC_FAIL (rule R442). -/
def State.alloc (s : State) : Except StatusCode Nat :=
  match s.slots.findIdx? (fun v => v = .empty) with
  | some k => .ok (k + 1)
  | none => .error .allocFail

/-! ### The end of a command -/

/-- What a command that ends with OK does: the slot it records, the memory writes it queues in issue order, and the handle
it returns, 0 but for a create command (rules R37, R436). -/
structure Effects where
  slot : Option (Nat × Slot) := none
  writes : List (Nat × Bytes) := []
  handle : Nat := 0
deriving DecidableEq, Repr

/-- What the rule of a command gives: its effects, or the code it raises. -/
abbrev CommandResult := Except StatusCode Effects

/-- One check of a command: go on when it holds, else raise the code (rule R437). -/
def require (holds : Bool) (c : StatusCode) : Except StatusCode Unit := if holds then .ok () else .error c

/-- The slot file after the recorded slot change. -/
def Effects.slotsAfter (e : Effects) (slots : List Slot) : List Slot :=
  match e.slot with
  | none => slots
  | some (h, v) => setSlot slots h v

/-- `raise Status(c)`: nothing queued or recorded takes effect, RESULT is 0, scratch is zeroed, CODE is c and BUSY is 0
(rules R436, R438). -/
def State.raiseStatus (s : State) (c : StatusCode) : State :=
  { s with code := c, busy := false, result := 0, scratch := [] }

/-- The completion of a command with OK: slot changes applied, queued writes committed, RESULT the handle (rules R436,
R440). -/
def State.complete (s : State) (e : Effects) : State :=
  { s with
    code := .ok, busy := false, result := BitVec.ofNat 8 e.handle, scratch := []
    slots := e.slotsAfter s.slots
    mem := Memory.commit s.mem e.writes }

/-- The end of a command, by what its rule gives (rule R436). -/
def State.finish (s : State) : CommandResult → State
  | .error c => s.raiseStatus c
  | .ok e => s.complete e

/-- The engine step of a command is one atomic transition to a next state (rules R31, R436). -/
def State.runRule (s : State) (r : CommandResult) : Host.Outcome State Fault Refusal := .next (s.finish r)

end Sys2Proof.Machine
end

