-- ==== Sys2Proof/Machine/Operands.lean ====
section
/-! DEFINITION. The operand forms of the commands (rules R72 to R74, R102, R103): argument registers as unsigned integers,
buffer operands, handles of a slot kind, key lengths. -/
namespace Sys2Proof.Machine

/-- A0 as an unsigned integer (rules R12, R34). -/
def State.a0 (s : State) : Nat := s.args.a0.toNat
/-- A1 as an unsigned integer. -/
def State.a1 (s : State) : Nat := s.args.a1.toNat
/-- A2 as an unsigned integer. -/
def State.a2 (s : State) : Nat := s.args.a2.toNat
/-- A3 as an unsigned integer. -/
def State.a3 (s : State) : Nat := s.args.a3.toNat
/-- A4 as an unsigned integer. -/
def State.a4 (s : State) : Nat := s.args.a4.toNat
/-- A5 as an unsigned integer. -/
def State.a5 (s : State) : Nat := s.args.a5.toNat
/-- A6 as an unsigned integer. -/
def State.a6 (s : State) : Nat := s.args.a6.toNat
/-- A7 as an unsigned integer. -/
def State.a7 (s : State) : Nat := s.args.a7.toNat

/-- A buffer operand (addr, n) (rule R72). -/
structure Buffer where
  addr : Nat
  len : Nat
deriving DecidableEq, Repr

/-- A buffer of length 0 is not accessed; every other needs an address that is not the null reference (rules R72, R73). -/
def Buffer.notNull (b : Buffer) : Bool := b.len = 0 ∨ b.addr ≠ 0

/-- A buffer of length 0 is not accessed; every other needs addr + n <= MEM_BYTES, exactly (rules R72, R74). -/
def Buffer.inRange (b : Buffer) (memBytes : Nat) : Bool := b.len = 0 ∨ b.addr + b.len ≤ memBytes

/-- The address lies in the buffer: addr <= a < addr + n. -/
abbrev Buffer.holds (b : Buffer) (a : Nat) : Prop := b.addr ≤ a ∧ a < b.addr + b.len

/-- `CheckBuffers(list)`: every NULL_REF check of the list before every ADDR_ERROR check (rule R441). -/
def State.checkBuffers (s : State) (bs : List Buffer) : Except StatusCode Unit := do
  require (bs.all Buffer.notNull) .nullRef
  require (bs.all fun b => b.inRange s.memBytes) .addrError

/-- The bytes of a buffer operand. -/
def State.readBuffer (s : State) (b : Buffer) : Bytes := s.memRead b.addr b.len

/-- A key length AES takes: 16, 24 or 32 bytes (rule R148). -/
def validKeyLen (n : Nat) : Bool := n = 16 ∨ n = 24 ∨ n = 32

/-- The phase requirement of `CheckHandle` (rule R439): "phase OPEN" or "any phase". -/
inductive PhaseReq where
  | mustBeOpen
  | anyPhase
deriving DecidableEq, Repr

/-- The phase of a slot; a slot of a kind without a phase is never FINAL (rules R41, R46). -/
def Slot.phase : Slot → Phase
  | .cmac c => c.phase
  | .xcbc c => c.phase
  | .eax c => c.phase
  | _ => .opened

/-- The contents of a CIPHER slot. -/
def Slot.asCipher : Slot → Option CipherCtx
  | .cipher c => some c
  | _ => none

/-- The contents of a CTR slot. -/
def Slot.asCtr : Slot → Option CtrState
  | .ctr c => some c
  | _ => none

/-- The contents of a CMAC slot. -/
def Slot.asCmac : Slot → Option CmacCtx
  | .cmac c => some c
  | _ => none

/-- The contents of an XCBC slot. -/
def Slot.asXcbc : Slot → Option XcbcCtx
  | .xcbc c => some c
  | _ => none

/-- The contents of an EAX slot. -/
def Slot.asEax : Slot → Option EaxCtx
  | .eax c => some c
  | _ => none

/-- `CheckHandle(h, kinds, phaseReq)` (rule R439), for the one kind whose contents `kind` gives: null handle, range, EMPTY,
kind, phase, in that order. -/
def State.checkHandle {α : Type} (s : State) (h : Nat) (kind : Slot → Option α) (req : PhaseReq) : Except StatusCode α :=
  if h = 0 then .error .nullRef
  else if h > s.nslot then .error .invalidArg
  else if s.slot h = .empty then .error .nullRef
  else
    match kind (s.slot h) with
    | none => .error .badState
    | some c => if req = .mustBeOpen ∧ (s.slot h).phase = .finalized then .error .badState else .ok c

end Sys2Proof.Machine
end

