-- ==== Sys2Proof/Machine/Context.lean ====
section
/-! DEFINITION. Context management and the single-block command (rules R160 to R170): CTX_CREATE, CTX_DESTROY, AES_BLOCK. -/
namespace Sys2Proof.Machine

/-- The mode of a CIPHER slot from the mode field, 0 ECB and 1 CBC (rules R42, R161). -/
def CipherMode.ofField (m : Nat) : CipherMode := if m = 0 then .ecb else .cbc

/-- The key buffer of CTX_CREATE. -/
def keyBuffer (s : State) : Buffer := ⟨s.a0, s.a1⟩

/-- The rule of CTX_CREATE (rules R160 to R163). -/
def ctxCreateRule (dir : Dir) (mode : Nat) (s : State) : CommandResult := do
  require (mode ≤ 1) .invalidArg
  require (validKeyLen s.a1) .invalidKeyLen
  s.checkBuffers [keyBuffer s]
  let h ← s.alloc
  let key := s.readBuffer (keyBuffer s)
  .ok { slot := some (h, .cipher ⟨dir, CipherMode.ofField mode, s.a1, expandKey key⟩), handle := h }

/-- CTX_CREATE (rule R160). -/
def execCtxCreate (dir : Dir) (mode : Nat) (s : State) : Host.Outcome State Fault Refusal :=
  s.runRule (ctxCreateRule dir mode s)

/-- The rule of CTX_DESTROY (rules R165 to R167): any kind, any phase; the null handle is a no-op. -/
def ctxDestroyRule (h : Nat) (s : State) : CommandResult :=
  if h = 0 then .ok {}
  else if h > s.nslot then .error .invalidArg
  else .ok { slot := some (h, .empty) }

/-- CTX_DESTROY (rule R165). -/
def execCtxDestroy (h : Nat) (s : State) : Host.Outcome State Fault Refusal := s.runRule (ctxDestroyRule h s)

/-- One block through the cipher in the slot's direction (rules R163, R170). -/
def CipherCtx.block (c : CipherCtx) (x : Block) : Block :=
  match c.dir with
  | .enc => aesE c.ks x
  | .dec => aesD c.ks x

/-- The rule of AES_BLOCK (rule R170). -/
def aesBlockRule (h : Nat) (dir : Dir) (s : State) : CommandResult := do
  let c ← s.checkHandle h Slot.asCipher .anyPhase
  require (dir = c.dir) .invalidArg
  s.checkBuffers [⟨s.a0, 16⟩, ⟨s.a1, 16⟩]
  let x := blockOfBytes (s.memRead s.a0 16)
  .ok { writes := [(s.a1, blockBytes (c.block x))] }

/-- AES_BLOCK (rule R170). -/
def execAesBlock (h : Nat) (dir : Dir) (s : State) : Host.Outcome State Fault Refusal :=
  s.runRule (aesBlockRule h dir s)

end Sys2Proof.Machine
end

