-- ==== Sys2Proof/Machine/BlockMode.lean ====
section
/-! DEFINITION. The ECB/CBC block-mode engine (rules R200 to R206): BLOCK_MODE. -/
namespace Sys2Proof.Machine

/-- ECB: each block by itself (rule R202). -/
def ecbBlocks (c : CipherCtx) (xs : List Block) : List Block := xs.map c.block

/-- CBC encryption with the chaining block v: the output blocks and the last ciphertext block (rule R203). -/
def cbcEncrypt (ks : KeySchedule) : Block → List Block → List Block × Block
  | v, [] => ([], v)
  | v, x :: xs =>
    let y := aesE ks (x ^^^ v)
    let r := cbcEncrypt ks y xs
    (y :: r.1, r.2)

/-- CBC decryption with the chaining block v: the output blocks and the last ciphertext block (rule R203). -/
def cbcDecrypt (ks : KeySchedule) : Block → List Block → List Block × Block
  | v, [] => ([], v)
  | v, x :: xs =>
    let r := cbcDecrypt ks x xs
    ((aesD ks x ^^^ v) :: r.1, r.2)

/-- CBC in the slot's direction. -/
def cbcBlocks (c : CipherCtx) (iv : Block) (xs : List Block) : List Block × Block :=
  match c.dir with
  | .enc => cbcEncrypt c.ks iv xs
  | .dec => cbcDecrypt c.ks iv xs

/-- The buffers BLOCK_MODE checks: the data, and in CBC the IV (rule R204). -/
def blockModeBuffers (mode : CipherMode) (s : State) : List Buffer :=
  match mode with
  | .cbc => [⟨s.a0, s.a1⟩, ⟨s.a2, 16⟩]
  | .ecb => [⟨s.a0, s.a1⟩]

/-- The writes of BLOCK_MODE, in issue order: the data, then in CBC the IV; none when there is no block (rule R204). -/
def blockModeWrites (c : CipherCtx) (s : State) : List (Nat × Bytes) :=
  let xs := wholeBlocks (s.memRead s.a0 s.a1)
  if s.a1 = 0 then []
  else
    match c.mode with
    | .ecb => [(s.a0, bytesOfBlocks (ecbBlocks c xs))]
    | .cbc =>
      let r := cbcBlocks c (blockOfBytes (s.memRead s.a2 16)) xs
      [(s.a0, bytesOfBlocks r.1), (s.a2, blockBytes r.2)]

/-- The rule of BLOCK_MODE (rule R204). -/
def blockModeRule (h : Nat) (dir : Dir) (s : State) : CommandResult := do
  let c ← s.checkHandle h Slot.asCipher .anyPhase
  require (dir = c.dir) .invalidArg
  require (s.a1 % 16 = 0) .badLength
  s.checkBuffers (blockModeBuffers c.mode s)
  .ok { writes := blockModeWrites c s }

/-- BLOCK_MODE (rule R204). -/
def execBlockMode (h : Nat) (dir : Dir) (s : State) : Host.Outcome State Fault Refusal :=
  s.runRule (blockModeRule h dir s)

end Sys2Proof.Machine
end

