-- ==== Sys2Proof/Machine/CtCompare.lean ====
section
/-! DEFINITION. The constant-time comparison helper (rules R421 to R423): CT_COMPARE. -/
namespace Sys2Proof.Machine

/-- `CtEqual(a, b, n)`: the OR of the differences of every one of the n bytes is zero (rule R421). -/
def ctEqual (a b : Bytes) (n : Nat) : Bool :=
  (List.range n).foldl (fun d i => d ||| (a.getD i 0 ^^^ b.getD i 0)) (0 : Byte) = 0

/-- The rule of CT_COMPARE (rule R422). -/
def ctCompareRule (s : State) : CommandResult := do
  s.checkBuffers [⟨s.a0, s.a2⟩, ⟨s.a1, s.a2⟩]
  require (ctEqual (s.memRead s.a0 s.a2) (s.memRead s.a1 s.a2) s.a2) .authFail
  .ok {}

/-- CT_COMPARE (rule R422). -/
def execCtCompare (s : State) : Host.Outcome State Fault Refusal := s.runRule (ctCompareRule s)

end Sys2Proof.Machine
end

