-- ==== Sys2Proof/Machine/Ctr.lean ====
section
/-! DEFINITION. The CTR engine with keystream cache (rules R220 to R235): CTR_CREATE, CTR_APPLY, and the primitive
`CtrApply` that CCM and EAX use too. -/
namespace Sys2Proof.Machine

/-- `Inc(ctr, lim)` (rule R224): the last lim bytes, as a big-endian number, plus one modulo 2^(8·lim); the bytes before
them unchanged. -/
def ctrInc (ctr : Block) (lim : Nat) : Block :=
  let m := 2 ^ (8 * lim)
  BitVec.ofNat 128 (ctr.toNat / m * m + (ctr.toNat % m + 1) % m)

/-- Derive a fresh keystream block and increment the counter at once (rules R222, R227). -/
def CtrState.fresh (c : CtrState) (lim : Nat) : CtrState :=
  { c with encBlock := aesE c.ks c.counter, counter := ctrInc c.counter lim }

/-- One byte of the stream: a fresh keystream block when none is cached (offset 0), else the cached one (rules R220, R221).
The keystream byte, and the state after it. -/
def CtrState.nextByte (c : CtrState) (lim : Nat) : CtrState × Byte :=
  let c' := if c.offset = 0 then c.fresh lim else c
  ({ c' with offset := (c.offset + 1) % 16 }, blockByte c'.encBlock c.offset)

/-- The stream over a byte string: the state after it, and the output of the same length. It is `CtrApply` of rule R228
byte by byte (notes/assumptions/12.md); `ctrByChunks` is the rule chunk by chunk. -/
def ctrStream (lim : Nat) : CtrState → Bytes → CtrState × Bytes
  | c, [] => (c, [])
  | c, d :: ds =>
    let k := c.nextByte lim
    let r := ctrStream lim k.1 ds
    (r.1, (d ^^^ k.2) :: r.2)

/-- The IV reset of rule R226: the counter is the IV and no keystream is cached. -/
def CtrState.withIv (c : CtrState) : Option Block → CtrState
  | none => c
  | some iv => { c with counter := iv, offset := 0 }

/-- `CtrApply(c, data, iv, lim)` (rule R228). -/
def ctrApply (c : CtrState) (data : Bytes) (iv : Option Block) (lim : Nat) : CtrState × Bytes :=
  ctrStream lim (c.withIv iv) data

/-- The first loop of rule R228: use the cached keystream first. The state, the output so far, the data left. -/
def ctrCached : CtrState → Bytes → CtrState × Bytes × Bytes
  | c, [] => (c, [], [])
  | c, d :: ds =>
    if c.offset = 0 then (c, [], d :: ds)
    else
      let r := ctrCached { c with offset := (c.offset + 1) % 16 } ds
      (r.1, (d ^^^ blockByte c.encBlock c.offset) :: r.2.1, r.2.2)

/-- The second loop of rule R228: k full chunks of 16 bytes. The state, the output, the data left. -/
def ctrFullChunks (lim : Nat) : Nat → CtrState → Bytes → CtrState × Bytes × Bytes
  | 0, c, data => (c, [], data)
  | k + 1, c, data =>
    let c' := c.fresh lim
    let r := ctrFullChunks lim k c' (data.drop 16)
    (r.1, xorBytes (data.take 16) (blockBytes c'.encBlock) ++ r.2.1, r.2.2)

/-- The last part of rule R228: a final partial chunk of 1 to 15 bytes. -/
def ctrPartialChunk (lim : Nat) (c : CtrState) (data : Bytes) : CtrState × Bytes :=
  if data.length = 0 then (c, [])
  else
    let c' := { c.fresh lim with offset := data.length }
    (c', xorBytes data ((blockBytes c'.encBlock).take data.length))

/-- `CtrApply` as rule R228 writes it: cached keystream, full chunks, final partial chunk. -/
def ctrByChunks (c : CtrState) (data : Bytes) (iv : Option Block) (lim : Nat) : CtrState × Bytes :=
  let a := ctrCached (c.withIv iv) data
  let b := ctrFullChunks lim (a.2.2.length / 16) a.1 a.2.2
  let r := ctrPartialChunk lim b.1 b.2.2
  (r.1, a.2.1 ++ b.2.1 ++ r.2)

/-- A CTR state with no keystream cached (rules R230, R353). -/
def CtrState.init (ks : KeySchedule) (counter : Block) : CtrState := ⟨ks, counter, 0, 0⟩

/-- The rule of CTR_CREATE with a separate counter, A2 != 0 (rules R230, R232). -/
def ctrCreateSeparateRule (s : State) : CommandResult := do
  require (validKeyLen s.a1) .invalidKeyLen
  s.checkBuffers [⟨s.a0, s.a1⟩, ⟨s.a2, 16⟩]
  let h ← s.alloc
  let key := s.memRead s.a0 s.a1
  let ctr := blockOfBytes (s.memRead s.a2 16)
  .ok { slot := some (h, .ctr (CtrState.init (expandKey key) ctr)), handle := h }

/-- The rule of CTR_CREATE with the combined layout, A2 = 0: key bytes, then the 16-byte counter (rules R230, R231). -/
def ctrCreateCombinedRule (s : State) : CommandResult := do
  require (16 ≤ s.a1 ∧ validKeyLen (s.a1 - 16)) .invalidKeyLen
  s.checkBuffers [⟨s.a0, s.a1⟩]
  let h ← s.alloc
  let key := s.memRead s.a0 (s.a1 - 16)
  let ctr := blockOfBytes (s.memRead (s.a0 + (s.a1 - 16)) 16)
  .ok { slot := some (h, .ctr (CtrState.init (expandKey key) ctr)), handle := h }

/-- The rule of CTR_CREATE (rule R230). -/
def ctrCreateRule (s : State) : CommandResult :=
  if s.a2 ≠ 0 then ctrCreateSeparateRule s else ctrCreateCombinedRule s

/-- CTR_CREATE (rule R230). -/
def execCtrCreate (s : State) : Host.Outcome State Fault Refusal := s.runRule (ctrCreateRule s)

/-- The buffers of CTR_APPLY: the data, and the IV when A2 is not 0 (rule R234). -/
def ctrApplyBuffers (s : State) : List Buffer :=
  if s.a2 ≠ 0 then [⟨s.a0, s.a1⟩, ⟨s.a2, 16⟩] else [⟨s.a0, s.a1⟩]

/-- The optional IV of CTR_APPLY (rules R226, R234). -/
def ctrApplyIv (s : State) : Option Block := if s.a2 ≠ 0 then some (blockOfBytes (s.memRead s.a2 16)) else none

/-- The rule of CTR_APPLY (rule R234). -/
def ctrApplyRule (h lim : Nat) (s : State) : CommandResult := do
  let c ← s.checkHandle h Slot.asCtr .anyPhase
  require (lim ≤ 16) .invalidArg
  s.checkBuffers (ctrApplyBuffers s)
  let r := ctrApply c (s.memRead s.a0 s.a1) (ctrApplyIv s) lim
  .ok { slot := some (h, .ctr r.1), writes := [(s.a0, r.2)] }

/-- CTR_APPLY (rule R234). -/
def execCtrApply (h lim : Nat) (s : State) : Host.Outcome State Fault Refusal := s.runRule (ctrApplyRule h lim s)

end Sys2Proof.Machine
end

