-- ==== Sys2Proof/Machine/Ccm.lean ====
section
/-! DEFINITION. The CCM AEAD compositor (rules R250 to R270): CCM_ENCRYPT, CCM_DECRYPT. Both are stateless. -/
namespace Sys2Proof.Machine

/-- The (M, L) pairs CCM takes (rule R251). -/
def ccmParamsOk (m l : Nat) : Bool := m % 2 = 0 ∧ 4 ≤ m ∧ m ≤ 16 ∧ 2 ≤ l ∧ l ≤ 8

/-- The flags byte of B0: 64·Adata + 8·Mp + (L - 1), Mp = (M - 2)/2 (rules R250, R256). -/
def ccmFlags (m l aadLen : Nat) : Nat := (if aadLen > 0 then 64 else 0) + 8 * ((m - 2) / 2) + (l - 1)

/-- Block B0: flags, nonce, big-endian data length (rule R256). -/
def ccmB0 (m l : Nat) (nonce : Bytes) (dataLen aadLen : Nat) : Block :=
  blockOfBytes (BitVec.ofNat 8 (ccmFlags m l aadLen) :: (nonce ++ beBytes l dataLen))

/-- `AadPrefix(a)` for a > 0 (rule R257). -/
def ccmAadPrefix (a : Nat) : Bytes := if a < 0xFF00 then beBytes 2 a else 0xFF :: 0xFE :: beBytes 4 a

/-- The encoded AAD section, empty when AAD is absent (rules R255, R257). -/
def ccmAadSection (aad : Bytes) : Bytes := if aad.length = 0 then [] else ccmAadPrefix aad.length ++ aad

/-- `CbcMac(ks, B0, aadSection, P)`: the 16-byte internal tag T, each section zero-padded by itself (rule R258). -/
def ccmCbcMac (ks : KeySchedule) (b0 : Block) (aadSection p : Bytes) : Block :=
  (paddedBlocks aadSection ++ paddedBlocks p).foldl (fun x z => aesE ks (x ^^^ z)) (aesE ks b0)

/-- Counter block `A_i = (L - 1) || nonce || BE_L(i)` (rule R259). -/
def ccmCounterBlock (l : Nat) (nonce : Bytes) (i : Nat) : Block :=
  blockOfBytes (BitVec.ofNat 8 (l - 1) :: (nonce ++ beBytes l i))

/-- The transient CTR state that starts at counter value 1 (rule R261). -/
def ccmCtr (ks : KeySchedule) (l : Nat) (nonce : Bytes) : CtrState :=
  CtrState.init ks (ctrInc (ccmCounterBlock l nonce 0) 16)

/-- The tag U = T[0..M) XOR S0[0..M), with S0 = E(ks, A_0), over plaintext p (rules R259, R260). -/
def ccmTag (ks : KeySchedule) (m l : Nat) (nonce p aad : Bytes) : Bytes :=
  let t := ccmCbcMac ks (ccmB0 m l nonce p.length aad.length) (ccmAadSection aad) p
  (blockBytes (t ^^^ aesE ks (ccmCounterBlock l nonce 0))).take m

/-- `CcmSeal` (rule R262): ciphertext and tag. -/
def ccmSeal (ks : KeySchedule) (m l : Nat) (nonce p aad : Bytes) : Bytes × Bytes :=
  ((ctrApply (ccmCtr ks l nonce) p none 16).2, ccmTag ks m l nonce p aad)

/-- `CcmOpen` (rules R262, R263): whether the tag matches over exactly M bytes, and the plaintext. -/
def ccmOpen (ks : KeySchedule) (m l : Nat) (nonce c aad u : Bytes) : Bool × Bytes :=
  let p := (ctrApply (ccmCtr ks l nonce) c none 16).2
  (ctEqual (ccmTag ks m l nonce p aad) u m, p)

/-- The buffers of CCM_ENCRYPT and CCM_DECRYPT, in list order: key, nonce, data, AAD, tag (rules R264, R268). -/
def ccmBuffers (m l : Nat) (s : State) : List Buffer :=
  [⟨s.a0, s.a1⟩, ⟨s.a2, 15 - l⟩, ⟨s.a3, s.a4⟩, ⟨s.a5, s.a6⟩, ⟨s.a7, m⟩]

/-- The checks of both commands, steps 3, 5, 6 and 7 (rules R251, R253, R254, R264). -/
def ccmChecks (m l : Nat) (s : State) : Except StatusCode Unit := do
  require (ccmParamsOk m l) .invalidArg
  require (s.a4 < 2 ^ (8 * l)) .invalidArg
  require (validKeyLen s.a1) .invalidKeyLen
  s.checkBuffers (ccmBuffers m l s)

/-- The working schedule of a stateless command, from the key at A0 (rules R254, R392). -/
def workingKey (s : State) : KeySchedule := expandKey (s.memRead s.a0 s.a1)

/-- The sealed data and tag of CCM_ENCRYPT (rule R264). -/
def ccmSealed (m l : Nat) (s : State) : Bytes × Bytes :=
  ccmSeal (workingKey s) m l (s.memRead s.a2 (15 - l)) (s.memRead s.a3 s.a4) (s.memRead s.a5 s.a6)

/-- The rule of CCM_ENCRYPT (rule R264). -/
def ccmEncryptRule (m l : Nat) (s : State) : CommandResult := do
  ccmChecks m l s
  let r := ccmSealed m l s
  .ok { writes := [(s.a3, r.1), (s.a7, r.2)] }

/-- CCM_ENCRYPT (rule R264). -/
def execCcmEncrypt (m l : Nat) (s : State) : Host.Outcome State Fault Refusal := s.runRule (ccmEncryptRule m l s)

/-- Whether the received tag of CCM_DECRYPT matches, and the recovered plaintext (rule R268). -/
def ccmOpened (m l : Nat) (s : State) : Bool × Bytes :=
  ccmOpen (workingKey s) m l (s.memRead s.a2 (15 - l)) (s.memRead s.a3 s.a4) (s.memRead s.a5 s.a6) (s.memRead s.a7 m)

/-- The rule of CCM_DECRYPT (rules R268, R269). -/
def ccmDecryptRule (m l : Nat) (s : State) : CommandResult := do
  ccmChecks m l s
  let r := ccmOpened m l s
  require r.1 .authFail
  .ok { writes := [(s.a3, r.2)] }

/-- CCM_DECRYPT (rule R268). -/
def execCcmDecrypt (m l : Nat) (s : State) : Host.Outcome State Fault Refusal := s.runRule (ccmDecryptRule m l s)

end Sys2Proof.Machine
end

