-- ==== Sys2Proof/Machine/Cmac.lean ====
section
/-! DEFINITION. CMAC/OMAC (rules R290 to R308): subkeys, the OMAC state machine that XCBC and EAX share, and the commands
CMAC_CREATE, CMAC_UPDATE, CMAC_FINAL. -/
namespace Sys2Proof.Machine

/-- `dbl(x)`: the block as a 128-bit big-endian integer, shifted left, with 0x87 XORed into byte 15 when bit 127 was set
(rule R292). -/
def dbl (x : Block) : Block := (x <<< 1) ^^^ (if x.getLsbD 127 then 0x87 else 0)

/-- `OmacInit(ks, ka, kb)` (rule R293). -/
def omacInit (ks : KeySchedule) (ka kb : Block) : Omac := ⟨ks, ka, kb, 0, 0, 0⟩

/-- A new CMAC state: Lk = E(ks, 0^16), K1 = dbl(Lk), K2 = dbl(K1) (rules R291, R293). -/
def cmacInit (ks : KeySchedule) : Omac :=
  let k1 := dbl (aesE ks 0)
  omacInit ks k1 (dbl k1)

/-- Chain a full pending block into the accumulator (rule R294). -/
def Omac.chain (o : Omac) : Omac :=
  if o.plen = 16 then { o with x := aesE o.ks (o.x ^^^ o.pend), pend := 0, plen := 0 } else o

/-- One byte of an update: a full pending block is chained only when a further byte arrives (rule R294). -/
def Omac.push (o : Omac) (b : Byte) : Omac :=
  let o := o.chain
  { o with pend := blockSetByte o.pend o.plen b, plen := o.plen + 1 }

/-- `OmacUpdate(o, data)`, byte by byte (rule R294). -/
def omacUpdate (o : Omac) (data : Bytes) : Omac := data.foldl Omac.push o

/-- The last block of a MAC: the full pending block XOR ka, or the pending bytes, 0x80 and zeros XOR kb (rule R296). -/
def Omac.lastBlock (o : Omac) : Block :=
  if o.plen = 16 then o.pend ^^^ o.ka
  else blockOfBytes ((blockBytes o.pend).take o.plen ++ 0x80 :: zeros (15 - o.plen)) ^^^ o.kb

/-- `OmacFinal(o)`: the 16-byte MAC (rule R296). -/
def omacFinal (o : Omac) : Block := aesE o.ks (o.x ^^^ o.lastBlock)

/-- `OmacFinal(o)[0 .. r)`: truncation to the leading bytes (rule R298). -/
def omacResult (o : Omac) (r : Nat) : Bytes := (blockBytes (omacFinal o)).take r

/-- `CMAC(K, m)` (rule R299). -/
def cmac (ks : KeySchedule) (m : Bytes) : Block := omacFinal (omacUpdate (cmacInit ks) m)

/-- The rule of CMAC_CREATE (rule R300). -/
def cmacCreateRule (s : State) : CommandResult := do
  require (validKeyLen s.a1) .invalidKeyLen
  s.checkBuffers [⟨s.a0, s.a1⟩]
  let h ← s.alloc
  let ks := expandKey (s.memRead s.a0 s.a1)
  .ok { slot := some (h, .cmac ⟨cmacInit ks, .opened⟩), handle := h }

/-- CMAC_CREATE (rule R300). -/
def execCmacCreate (s : State) : Host.Outcome State Fault Refusal := s.runRule (cmacCreateRule s)

/-- The rule of CMAC_UPDATE (rule R303). -/
def cmacUpdateRule (h : Nat) (s : State) : CommandResult := do
  let c ← s.checkHandle h Slot.asCmac .mustBeOpen
  s.checkBuffers [⟨s.a0, s.a1⟩]
  .ok { slot := some (h, .cmac { c with om := omacUpdate c.om (s.memRead s.a0 s.a1) }) }

/-- CMAC_UPDATE (rule R303). -/
def execCmacUpdate (h : Nat) (s : State) : Host.Outcome State Fault Refusal := s.runRule (cmacUpdateRule h s)

/-- The rule of CMAC_FINAL (rule R306). -/
def cmacFinalRule (h : Nat) (s : State) : CommandResult := do
  let c ← s.checkHandle h Slot.asCmac .mustBeOpen
  s.checkBuffers [⟨s.a0, 16⟩]
  .ok { slot := some (h, .cmac { c with phase := .finalized }), writes := [(s.a0, omacResult c.om 16)] }

/-- CMAC_FINAL (rule R306). -/
def execCmacFinal (h : Nat) (s : State) : Host.Outcome State Fault Refusal := s.runRule (cmacFinalRule h s)

end Sys2Proof.Machine
end

