-- ==== Sys2Proof/Machine/Eax.lean ====
section
/-! DEFINITION. The EAX triple-OMAC AEAD engine (rules R350 to R378): EAX_CREATE, EAX_HEADER, EAX_ENCRYPT, EAX_DECRYPT,
EAX_FINAL, EAX_GENTAG, EAX_GETPT. -/
namespace Sys2Proof.Machine

/-- The tweak block `Tw(t) = 0^15 || t` (rule R351). -/
def eaxTweak (t : Byte) : Bytes := zeros 15 ++ [t]

/-- A fresh CMAC state seeded with the tweak block t (rule R351). -/
def eaxOmac (ks : KeySchedule) (t : Byte) : Omac := omacUpdate (cmacInit ks) (eaxTweak t)

/-- N, the OMAC of the nonce (rule R352). -/
def eaxNonceValue (ks : KeySchedule) (nonce : Bytes) : Block := omacFinal (omacUpdate (eaxOmac ks 0) nonce)

/-- The contents of a new EAX slot (rules R350, R353, R360). -/
def eaxInit (ks : KeySchedule) (nonce : Bytes) : EaxCtx :=
  let n := eaxNonceValue ks nonce
  { ctr := CtrState.init ks n, n := n, omH := eaxOmac ks 1, omC := eaxOmac ks 2, phase := .opened }

/-- The tag before truncation: OmacFinal(omC) XOR N XOR OmacFinal(omH) (rule R355). -/
def EaxCtx.tag (c : EaxCtx) : Block := omacFinal c.omC ^^^ c.n ^^^ omacFinal c.omH

/-- The first t bytes of the tag (rule R355). -/
def EaxCtx.tagBytes (c : EaxCtx) (t : Nat) : Bytes := (blockBytes c.tag).take t

/-- Header bytes into omH (rule R363). -/
def EaxCtx.header (c : EaxCtx) (data : Bytes) : EaxCtx := { c with omH := omacUpdate c.omH data }

/-- Ciphertext bytes into omC. -/
def EaxCtx.absorb (c : EaxCtx) (data : Bytes) : EaxCtx := { c with omC := omacUpdate c.omC data }

/-- The CTR transform with incrementLimit 16 (rule R353): the context after it, and the output. -/
def EaxCtx.stream (c : EaxCtx) (data : Bytes) : EaxCtx × Bytes :=
  let r := ctrApply c.ctr data none 16
  ({ c with ctr := r.1 }, r.2)

/-- Encryption: the CTR transform, then its output, the ciphertext, into omC (rule R365). -/
def EaxCtx.encrypt (c : EaxCtx) (data : Bytes) : EaxCtx × Bytes :=
  let r := c.stream data
  (r.1.absorb r.2, r.2)

/-- Decryption: the input, the ciphertext, into omC, then the CTR transform (rule R367). -/
def EaxCtx.decrypt (c : EaxCtx) (data : Bytes) : EaxCtx × Bytes := (c.absorb data).stream data

/-- The slot in phase FINAL (rule R46). -/
def EaxCtx.close (c : EaxCtx) : EaxCtx := { c with phase := .finalized }

/-- The rule of EAX_CREATE (rule R360). -/
def eaxCreateRule (s : State) : CommandResult := do
  require (validKeyLen s.a1) .invalidKeyLen
  s.checkBuffers [⟨s.a0, s.a1⟩, ⟨s.a2, s.a3⟩]
  let h ← s.alloc
  let ks := expandKey (s.memRead s.a0 s.a1)
  .ok { slot := some (h, .eax (eaxInit ks (s.memRead s.a2 s.a3))), handle := h }

/-- EAX_CREATE (rule R360). -/
def execEaxCreate (s : State) : Host.Outcome State Fault Refusal := s.runRule (eaxCreateRule s)

/-- The rule of EAX_HEADER (rule R363). -/
def eaxHeaderRule (h : Nat) (s : State) : CommandResult := do
  let c ← s.checkHandle h Slot.asEax .mustBeOpen
  s.checkBuffers [⟨s.a0, s.a1⟩]
  .ok { slot := some (h, .eax (c.header (s.memRead s.a0 s.a1))) }

/-- EAX_HEADER (rule R363). -/
def execEaxHeader (h : Nat) (s : State) : Host.Outcome State Fault Refusal := s.runRule (eaxHeaderRule h s)

/-- The rule of EAX_ENCRYPT (rule R365). -/
def eaxEncryptRule (h : Nat) (s : State) : CommandResult := do
  let c ← s.checkHandle h Slot.asEax .mustBeOpen
  s.checkBuffers [⟨s.a0, s.a1⟩]
  let r := c.encrypt (s.memRead s.a0 s.a1)
  .ok { slot := some (h, .eax r.1), writes := [(s.a0, r.2)] }

/-- EAX_ENCRYPT (rule R365). -/
def execEaxEncrypt (h : Nat) (s : State) : Host.Outcome State Fault Refusal := s.runRule (eaxEncryptRule h s)

/-- The rule of EAX_DECRYPT (rule R367). -/
def eaxDecryptRule (h : Nat) (s : State) : CommandResult := do
  let c ← s.checkHandle h Slot.asEax .mustBeOpen
  s.checkBuffers [⟨s.a0, s.a1⟩]
  let r := c.decrypt (s.memRead s.a0 s.a1)
  .ok { slot := some (h, .eax r.1), writes := [(s.a0, r.2)] }

/-- EAX_DECRYPT (rule R367). -/
def execEaxDecrypt (h : Nat) (s : State) : Host.Outcome State Fault Refusal := s.runRule (eaxDecryptRule h s)

/-- The rule of EAX_FINAL (rule R369). -/
def eaxFinalRule (h t : Nat) (s : State) : CommandResult := do
  let c ← s.checkHandle h Slot.asEax .mustBeOpen
  require (t ≤ 16) .invalidArg
  s.checkBuffers [⟨s.a0, t⟩]
  .ok { slot := some (h, .eax c.close), writes := [(s.a0, c.tagBytes t)] }

/-- EAX_FINAL (rule R369). -/
def execEaxFinal (h t : Nat) (s : State) : Host.Outcome State Fault Refusal := s.runRule (eaxFinalRule h t s)

/-- The rule of EAX_GENTAG (rule R372): header and ciphertext are absorbed, the CTR state is not touched. -/
def eaxGentagRule (h t : Nat) (s : State) : CommandResult := do
  let c ← s.checkHandle h Slot.asEax .mustBeOpen
  require (t ≤ 16) .invalidArg
  s.checkBuffers [⟨s.a0, s.a1⟩, ⟨s.a2, s.a3⟩, ⟨s.a4, t⟩]
  let c' := (c.header (s.memRead s.a2 s.a3)).absorb (s.memRead s.a0 s.a1)
  .ok { slot := some (h, .eax c'.close), writes := [(s.a4, c'.tagBytes t)] }

/-- EAX_GENTAG (rule R372). -/
def execEaxGentag (h t : Nat) (s : State) : Host.Outcome State Fault Refusal := s.runRule (eaxGentagRule h t s)

/-- The rule of EAX_GETPT (rule R375): the CTR transform alone, in phase OPEN or FINAL. -/
def eaxGetptRule (h : Nat) (s : State) : CommandResult := do
  let c ← s.checkHandle h Slot.asEax .anyPhase
  s.checkBuffers [⟨s.a0, s.a1⟩]
  let r := c.stream (s.memRead s.a0 s.a1)
  .ok { slot := some (h, .eax r.1), writes := [(s.a0, r.2)] }

/-- EAX_GETPT (rule R375). -/
def execEaxGetpt (h : Nat) (s : State) : Host.Outcome State Fault Refusal := s.runRule (eaxGetptRule h s)

end Sys2Proof.Machine
end

