-- ==== Sys2Proof/Machine/KeyWrap.lean ====
section
/-! DEFINITION. The AES Key Wrap engine (rules R390 to R405): KW_WRAP, KW_UNWRAP. Both are stateless. -/
namespace Sys2Proof.Machine

/-- The integrity constant A6x8 (rule R390). -/
def kwConstant : Semiblock := 0xA6A6A6A6A6A6A6A6

/-- `MSB64(B)` (rule R391). -/
def msb64 (b : Block) : Semiblock := b.extractLsb' 64 64

/-- `LSB64(B)` (rule R391). -/
def lsb64 (b : Block) : Semiblock := b.extractLsb' 0 64

/-- XOR the counter t, reduced mod 256, into the last byte of A only (rule R394). -/
def kwXorCounter (a : Semiblock) (t : Nat) : Semiblock := a ^^^ BitVec.ofNat 64 (t % 256)

/-- The inner loop of wrap, i from 1 to n, for the semiblocks from the one whose counter is t on (rule R392). -/
def kwWrapPass (ks : KeySchedule) : Nat → Semiblock → List Semiblock → Semiblock × List Semiblock
  | _, a, [] => (a, [])
  | t, a, r :: rs =>
    let b := aesE ks (a ++ r)
    let rest := kwWrapPass ks (t + 1) (kwXorCounter (msb64 b) t) rs
    (rest.1, lsb64 b :: rest.2)

/-- The inner loop of unwrap, i from n down to 1, for the semiblocks from the one whose counter is t on (rule R397). -/
def kwUnwrapPass (ks : KeySchedule) : Nat → Semiblock → List Semiblock → Semiblock × List Semiblock
  | _, a, [] => (a, [])
  | t, a, r :: rs =>
    let rest := kwUnwrapPass ks (t + 1) a rs
    let b := aesD ks (kwXorCounter rest.1 t ++ r)
    (msb64 b, lsb64 b :: rest.2)

/-- The outer loop of wrap, j from 0 to 5: the pass for j starts at counter n·j + 1 (rule R392). -/
def kwWrapLoop (ks : KeySchedule) (a : Semiblock) (rs : List Semiblock) : Semiblock × List Semiblock :=
  (List.range 6).foldl (fun st j => kwWrapPass ks (rs.length * j + 1) st.1 st.2) (a, rs)

/-- The outer loop of unwrap, j from 5 down to 0 (rule R397). -/
def kwUnwrapLoop (ks : KeySchedule) (a : Semiblock) (rs : List Semiblock) : Semiblock × List Semiblock :=
  (List.range 6).foldr (fun j st => kwUnwrapPass ks (rs.length * j + 1) st.1 st.2) (a, rs)

/-- `KwWrap(ks, Pt)` for 8·n bytes (rule R392): 8·(n+1) bytes. -/
def kwWrap (ks : KeySchedule) (pt : Bytes) : Bytes :=
  let r := kwWrapLoop ks kwConstant (semiblocksFrom (pt.length / 8) pt)
  bytesOfSemiblocks (r.1 :: r.2)

/-- `KwUnwrap(ks, Ct)` for 8·(n+1) bytes (rule R397): whether A is the constant, and 8·n bytes. -/
def kwUnwrap (ks : KeySchedule) (ct : Bytes) : Bool × Bytes :=
  let r := kwUnwrapLoop ks (semiblockOfBytes ct) (semiblocksFrom (ct.length / 8 - 1) (ct.drop 8))
  (r.1 = kwConstant, bytesOfSemiblocks r.2)

/-- The schedule of the KEK, from the key at A0. -/
def kwKey (s : State) : KeySchedule := expandKey (s.memRead s.a0 s.a1)

/-- The rule of KW_WRAP (rules R399, R400). -/
def kwWrapRule (s : State) : CommandResult := do
  require (s.a3 % 8 = 0 ∧ 8 ≤ s.a3) .badLength
  require (validKeyLen s.a1) .invalidKeyLen
  s.checkBuffers [⟨s.a0, s.a1⟩, ⟨s.a2, s.a3⟩, ⟨s.a4, s.a3 + 8⟩]
  .ok { writes := [(s.a4, kwWrap (kwKey s) (s.memRead s.a2 s.a3))] }

/-- KW_WRAP (rule R400). -/
def execKwWrap (s : State) : Host.Outcome State Fault Refusal := s.runRule (kwWrapRule s)

/-- The rule of KW_UNWRAP (rules R398, R399, R403). -/
def kwUnwrapRule (s : State) : CommandResult := do
  require (s.a3 % 8 = 0 ∧ 16 ≤ s.a3) .badLength
  require (validKeyLen s.a1) .invalidKeyLen
  s.checkBuffers [⟨s.a0, s.a1⟩, ⟨s.a2, s.a3⟩, ⟨s.a4, s.a3 - 8⟩]
  let r := kwUnwrap (kwKey s) (s.memRead s.a2 s.a3)
  require r.1 .authFail
  .ok { writes := [(s.a4, r.2)] }

/-- KW_UNWRAP (rule R403). -/
def execKwUnwrap (s : State) : Host.Outcome State Fault Refusal := s.runRule (kwUnwrapRule s)

end Sys2Proof.Machine
end

