-- ==== Sys2Proof/Machine/Xcbc.lean ====
section
/-! DEFINITION. XCBC-MAC-96 and XCBC-PRF-128 (rules R320 to R336): XCBC_CREATE, XCBC_UPDATE, XCBC_FINAL. -/
namespace Sys2Proof.Machine

/-- K_c = E(ksK, c^16) for the constant byte c = 1, 2, 3 (rules R321, R325). -/
def xcbcSubkey (ksK : KeySchedule) (c : Byte) : Block := aesE ksK (blockOfRepeat c)

/-- The OMAC state of XCBC for the schedule of a 16-byte key: chained under K1, with ka = K2 and kb = K3 (rule R325). -/
def xcbcOmac (ksK : KeySchedule) : Omac :=
  omacInit (expandKey (blockBytes (xcbcSubkey ksK 1))) (xcbcSubkey ksK 2) (xcbcSubkey ksK 3)

/-- `XcbcMac16(K, m)`: the full 16-byte XCBC value (rule R326). -/
def xcbcMac16 (key m : Bytes) : Block := omacFinal (omacUpdate (xcbcOmac (expandKey key)) m)

/-- `PrfKey(k)` (rule R324): a 16-byte key as it is, a shorter one padded on the right, a longer one replaced by its
16-byte XCBC value under the zero key. -/
def prfKey (k : Bytes) : Bytes :=
  if k.length = 16 then k
  else if k.length < 16 then k ++ zeros (16 - k.length)
  else blockBytes (xcbcMac16 (zeros 16) k)

/-- The key a variant uses (rules R320, R322, R324). -/
def xcbcKey (variant : XcbcVariant) (k : Bytes) : Bytes :=
  match variant with
  | .mac96 => k
  | .prf128 => prfKey k

/-- The result length of a variant: 12 or 16 bytes (rule R320). -/
def xcbcOutLen : XcbcVariant → Nat
  | .mac96 => 12
  | .prf128 => 16

/-- MAC-96 takes a 16-byte key only; PRF-128 takes every key length (rules R322, R323). -/
def xcbcKeyLenOk (variant : XcbcVariant) (n : Nat) : Bool :=
  match variant with
  | .mac96 => n = 16
  | .prf128 => true

/-- The contents of a new XCBC slot (rule R330). -/
def xcbcInit (variant : XcbcVariant) (k : Bytes) : XcbcCtx :=
  let ksK := expandKey (xcbcKey variant k)
  { ksK := ksK, om := xcbcOmac ksK, outLen := xcbcOutLen variant, phase := .opened }

/-- The rule of XCBC_CREATE (rule R330). -/
def xcbcCreateRule (variant : XcbcVariant) (s : State) : CommandResult := do
  require (xcbcKeyLenOk variant s.a1) .invalidKeyLen
  s.checkBuffers [⟨s.a0, s.a1⟩]
  let h ← s.alloc
  .ok { slot := some (h, .xcbc (xcbcInit variant (s.memRead s.a0 s.a1))), handle := h }

/-- XCBC_CREATE (rule R330). -/
def execXcbcCreate (variant : XcbcVariant) (s : State) : Host.Outcome State Fault Refusal :=
  s.runRule (xcbcCreateRule variant s)

/-- The rule of XCBC_UPDATE (rule R333). -/
def xcbcUpdateRule (h : Nat) (s : State) : CommandResult := do
  let c ← s.checkHandle h Slot.asXcbc .mustBeOpen
  s.checkBuffers [⟨s.a0, s.a1⟩]
  .ok { slot := some (h, .xcbc { c with om := omacUpdate c.om (s.memRead s.a0 s.a1) }) }

/-- XCBC_UPDATE (rule R333). -/
def execXcbcUpdate (h : Nat) (s : State) : Host.Outcome State Fault Refusal := s.runRule (xcbcUpdateRule h s)

/-- The rule of XCBC_FINAL (rule R336). -/
def xcbcFinalRule (h : Nat) (s : State) : CommandResult := do
  let c ← s.checkHandle h Slot.asXcbc .mustBeOpen
  s.checkBuffers [⟨s.a0, c.outLen⟩]
  .ok { slot := some (h, .xcbc { c with phase := .finalized }), writes := [(s.a0, omacResult c.om c.outLen)] }

/-- XCBC_FINAL (rule R336). -/
def execXcbcFinal (h : Nat) (s : State) : Host.Outcome State Fault Refusal := s.runRule (xcbcFinalRule h s)

end Sys2Proof.Machine
end

