-- ==== Sys2Proof/Machine/Dispatch.lean ====
section
/-! DEFINITION. The meaning of a command: one arm per constructor of Instr, each one call of the command's own meaning. -/
namespace Sys2Proof.Machine

def exec (i : Instr) (s : State) : Host.Outcome State Fault Refusal :=
  match i with
  | .ctxCreate dir mode => Sys2Proof.Machine.execCtxCreate dir mode s
  | .ctxDestroy h => Sys2Proof.Machine.execCtxDestroy h s
  | .aesBlock h dir => Sys2Proof.Machine.execAesBlock h dir s
  | .blockMode h dir => Sys2Proof.Machine.execBlockMode h dir s
  | .ctrCreate => Sys2Proof.Machine.execCtrCreate s
  | .ctrApply h lim => Sys2Proof.Machine.execCtrApply h lim s
  | .ccmEncrypt m l => Sys2Proof.Machine.execCcmEncrypt m l s
  | .ccmDecrypt m l => Sys2Proof.Machine.execCcmDecrypt m l s
  | .cmacCreate => Sys2Proof.Machine.execCmacCreate s
  | .cmacUpdate h => Sys2Proof.Machine.execCmacUpdate h s
  | .cmacFinal h => Sys2Proof.Machine.execCmacFinal h s
  | .xcbcCreate variant => Sys2Proof.Machine.execXcbcCreate variant s
  | .xcbcUpdate h => Sys2Proof.Machine.execXcbcUpdate h s
  | .xcbcFinal h => Sys2Proof.Machine.execXcbcFinal h s
  | .eaxCreate => Sys2Proof.Machine.execEaxCreate s
  | .eaxHeader h => Sys2Proof.Machine.execEaxHeader h s
  | .eaxEncrypt h => Sys2Proof.Machine.execEaxEncrypt h s
  | .eaxDecrypt h => Sys2Proof.Machine.execEaxDecrypt h s
  | .eaxFinal h t => Sys2Proof.Machine.execEaxFinal h t s
  | .eaxGentag h t => Sys2Proof.Machine.execEaxGentag h t s
  | .eaxGetpt h => Sys2Proof.Machine.execEaxGetpt h s
  | .kwWrap => Sys2Proof.Machine.execKwWrap s
  | .kwUnwrap => Sys2Proof.Machine.execKwUnwrap s
  | .ctCompare => Sys2Proof.Machine.execCtCompare s

end Sys2Proof.Machine
end

