-- ==== Sys2Proof/Machine/Engine.lean ====
section
/-! DEFINITION. The engine step (rules R31, R436): the pending command word is decoded and its command runs as one atomic
transition; a word that is no command ends with ILLEGAL_CMD (rules R105, R106, R437 step 1). -/
namespace Sys2Proof.Machine

/-- The engine step on the word in CMD (rule R436). -/
def engineStep (s : State) : Host.Outcome State Fault Refusal :=
  match decode s.cmd with
  | .ok i => exec i s
  | .error _ => .next (s.raiseStatus .illegalCmd)

end Sys2Proof.Machine
end

