-- ==== Sys2Proof/Machine/Flags.lean ====
section
/-! DEFINITION. The status and result registers as the host reads them (rules R36 to R38, R430). The core has no condition
flags but STATUS.CODE and STATUS.BUSY (rule R38). -/
namespace Sys2Proof.Machine

/-- The numeric value of a status code (rule R430). -/
def StatusCode.toByte : StatusCode → Byte
  | .ok => 0
  | .invalidArg => 1
  | .badLength => 2
  | .nullRef => 3
  | .allocFail => 4
  | .authFail => 5
  | .invalidKeyLen => 6
  | .badState => 7
  | .addrError => 8
  | .illegalCmd => 9

/-- STATUS as a read returns it: CODE in bits 7:0, BUSY in bit 8, bits 31:9 zero (rule R36). -/
def State.statusWord (s : State) : Word := (0 : BitVec 23) ++ BitVec.ofBool s.busy ++ s.code.toByte

/-- RESULT as a read returns it: HANDLE in bits 7:0, bits 31:8 zero (rule R37). -/
def State.resultWord (s : State) : Word := (0 : BitVec 24) ++ s.result

end Sys2Proof.Machine
end

