-- ==== Sys2Proof/Machine/HostPort.lean ====
section
/-! DEFINITION. The host port: the register file as the host reads and writes it (rules R32 to R37, R80, R81), the host's
accesses to data memory (rules R81, R84), the accesses that are host faults (rules R449, R478), the polling loop (rule
R111), reset (rules R470 to R474), and which agent moves next (rules R31, R479). -/
namespace Sys2Proof.Machine

/-- The value of the register at an offset (rule R32); a reserved offset reads 0. -/
def State.readReg (s : State) (offset : Byte) : Word :=
  match offset.toNat with
  | 0x00 => s.cmd
  | 0x04 => s.statusWord
  | 0x08 => s.resultWord
  | 0x10 => s.args.a0
  | 0x14 => s.args.a1
  | 0x18 => s.args.a2
  | 0x1C => s.args.a3
  | 0x20 => s.args.a4
  | 0x24 => s.args.a5
  | 0x28 => s.args.a6
  | 0x2C => s.args.a7
  | _ => 0

/-- A host write of the register at an offset (rules R32, R34, R35): a write of CMD starts a command; writes of STATUS, of
RESULT and of a reserved offset are ignored (rule R81). -/
def State.writeReg (s : State) (offset : Byte) (v : Word) : State :=
  match offset.toNat with
  | 0x00 => { s with cmd := v, busy := true }
  | 0x10 => { s with args := { s.args with a0 := v } }
  | 0x14 => { s with args := { s.args with a1 := v } }
  | 0x18 => { s with args := { s.args with a2 := v } }
  | 0x1C => { s with args := { s.args with a3 := v } }
  | 0x20 => { s with args := { s.args with a4 := v } }
  | 0x24 => { s with args := { s.args with a5 := v } }
  | 0x28 => { s with args := { s.args with a6 := v } }
  | 0x2C => { s with args := { s.args with a7 := v } }
  | _ => s

/-- A register access of an allowed form: 32 bits wide at a multiple of 4 (rule R80). -/
def registerFormOk (width : AccessWidth) (offset : Byte) : Bool := width = .word32 ∧ offset.toNat % 4 = 0

/-- The offset of STATUS, the one register the host may read while BUSY = 1 (rules R32, R478). -/
def statusOffset : Byte := 0x04

/-- The fault of a host register read, if it is one (rules R449, R478; notes/assumptions/16.md for the order). -/
def regReadFault (s : State) (width : AccessWidth) (offset : Byte) : Option Fault :=
  if !registerFormOk width offset then some .registerAccessForm
  else if s.busy ∧ offset ≠ statusOffset then some .accessWhileBusy
  else none

/-- The fault of a host register write, if it is one (rules R449, R478). -/
def regWriteFault (s : State) (width : AccessWidth) (offset : Byte) : Option Fault :=
  if !registerFormOk width offset then some .registerAccessForm
  else if s.busy then some .accessWhileBusy
  else none

/-- The fault of a host memory access, if it is one (rules R84, R449, R478). -/
def memFault (s : State) (addr : Nat) : Option Fault :=
  if s.busy then some .accessWhileBusy
  else if addr ≥ s.memBytes then some .memoryAddressOutOfRange
  else none

/-- Stop with the fault if there is one, else go on in the given state. -/
def orFault (f : Option Fault) (s : State) : Host.Outcome State Fault Refusal :=
  match f with
  | some r => .fault r
  | none => .next s

/-- Reset (rules R50, R470 to R474): every piece of the spec's state at its reset value in one step, a pending command
dropped, and a new draw for the data memory. The outside world, which is no state of the core, stays. -/
def State.takeReset (s : State) : State :=
  { State.resetWith s.nslot s.memBytes with
    epoch := s.epoch + 1, host := s.host, turns := s.turns, returned := s.returned }

/-- One host action (rules R84, R111), in a state whose `host` field is what the host does after it. -/
def hostAction (a : HostAction) (s : State) : Host.Outcome State Fault Refusal :=
  match a with
  | .memWrite addr v => orFault (memFault s addr.toNat) { s with mem := Memory.write s.mem addr.toNat v }
  | .memRead addr => orFault (memFault s addr.toNat) { s with returned := some ((s.readByte addr.toNat).zeroExtend 32) }
  | .regWrite width offset v => orFault (regWriteFault s width offset) (s.writeReg offset v)
  | .regRead width offset => orFault (regReadFault s width offset) { s with returned := some (s.readReg offset) }
  | .wait =>
    if s.busy then .next { s with returned := some s.statusWord, host := .wait :: s.host }
    else .next { s with returned := some s.statusWord }
  | .reset => .next s.takeReset

/-- The host's next step; a host with nothing to do leaves the machine idle (rules R456, R475, R488). -/
def hostStep (s : State) : Host.Outcome State Fault Refusal :=
  match s.host with
  | [] => .next s
  | a :: rest => hostAction a { s with host := rest }

/-- Which agent moves next. While BUSY = 0 only the host can move. While BUSY = 1 the state's `turns` say who moves; a turn
of the host passes to the engine when the host has nothing to do, and when no turn is left the engine moves, so it takes
every pending command after finitely many host steps (rules R31, R479; notes/assumptions/6.md). -/
def State.nextMover (s : State) : Agent :=
  if !s.busy then .host
  else
    match s.turns with
    | .host :: _ => if s.host.isEmpty then .engine else .host
    | _ => .engine

/-- A step taken while BUSY = 1 uses up one turn. -/
def State.useTurn (s : State) : State := if s.busy then { s with turns := s.turns.tail } else s

/-! ### Host statements -/

/-- `wr An, V` (rule R110): A0 to A7 stand at offsets 0x10, 0x14, … (rule R32). -/
def HostAction.wr (n : Nat) (v : Word) : HostAction := .regWrite .word32 (BitVec.ofNat 8 (0x10 + 4 * n)) v

/-- `cmd MNEMONIC items` (rule R110): the host writes the command word to CMD. -/
def HostAction.cmd (w : Word) : HostAction := .regWrite .word32 0x00 w

/-- `rd REG` (rule R110). -/
def HostAction.rd (offset : Byte) : HostAction := .regRead .word32 offset

/-- `mem ADDR <- HEX` (rule R110): the bytes from ADDR upward, one host write each. DESIGN CHOICE, unsafe
(notes/assumptions/22.md): a statement that runs past address 0xFFFFFFFF goes on at address 0; the spec states no wrap and no
fault for it. -/
def hostStoreBytes : Word → Bytes → List HostAction
  | _, [] => []
  | addr, b :: bs => .memWrite addr b :: hostStoreBytes (addr + 1) bs

/-- `issue MNEMONIC items; An=V, …` (rule R111): the register writes in the order written, the command word, the wait. -/
def issue (w : Word) (args : List (Nat × Word)) : List HostAction :=
  args.map (fun p => .wr p.1 p.2) ++ [.cmd w, .wait]

end Sys2Proof.Machine
end

