-- ==== Sys2Proof/Machine/Step.lean ====
section
/-! DEFINITION. One step of the machine: the agent whose turn it is moves (rules R30, R31, R85). -/
namespace Sys2Proof.Machine

/-- One step of the host or of the engine, in the one total order of rule R85. -/
def step (s : State) : Host.Outcome State Fault Refusal :=
  match s.nextMover with
  | .engine => engineStep s.useTurn
  | .host => hostStep s.useTurn

/-- The state in which the host has just written the command word `w` to CMD and the engine moves next (rules R35, R100;
notes/assumptions/5.md): the machine fetches its command from CMD and nowhere else. -/
def State.withFetchWord (s : State) (_nbits w : Nat) : State :=
  { s with cmd := BitVec.ofNat 32 w, busy := true, turns := [] }

end Sys2Proof.Machine
end

