-- ==== Sys2Proof/Safety.lean ====
section
/-! DEFINITION. The terms the claims use: the invariant of the state (rules R8, R9, R43, R45, R48), the shape of a command
(which slot it names, which buffer it stores to, which codes it can report), and the plain end states of a command. -/
namespace Sys2Proof.Machine

/-! ### The invariant -/

/-- A key schedule of rule R43: 10, 12 or 14 rounds and 4(Nr+1) words. -/
abbrev KeySchedule.wf (ks : KeySchedule) : Prop :=
  (ks.nr = 10 ∨ ks.nr = 12 ∨ ks.nr = 14) ∧ ks.w.length = 4 * (ks.nr + 1)

/-- A CTR state of rule R45: offset < 16. -/
abbrev CtrState.wf (c : CtrState) : Prop := c.ks.wf ∧ c.offset < 16

/-- An OMAC state of rule R45: plen <= 16, and every pending byte from plen on is 0x00. -/
abbrev Omac.wf (o : Omac) : Prop := o.ks.wf ∧ o.plen ≤ 16 ∧ ∀ i < 16, o.plen ≤ i → blockByte o.pend i = 0

/-- The contents of a slot keep rules R42, R43, R45, R320 and R350. -/
def Slot.wf : Slot → Bool
  | .empty => true
  | .cipher c => decide (c.ks.wf ∧ validKeyLen c.keyLen = true ∧ c.ks.nr = c.keyLen / 4 + 6)
  | .ctr c => decide c.wf
  | .cmac c => decide c.om.wf
  | .xcbc c => decide (c.ksK.wf ∧ c.om.wf ∧ (c.outLen = 12 ∨ c.outLen = 16))
  | .eax c =>
    decide (c.ctr.wf ∧ c.omH.wf ∧ c.omC.wf ∧ 1 ≤ c.omH.plen ∧ 1 ≤ c.omC.plen ∧
      c.omH.ks = c.ctr.ks ∧ c.omC.ks = c.ctr.ks)

/-- The invariant of the machine: NSLOT and MEM_BYTES in their ranges, the data memory in canonical form and inside
[0, MEM_BYTES), every slot well formed, and the scratch all zero between steps (rules R8, R9, R45, R48, R70). -/
abbrev State.Inv (s : State) : Prop :=
  Config.validNslot s.nslot ∧ Config.validMemBytes s.memBytes ∧ Memory.wf s.mem ∧
    (∀ c ∈ s.mem, c.1 < s.memBytes) ∧ (∀ v ∈ s.slots, v.wf = true) ∧ s.scratch = []

/-! ### Preconditions and end states of a command -/

/-- The engine accepts a buffer operand: it is empty, or it is not at the null address and lies inside the data memory
(rules R72 to R74). -/
abbrev State.accepts (s : State) (b : Buffer) : Prop := b.len = 0 ∨ (b.addr ≠ 0 ∧ b.addr + b.len ≤ s.memBytes)

/-- h is the lowest slot number with SLOT[h] = EMPTY (rule R442). -/
abbrev State.lowestFree (s : State) (h : Nat) : Prop :=
  1 ≤ h ∧ h ≤ s.nslot ∧ s.slot h = .empty ∧ ∀ k, 1 ≤ k → k < h → s.slot k ≠ .empty

/-- The key length is one AES takes (rule R148). -/
abbrev aesKeyLen (n : Nat) : Prop := n = 16 ∨ n = 24 ∨ n = 32

/-- The state with a command ended by a code and a handle, and nothing else changed (rules R436, R443). -/
def State.ended (s : State) (c : StatusCode) (handle : Byte) : State :=
  { s with code := c, busy := false, result := handle, scratch := [] }

end Sys2Proof.Machine

namespace Sys2Proof

open Sys2Proof.Machine

/-! ### The shape of a command -/

/-- The handle of a command that uses H (rule R103). -/
def Instr.handle : Instr → Option Nat
  | .ctxCreate _ _ => none
  | .ctxDestroy h => some h
  | .aesBlock h _ => some h
  | .blockMode h _ => some h
  | .ctrCreate => none
  | .ctrApply h _ => some h
  | .ccmEncrypt _ _ => none
  | .ccmDecrypt _ _ => none
  | .cmacCreate => none
  | .cmacUpdate h => some h
  | .cmacFinal h => some h
  | .xcbcCreate _ => none
  | .xcbcUpdate h => some h
  | .xcbcFinal h => some h
  | .eaxCreate => none
  | .eaxHeader h => some h
  | .eaxEncrypt h => some h
  | .eaxDecrypt h => some h
  | .eaxFinal h _ => some h
  | .eaxGentag h _ => some h
  | .eaxGetpt h => some h
  | .kwWrap => none
  | .kwUnwrap => none
  | .ctCompare => none

/-- CTX_DESTROY, the one command with its own handle check (rules R165, R437 step 2). -/
def Instr.isDestroy : Instr → Bool
  | .ctxDestroy _ => true
  | _ => false

/-- The create commands (rule R431, ALLOC_FAIL). -/
def Instr.isCreate : Instr → Bool
  | .ctxCreate _ _ => true
  | .ctrCreate => true
  | .cmacCreate => true
  | .xcbcCreate _ => true
  | .eaxCreate => true
  | _ => false

/-- Whether a slot has the kind a command needs (the `CheckHandle` of each command's rule). -/
def Instr.kindOk (i : Instr) (v : Slot) : Bool :=
  match i, v with
  | .aesBlock _ _, .cipher _ => true
  | .blockMode _ _, .cipher _ => true
  | .ctrApply _ _, .ctr _ => true
  | .cmacUpdate _, .cmac _ => true
  | .cmacFinal _, .cmac _ => true
  | .xcbcUpdate _, .xcbc _ => true
  | .xcbcFinal _, .xcbc _ => true
  | .eaxHeader _, .eax _ => true
  | .eaxEncrypt _, .eax _ => true
  | .eaxDecrypt _, .eax _ => true
  | .eaxFinal _ _, .eax _ => true
  | .eaxGentag _ _, .eax _ => true
  | .eaxGetpt _, .eax _ => true
  | _, _ => false

/-- The commands whose `CheckHandle` needs phase OPEN. -/
def Instr.needsOpen : Instr → Bool
  | .cmacUpdate _ => true
  | .cmacFinal _ => true
  | .xcbcUpdate _ => true
  | .xcbcFinal _ => true
  | .eaxHeader _ => true
  | .eaxEncrypt _ => true
  | .eaxDecrypt _ => true
  | .eaxFinal _ _ => true
  | .eaxGentag _ _ => true
  | _ => false

/-- The buffers of data memory a command can store to, by the operands its rule gives (the "Writes" line of each rule). -/
def Instr.stores (i : Instr) (s : State) : List Buffer :=
  match i with
  | .aesBlock _ _ => [⟨s.a1, 16⟩]
  | .blockMode h _ =>
    match s.slot h with
    | .cipher c => if s.a1 = 0 then [] else blockModeBuffers c.mode s
    | _ => []
  | .ctrApply _ _ => [⟨s.a0, s.a1⟩]
  | .ccmEncrypt m _ => [⟨s.a3, s.a4⟩, ⟨s.a7, m⟩]
  | .ccmDecrypt _ _ => [⟨s.a3, s.a4⟩]
  | .cmacFinal _ => [⟨s.a0, 16⟩]
  | .xcbcFinal h =>
    match s.slot h with
    | .xcbc c => [⟨s.a0, c.outLen⟩]
    | _ => []
  | .eaxEncrypt _ => [⟨s.a0, s.a1⟩]
  | .eaxDecrypt _ => [⟨s.a0, s.a1⟩]
  | .eaxFinal _ t => [⟨s.a0, t⟩]
  | .eaxGentag _ t => [⟨s.a4, t⟩]
  | .eaxGetpt _ => [⟨s.a0, s.a1⟩]
  | .kwWrap => [⟨s.a4, s.a3 + 8⟩]
  | .kwUnwrap => [⟨s.a4, s.a3 - 8⟩]
  | .ctxCreate _ _ => []
  | .ctxDestroy _ => []
  | .ctrCreate => []
  | .cmacCreate => []
  | .cmacUpdate _ => []
  | .xcbcCreate _ => []
  | .xcbcUpdate _ => []
  | .eaxCreate => []
  | .eaxHeader _ => []
  | .ctCompare => []

/-- The buffer operands a command checks, in the order of its `CheckBuffers` list. XCBC_FINAL takes the length, and BLOCK_MODE
the IV buffer, from the slot H names. -/
def Instr.buffers (i : Instr) (s : State) : List Buffer :=
  match i with
  | .ctxCreate _ _ => [⟨s.a0, s.a1⟩]
  | .ctxDestroy _ => []
  | .aesBlock _ _ => [⟨s.a0, 16⟩, ⟨s.a1, 16⟩]
  | .blockMode h _ =>
    match s.slot h with
    | .cipher c => if c.mode = .cbc then [⟨s.a0, s.a1⟩, ⟨s.a2, 16⟩] else [⟨s.a0, s.a1⟩]
    | _ => []
  | .ctrCreate => if s.a2 ≠ 0 then [⟨s.a0, s.a1⟩, ⟨s.a2, 16⟩] else [⟨s.a0, s.a1⟩]
  | .ctrApply _ _ => if s.a2 ≠ 0 then [⟨s.a0, s.a1⟩, ⟨s.a2, 16⟩] else [⟨s.a0, s.a1⟩]
  | .ccmEncrypt m l => [⟨s.a0, s.a1⟩, ⟨s.a2, 15 - l⟩, ⟨s.a3, s.a4⟩, ⟨s.a5, s.a6⟩, ⟨s.a7, m⟩]
  | .ccmDecrypt m l => [⟨s.a0, s.a1⟩, ⟨s.a2, 15 - l⟩, ⟨s.a3, s.a4⟩, ⟨s.a5, s.a6⟩, ⟨s.a7, m⟩]
  | .cmacCreate => [⟨s.a0, s.a1⟩]
  | .cmacUpdate _ => [⟨s.a0, s.a1⟩]
  | .cmacFinal _ => [⟨s.a0, 16⟩]
  | .xcbcCreate _ => [⟨s.a0, s.a1⟩]
  | .xcbcUpdate _ => [⟨s.a0, s.a1⟩]
  | .xcbcFinal h =>
    match s.slot h with
    | .xcbc c => [⟨s.a0, c.outLen⟩]
    | _ => []
  | .eaxCreate => [⟨s.a0, s.a1⟩, ⟨s.a2, s.a3⟩]
  | .eaxHeader _ => [⟨s.a0, s.a1⟩]
  | .eaxEncrypt _ => [⟨s.a0, s.a1⟩]
  | .eaxDecrypt _ => [⟨s.a0, s.a1⟩]
  | .eaxFinal _ t => [⟨s.a0, t⟩]
  | .eaxGentag _ t => [⟨s.a0, s.a1⟩, ⟨s.a2, s.a3⟩, ⟨s.a4, t⟩]
  | .eaxGetpt _ => [⟨s.a0, s.a1⟩]
  | .kwWrap => [⟨s.a0, s.a1⟩, ⟨s.a2, s.a3⟩, ⟨s.a4, s.a3 + 8⟩]
  | .kwUnwrap => [⟨s.a0, s.a1⟩, ⟨s.a2, s.a3⟩, ⟨s.a4, s.a3 - 8⟩]
  | .ctCompare => [⟨s.a0, s.a2⟩, ⟨s.a1, s.a2⟩]

/-- The slot H names passes `CheckHandle`: it has the kind the command needs and, where the command asks for it, is OPEN. -/
abbrev Instr.handlePasses (i : Instr) (s : State) (h : Nat) : Prop :=
  i.kindOk (s.slot h) = true ∧ (i.needsOpen = true → (s.slot h).phase = .opened)

/-- Every check of a command before its buffer checks passes: the handle, the parameters, the lengths and the key length
(rule R437, steps 2 to 5). -/
def Instr.earlierChecksPass (i : Instr) (s : State) : Prop :=
  match i with
  | .ctxCreate _ mode => mode ≤ 1 ∧ aesKeyLen s.a1
  | .ctxDestroy _ => True
  | .aesBlock h dir => ∃ c, s.slot h = .cipher c ∧ dir = c.dir
  | .blockMode h dir => ∃ c, s.slot h = .cipher c ∧ dir = c.dir ∧ s.a1 % 16 = 0
  | .ctrCreate => (s.a2 ≠ 0 ∧ aesKeyLen s.a1) ∨ (s.a2 = 0 ∧ 16 ≤ s.a1 ∧ aesKeyLen (s.a1 - 16))
  | .ctrApply h lim => i.handlePasses s h ∧ lim ≤ 16
  | .ccmEncrypt m l =>
    m % 2 = 0 ∧ 4 ≤ m ∧ m ≤ 16 ∧ 2 ≤ l ∧ l ≤ 8 ∧ s.a4 < 2 ^ (8 * l) ∧ aesKeyLen s.a1
  | .ccmDecrypt m l =>
    m % 2 = 0 ∧ 4 ≤ m ∧ m ≤ 16 ∧ 2 ≤ l ∧ l ≤ 8 ∧ s.a4 < 2 ^ (8 * l) ∧ aesKeyLen s.a1
  | .cmacCreate => aesKeyLen s.a1
  | .cmacUpdate h => i.handlePasses s h
  | .cmacFinal h => i.handlePasses s h
  | .xcbcCreate v => v = .mac96 → s.a1 = 16
  | .xcbcUpdate h => i.handlePasses s h
  | .xcbcFinal h => i.handlePasses s h
  | .eaxCreate => aesKeyLen s.a1
  | .eaxHeader h => i.handlePasses s h
  | .eaxEncrypt h => i.handlePasses s h
  | .eaxDecrypt h => i.handlePasses s h
  | .eaxFinal h t => i.handlePasses s h ∧ t ≤ 16
  | .eaxGentag h t => i.handlePasses s h ∧ t ≤ 16
  | .eaxGetpt h => i.handlePasses s h
  | .kwWrap => s.a3 % 8 = 0 ∧ 8 ≤ s.a3 ∧ aesKeyLen s.a1
  | .kwUnwrap => s.a3 % 8 = 0 ∧ 16 ≤ s.a3 ∧ aesKeyLen s.a1
  | .ctCompare => True

/-- How many argument registers a command reads: every row of rule R103 reads A0, A1, … up to one register. -/
def Instr.argCount : Instr → Nat
  | .ctxCreate _ _ => 2
  | .ctxDestroy _ => 0
  | .aesBlock _ _ => 2
  | .blockMode _ _ => 3
  | .ctrCreate => 3
  | .ctrApply _ _ => 3
  | .ccmEncrypt _ _ => 8
  | .ccmDecrypt _ _ => 8
  | .cmacCreate => 2
  | .cmacUpdate _ => 2
  | .cmacFinal _ => 1
  | .xcbcCreate _ => 2
  | .xcbcUpdate _ => 2
  | .xcbcFinal _ => 1
  | .eaxCreate => 4
  | .eaxHeader _ => 2
  | .eaxEncrypt _ => 2
  | .eaxDecrypt _ => 2
  | .eaxFinal _ _ => 1
  | .eaxGentag _ _ => 5
  | .eaxGetpt _ => 2
  | .kwWrap => 5
  | .kwUnwrap => 5
  | .ctCompare => 3

/-- The commands that can report INVALID_KEY_LEN (rule R431). -/
def Instr.checksKeyLen : Instr → Bool
  | .ctxCreate _ _ => true
  | .ctrCreate => true
  | .ccmEncrypt _ _ => true
  | .ccmDecrypt _ _ => true
  | .cmacCreate => true
  | .xcbcCreate .mac96 => true
  | .eaxCreate => true
  | .kwWrap => true
  | .kwUnwrap => true
  | _ => false

/-- The commands with an INVALID_ARG check of a field of their own (rule R431). -/
def Instr.checksField : Instr → Bool
  | .ctxCreate _ _ => true
  | .ccmEncrypt _ _ => true
  | .ccmDecrypt _ _ => true
  | _ => false

/-- The commands that can report BAD_LENGTH (rule R431). -/
def Instr.checksLength : Instr → Bool
  | .blockMode _ _ => true
  | .kwWrap => true
  | .kwUnwrap => true
  | _ => false

/-- The commands that can report AUTH_FAIL (rule R431). -/
def Instr.authenticates : Instr → Bool
  | .ccmDecrypt _ _ => true
  | .kwUnwrap => true
  | .ctCompare => true
  | _ => false

/-- Rule R431: whether a command can report a code. ILLEGAL_CMD belongs to the command word, not to a decoded command. -/
def Instr.mayReport (i : Instr) : StatusCode → Bool
  | .ok => true
  | .invalidArg => i.handle.isSome || i.checksField
  | .badLength => i.checksLength
  | .nullRef => !i.isDestroy
  | .allocFail => i.isCreate
  | .authFail => i.authenticates
  | .invalidKeyLen => i.checksKeyLen
  | .badState => i.handle.isSome && !i.isDestroy
  | .addrError => !i.isDestroy
  | .illegalCmd => false

/-- The reserved OP values, range by range (rule R105). -/
abbrev reservedOp (op : Nat) : Prop :=
  op = 0x00 ∨ (0x05 ≤ op ∧ op ≤ 0x0F) ∨ (0x12 ≤ op ∧ op ≤ 0x1F) ∨ (0x22 ≤ op ∧ op ≤ 0x2F) ∨
    (0x33 ≤ op ∧ op ≤ 0x37) ∨ (0x3B ≤ op ∧ op ≤ 0x3F) ∨ (0x47 ≤ op ∧ op ≤ 0x4F) ∨
    (0x52 ≤ op ∧ op ≤ 0x5F) ∨ (0x61 ≤ op ∧ op ≤ 0xFF)

end Sys2Proof

namespace Sys2Proof.Machine

/-! ### The host -/

/-- The two register files agree on their first n argument registers. -/
abbrev ArgRegs.agree (n : Nat) (a b : ArgRegs) : Prop :=
  (0 < n → a.a0 = b.a0) ∧ (1 < n → a.a1 = b.a1) ∧ (2 < n → a.a2 = b.a2) ∧ (3 < n → a.a3 = b.a3) ∧
    (4 < n → a.a4 = b.a4) ∧ (5 < n → a.a5 = b.a5) ∧ (6 < n → a.a6 = b.a6) ∧ (7 < n → a.a7 = b.a7)

/-- A register access of a form rule R80 allows. -/
abbrev alignedWord (width : AccessWidth) (offset : Byte) : Prop := width = .word32 ∧ offset.toNat % 4 = 0

/-- The host actions that are host faults in a state (rules R80, R84, R449, R478). Reset and the polling of STATUS never
are. -/
def HostAction.forbidden (s : State) : HostAction → Prop
  | .memWrite addr _ => s.busy = true ∨ s.memBytes ≤ addr.toNat
  | .memRead addr => s.busy = true ∨ s.memBytes ≤ addr.toNat
  | .regWrite width offset _ => ¬ alignedWord width offset ∨ s.busy = true
  | .regRead width offset => ¬ alignedWord width offset ∨ (s.busy = true ∧ offset ≠ 0x04)
  | .wait => False
  | .reset => False

/-- A host action that only polls STATUS (rule R479). -/
abbrev HostAction.polls (a : HostAction) : Prop := a = .wait ∨ a = .regRead .word32 0x04

/-! ### Streams of pieces -/

/-- Successive calls of CtrApply with no IV: the state after them, and their outputs one after the other (rule R229). -/
def ctrCalls (lim : Nat) : CtrState → List Bytes → CtrState × Bytes
  | c, [] => (c, [])
  | c, d :: ds =>
    let r := ctrApply c d none lim
    let q := ctrCalls lim r.1 ds
    (q.1, r.2 ++ q.2)

/-- A streaming EAX decryption in pieces, header pieces (`inl`) and ciphertext pieces (`inr`) in any order (rule R354): the
context after it, and the plaintext. -/
def EaxCtx.decryptPieces : EaxCtx → List (Bytes ⊕ Bytes) → EaxCtx × Bytes
  | c, [] => (c, [])
  | c, .inl h :: ps => EaxCtx.decryptPieces (c.header h) ps
  | c, .inr x :: ps =>
    let d := c.decrypt x
    let r := EaxCtx.decryptPieces d.1 ps
    (r.1, d.2 ++ r.2)

/-- All header bytes of the pieces, in order. -/
def headerOf (ps : List (Bytes ⊕ Bytes)) : Bytes := ps.flatMap fun p => p.elim id fun _ => []

/-- All ciphertext bytes of the pieces, in order. -/
def cipherOf (ps : List (Bytes ⊕ Bytes)) : Bytes := ps.flatMap fun p => p.elim (fun _ => []) id

/-- The CBC-MAC accumulator over blocks, X_0 = 0^16 and X_i = E(X_(i-1) XOR m_i) (rule R299). -/
def cbcMacChain (ks : KeySchedule) (bs : List Block) : Block := bs.foldl (fun x z => aesE ks (x ^^^ z)) 0

/-! ### The equations of XCBC, CCM and Key Wrap -/

/-- `XcbcMac16(K, m)` as rules R325 and R326 write it, for a 16-byte key K. -/
def xcbcValue (key m : Bytes) : Block :=
  let ksK := expandKey key
  let k1 := aesE ksK (blockOfRepeat 1)
  let k2 := aesE ksK (blockOfRepeat 2)
  let k3 := aesE ksK (blockOfRepeat 3)
  omacFinal (omacUpdate ⟨expandKey (blockBytes k1), k2, k3, 0, 0, 0⟩ m)

/-- `Pad16(b)`: b with the fewest zero bytes appended that make its length a multiple of 16 (rule R258). -/
def pad16 (b : Bytes) : Bytes := b ++ zeros ((16 - b.length % 16) % 16)

/-- Ciphertext c and tag u are those of rules R256 to R261 for plaintext p. A_i is `(L - 1) || nonce || BE_L(i)` and
`Inc(A_i, 16)` is A_(i+1); c is p XOR `E(A_1) || E(A_2) || …`; u is the first M bytes of T XOR E(A_0), with T the CBC-MAC
over B0, the encoded AAD padded by itself and the plaintext padded by itself. The chain starts at 0^16, so its first value
is E(B0). -/
def ccmEquations (ks : KeySchedule) (m l : Nat) (nonce p aad c u : Bytes) : Prop :=
  let adata := if 0 < aad.length then 1 else 0
  let b0 := blockOfBytes ([BitVec.ofNat 8 (64 * adata + 8 * ((m - 2) / 2) + (l - 1))] ++ nonce ++ beBytes l p.length)
  let aadSection :=
    if aad.length = 0 then []
    else if aad.length < 0xFF00 then beBytes 2 aad.length ++ aad
    else [0xFF, 0xFE] ++ beBytes 4 aad.length ++ aad
  let a := fun i => blockOfBytes ([BitVec.ofNat 8 (l - 1)] ++ nonce ++ beBytes l i)
  let t := cbcMacChain ks (b0 :: wholeBlocks (pad16 aadSection ++ pad16 p))
  (∀ i, i + 1 < 2 ^ (8 * l) → ctrInc (a i) 16 = a (i + 1)) ∧
    c.length = p.length ∧
    (∀ i < p.length, c.getD i 0 = p.getD i 0 ^^^ blockByte (aesE ks (a (i / 16 + 1))) (i % 16)) ∧
    u = (blockBytes (t ^^^ aesE ks (a 0))).take m

/-- ct is what the 6·n wrap steps of rule R392 make of the n semiblocks of x, when step t XORs `counter t` into A. `a t` is A
after t steps and `r j i` is R[i + 1] after j rounds; step n·j + i + 1 handles R[i + 1] in round j. -/
def kwSteps (counter : Nat → Semiblock) (ks : KeySchedule) (x ct : Bytes) : Prop :=
  let n := x.length / 8
  ∃ (a : Nat → Semiblock) (r : Nat → Nat → Semiblock),
    a 0 = 0xA6A6A6A6A6A6A6A6 ∧
    (∀ i < n, r 0 i = semiblockOfBytes (x.drop (8 * i))) ∧
    (∀ j < 6, ∀ i < n,
      let b := aesE ks (a (n * j + i) ++ r j i)
      a (n * j + i + 1) = b.extractLsb' 64 64 ^^^ counter (n * j + i + 1) ∧ r (j + 1) i = b.extractLsb' 0 64) ∧
    ct = semiblockBytes (a (6 * n)) ++ (List.range n).flatMap fun i => semiblockBytes (r 6 i)

end Sys2Proof.Machine
end

