-- ==== Sys2Proof/Certificates/Slice0/Obligations.lean ====
section
/-! DEFINITION. The statements about the model, for the provers. Each docstring names the rules it formalises, or says that
it rests on a choice of the model. A command's next state is written with `State.ended`, which changes STATUS, RESULT and
scratch only, and a record update of the slots and the memory: everything else is unchanged. -/

open Sys2Proof Sys2Proof.Machine

/-! ### Encoding -/

/-- Decoding the word of a well-formed command gives the command back (rules R101, R103, R109). -/
def Obligations.DecodeOfEncodeIsTheCommand : Prop :=
  ∀ i : Instr, i.wf = true → decode (encode i) = .ok i

/-- A word that decodes to a command is that command's word, and the command is well-formed: no bit of a command word is
dropped, and no two words mean one command (rules R101, R106). -/
def Obligations.EncodeOfDecodeIsTheWord : Prop :=
  ∀ (w : Word) (i : Instr), decode w = .ok i → i.wf = true ∧ encode i = w

/-- Rule R108: every word either decodes to exactly one command, with the word's field values, and then exactly that
command's row of the opcode table has `(word AND mask) = match`; or it decodes to no command, and no row has. -/
def Obligations.DecodeIsTheOpcodeTable : Prop :=
  ∀ w : Word,
    match decode w with
    | .ok i =>
      (opcodeTable.filter fun r => r.hits w).map (fun r => r.mnemonic) = [i.mnemonic] ∧ CmdFields.ofWord w = i.fields
    | .error _ => (opcodeTable.filter fun r => r.hits w) = []

/-- Words written out from the spec's encodings decode to the commands they stand for (rules R101 to R103, R109, R111, and
the words of 95_test_vectors.md). -/
def Obligations.SampleWordsDecodeToTheirCommands : Prop :=
  decode 0x03000001 = .ok (.ctxCreate .dec 1) ∧ decode 0x00000302 = .ok (.ctxDestroy 3) ∧
  decode 0x01000203 = .ok (.aesBlock 2 .dec) ∧ decode 0x01000104 = .ok (.blockMode 1 .dec) ∧ decode 0x00100211 = .ok (.ctrApply 2 16) ∧
  decode 0x02080020 = .ok (.ccmEncrypt 8 2) ∧ decode 0x00000132 = .ok (.cmacFinal 1) ∧
  decode 0x01000038 = .ok (.xcbcCreate .prf128) ∧ decode 0x00100145 = .ok (.eaxGentag 1 16) ∧
  decode 0x00000051 = .ok .kwUnwrap ∧ decode 0x00000060 = .ok .ctCompare

/-- Rules R105, R106, R437 step 1: the reserved OP values are exactly the listed ranges, and a pending word with a reserved
OP, or with a defined OP and a field that must be zero and is not, ends with ILLEGAL_CMD and changes nothing else but the
list of turns, whose first turn the step uses up: the turns are the model's (notes/assumptions/6.md). -/
def Obligations.IllegalWordsEndWithIllegalCmd : Prop :=
  (∀ w : Word, (∃ op, decode w = .error (.reservedOpcode op)) ↔ reservedOp (w.toNat % 256)) ∧
  (∀ (s : State) (e : DecodeError), s.nextMover = .engine → decode s.cmd = .error e →
    step s = .next (s.useTurn.ended .illegalCmd 0))

/-! ### The step -/

/-- When the engine moves and the word in CMD decodes to a command, the step is that command's meaning, in the state whose
first turn is used up; and the very next step after a fetch word runs that word's command (rules R31, R35, R436; the turns
are the model's, notes/assumptions/6.md). -/
def Obligations.StepRunsTheDecodedCommand : Prop :=
  (∀ (s : State) (i : Instr), s.nextMover = .engine → decode s.cmd = .ok i → step s = exec i s.useTurn) ∧
  (∀ (s : State) (i : Instr), i.wf = true →
    step (s.withFetchWord 32 (encode i).toNat) = exec i (s.withFetchWord 32 (encode i).toNat))

/-- Rules R449, R478: the machine stops with a fault exactly when the host moves and its action is one the core does not
allow. -/
def Obligations.HostFaultsAreExactlyTheForbiddenActions : Prop :=
  ∀ s : State, (∃ f, step s = .fault f) ↔
    (s.nextMover = .host ∧ ∃ a rest, s.host = a :: rest ∧ a.forbidden s)

/-- Rule R32, with the STATUS and RESULT layouts of rules R36 and R37: what a host read of each register returns while the
core is idle, a reserved offset returning 0; and while BUSY = 1 a read of STATUS returns the code of the previous command
and BUSY in bit 8. The turn that a step uses up while BUSY = 1 is the model's (notes/assumptions/6.md). -/
def Obligations.RegisterReadsReturnTheRegisters : Prop :=
  (∀ (s : State) (offset : Byte) (rest : List HostAction), s.busy = false → offset.toNat % 4 = 0 →
    s.host = .regRead .word32 offset :: rest →
    ∃ v : Word, step s = .next { s with host := rest, returned := some v } ∧
      (offset = 0x00 → v = s.cmd) ∧
      (offset = 0x04 → v.toNat = s.code.toByte.toNat) ∧
      (offset = 0x08 → v.toNat = s.result.toNat) ∧
      (offset = 0x10 → v = s.args.a0) ∧ (offset = 0x14 → v = s.args.a1) ∧
      (offset = 0x18 → v = s.args.a2) ∧ (offset = 0x1C → v = s.args.a3) ∧
      (offset = 0x20 → v = s.args.a4) ∧ (offset = 0x24 → v = s.args.a5) ∧
      (offset = 0x28 → v = s.args.a6) ∧ (offset = 0x2C → v = s.args.a7) ∧
      ((offset = 0x0C ∨ 0x30 ≤ offset.toNat) → v = 0)) ∧
  (∀ (s : State) (rest : List HostAction), s.busy = true → s.nextMover = .host →
    s.host = .regRead .word32 0x04 :: rest →
    ∃ v : Word, step s = .next { s.useTurn with host := rest, returned := some v } ∧
      v.toNat = s.code.toByte.toNat + 256)

/-- Rules R34, R35, R81: what a host write of each register does while the core is idle. A write of CMD sets CMD and BUSY,
a write of An sets An, and a write of STATUS, of RESULT or of a reserved offset is ignored. -/
def Obligations.RegisterWritesSetTheRegisters : Prop :=
  ∀ (s : State) (offset : Byte) (v : Word) (rest : List HostAction), s.busy = false → offset.toNat % 4 = 0 →
    s.host = .regWrite .word32 offset v :: rest →
    (offset = 0x00 → step s = .next { s with host := rest, cmd := v, busy := true }) ∧
    (offset = 0x10 → step s = .next { s with host := rest, args := { s.args with a0 := v } }) ∧
    (offset = 0x14 → step s = .next { s with host := rest, args := { s.args with a1 := v } }) ∧
    (offset = 0x18 → step s = .next { s with host := rest, args := { s.args with a2 := v } }) ∧
    (offset = 0x1C → step s = .next { s with host := rest, args := { s.args with a3 := v } }) ∧
    (offset = 0x20 → step s = .next { s with host := rest, args := { s.args with a4 := v } }) ∧
    (offset = 0x24 → step s = .next { s with host := rest, args := { s.args with a5 := v } }) ∧
    (offset = 0x28 → step s = .next { s with host := rest, args := { s.args with a6 := v } }) ∧
    (offset = 0x2C → step s = .next { s with host := rest, args := { s.args with a7 := v } }) ∧
    ((offset = 0x04 ∨ offset = 0x08 ∨ offset = 0x0C ∨ 0x30 ≤ offset.toNat) →
      step s = .next { s with host := rest })

/-- Rules R84, R85: a host write of a byte makes every later read of that address return it, until the next write; no other
address and no other state changes. A host read returns the byte. -/
def Obligations.HostMemoryAccessesReadAndWriteOneByte : Prop :=
  (∀ (s : State) (addr : Word) (v : Byte) (rest : List HostAction), s.busy = false → addr.toNat < s.memBytes →
    s.host = .memWrite addr v :: rest →
    ∃ m, step s = .next { s with host := rest, mem := m } ∧
      ∀ a, State.readByte { s with host := rest, mem := m } a = if a = addr.toNat then v else s.readByte a) ∧
  (∀ (s : State) (addr : Word) (rest : List HostAction), s.busy = false → addr.toNat < s.memBytes →
    s.host = .memRead addr :: rest →
    ∃ v : Word, step s = .next { s with host := rest, returned := some v } ∧ v.toNat = (s.readByte addr.toNat).toNat)

/-- Rules R50, R471, R472: after reset CMD, A0 to A7, STATUS and RESULT are 0, every register offset reads 0, every slot is
EMPTY and the scratch is zero, whatever NSLOT and MEM_BYTES are; each byte of data memory reads the free value of rule R83.
That the draw is the one of epoch 0 is the model's choice (notes/assumptions/2.md). -/
def Obligations.ResetStateIsZeroAndEmpty : Prop :=
  ∀ nslot memBytes : Nat,
    let s := State.resetWith nslot memBytes
    s.cmd = 0 ∧ s.statusWord = 0 ∧ s.resultWord = 0 ∧ s.code = .ok ∧ s.busy = false ∧ s.result = 0 ∧
      s.args = ArgRegs.zero ∧ (∀ offset, s.readReg offset = 0) ∧ s.nslot = nslot ∧ (∀ h, s.slot h = .empty) ∧
      s.scratch = [] ∧ (∀ a, s.readByte a = Config.ramDraw 0 a)

/-- Rules R470, R472, R473: the reset signal, at any time the host can move, also while BUSY = 1, puts the registers and
the slots at their reset values in one step and drops a pending command. Two clauses are the model's: the data memory then
reads a new draw, its reading of rules R50 and R83 (notes/assumptions/2.md); and the host's coming actions stay, because they
are no state of the core (notes/assumptions/15.md). -/
def Obligations.ResetSignalResetsFromEveryState : Prop :=
  ∀ (s : State) (rest : List HostAction), s.nextMover = .host → s.host = .reset :: rest →
    ∃ t, step s = .next t ∧ t.cmd = 0 ∧ t.statusWord = 0 ∧ t.busy = false ∧ t.resultWord = 0 ∧
      t.args = ArgRegs.zero ∧ t.nslot = s.nslot ∧ (∀ h, t.slot h = .empty) ∧ t.scratch = [] ∧
      t.memBytes = s.memBytes ∧ (∀ a, t.readByte a = Config.ramDraw (s.epoch + 1) a) ∧ t.host = rest

/-- Rules R36, R478: while BUSY = 1, a host step that is not the reset leaves CMD, CODE, BUSY, RESULT, the arguments, the
slots and the data memory as they are: every address reads as before. -/
def Obligations.HostStepsWhileBusyChangeNothing : Prop :=
  ∀ s t : State, s.busy = true → s.nextMover = .host → s.host.head? ≠ some .reset → step s = .next t →
    t.cmd = s.cmd ∧ t.code = s.code ∧ t.busy = true ∧ t.result = s.result ∧ t.args = s.args ∧
      t.slots = s.slots ∧ t.scratch = s.scratch ∧ t.memBytes = s.memBytes ∧ t.mem = s.mem ∧ t.epoch = s.epoch ∧
      ∀ a, t.readByte a = s.readByte a

/-- Rule R479: while the host only polls STATUS, the engine takes the pending command after finitely many steps, and BUSY
is then 0. The bound is the model's number of turns (notes/assumptions/6.md). -/
def Obligations.PollingHostSeesTheCommandComplete : Prop :=
  ∀ s : State, s.busy = true → (∀ a ∈ s.host, a.polls) →
    ∃ (k : Nat) (t : State), k ≤ s.turns.length + 1 ∧ Host.Core.run Sys2Proof.core k s = .next t ∧ t.busy = false

/-! ### What every command does and does not change -/

/-- Rules R31, R34, R436: every command, in every state, ends in a next state with BUSY = 0 and the scratch zero, and
changes neither CMD nor A0 to A7 nor the number of slots nor anything outside the core. -/
def Obligations.EveryCommandEndsAndKeepsTheRegisters : Prop :=
  ∀ (i : Instr) (s : State), ∃ t, exec i s = .next t ∧ t.busy = false ∧ t.scratch = [] ∧ t.cmd = s.cmd ∧
    t.args = s.args ∧ t.nslot = s.nslot ∧ t.memBytes = s.memBytes ∧ t.epoch = s.epoch ∧ t.host = s.host ∧
    t.turns = s.turns ∧ t.returned = s.returned

/-- Rules R433, R438, R443: a command that ends with a code other than OK writes RESULT 0 and changes no memory and no
slot. -/
def Obligations.FailedCommandChangesNothing : Prop :=
  ∀ (i : Instr) (s t : State), exec i s = .next t → t.code ≠ .ok → t = s.ended t.code 0

/-- Rule R431: a command reports only the codes the table lists for it. -/
def Obligations.CommandsReportOnlyTheirCodes : Prop :=
  ∀ (i : Instr) (s t : State), exec i s = .next t → i.mayReport t.code = true

/-- Rules R37, R442: a create command that ends with OK takes the lowest EMPTY slot, returns its number in RESULT and fills
it; after every other end of a command RESULT is 0; with no EMPTY slot a create command whose other checks pass ends with
ALLOC_FAIL. -/
def Obligations.ResultIsTheLowestEmptySlotOfACreate : Prop :=
  (∀ (i : Instr) (s t : State), i.isCreate = true → s.nslot ≤ 255 → exec i s = .next t → t.code = .ok →
    ∃ h, s.lowestFree h ∧ t.result.toNat = h ∧ t.slot h ≠ .empty) ∧
  (∀ (i : Instr) (s t : State), exec i s = .next t → (i.isCreate = false ∨ t.code ≠ .ok) → t.result = 0) ∧
  (∀ s : State, (∀ h, 1 ≤ h → h ≤ s.nslot → s.slot h ≠ .empty) → s.accepts ⟨s.a0, s.a1⟩ →
    (∀ dir mode, mode ≤ 1 → aesKeyLen s.a1 → exec (.ctxCreate dir mode) s = .next (s.ended .allocFail 0)) ∧
    (s.a2 ≠ 0 → aesKeyLen s.a1 → s.accepts ⟨s.a2, 16⟩ → exec .ctrCreate s = .next (s.ended .allocFail 0)) ∧
    (s.a2 = 0 → 16 ≤ s.a1 → aesKeyLen (s.a1 - 16) → exec .ctrCreate s = .next (s.ended .allocFail 0)) ∧
    (aesKeyLen s.a1 → exec .cmacCreate s = .next (s.ended .allocFail 0)) ∧
    (s.a1 = 16 → exec (.xcbcCreate .mac96) s = .next (s.ended .allocFail 0)) ∧
    exec (.xcbcCreate .prf128) s = .next (s.ended .allocFail 0) ∧
    (aesKeyLen s.a1 → s.accepts ⟨s.a2, s.a3⟩ → exec .eaxCreate s = .next (s.ended .allocFail 0)))

/-- Rule R445: the code and the effects of a command are a function of the command, A0 to A7, the slot file and the data
memory: two states of one core (equal MEM_BYTES) that agree on these end alike. Memories are compared by what each address of
the data memory, 0 to MEM_BYTES - 1 (rule R70), reads, so what lies outside it, and the lists and the draws behind what is
read, play no part. The first clause is about commands, the second about command
words, those that are no command among them. -/
def Obligations.OutcomeDependsOnlyOnTheInputs : Prop :=
  ∀ s₁ s₂ t₁ : State, s₁.args = s₂.args → s₁.slots = s₂.slots → s₁.memBytes = s₂.memBytes →
    (∀ a < s₁.memBytes, s₁.readByte a = s₂.readByte a) →
    (∀ i : Instr, exec i s₁ = .next t₁ →
      ∃ t₂, exec i s₂ = .next t₂ ∧ t₂.code = t₁.code ∧ t₂.result = t₁.result ∧ t₂.slots = t₁.slots ∧
        ∀ a < s₁.memBytes, t₂.readByte a = t₁.readByte a) ∧
    (s₁.cmd = s₂.cmd → engineStep s₁ = .next t₁ →
      ∃ t₂, engineStep s₂ = .next t₂ ∧ t₂.code = t₁.code ∧ t₂.result = t₁.result ∧ t₂.slots = t₁.slots ∧
        ∀ a < s₁.memBytes, t₂.readByte a = t₁.readByte a)

/-- Rules R102, R103: an argument register that a command's row marks "-" is not read. -/
def Obligations.UnusedArgumentsAreNotRead : Prop :=
  ∀ (i : Instr) (s t : State) (args : ArgRegs), ArgRegs.agree i.argCount s.args args → exec i s = .next t →
    exec i { s with args := args } = .next { t with args := args }

/-- The frame of the memory: every byte outside the buffers the command stores to is unchanged. The buffers are the operands
of each command's "Writes" line; a command that stores nothing (the creates, CTX_DESTROY, the MAC updates, EAX_HEADER,
CT_COMPARE) leaves every byte as it was. -/
def Obligations.StoresStayInTheNamedBuffers : Prop :=
  ∀ (i : Instr) (s t : State), exec i s = .next t →
    (∀ a, (∀ b ∈ i.stores s, ¬ b.holds a) → t.readByte a = s.readByte a) ∧
    ((i.isCreate = true ∨ i = .ctCompare ∨
      ∃ h, i = .ctxDestroy h ∨ i = .cmacUpdate h ∨ i = .xcbcUpdate h ∨ i = .eaxHeader h) →
      ∀ a, t.readByte a = s.readByte a)

/-- The frame of the slots: a command changes no slot but the one H names, and, for a create command, one EMPTY slot, the one
whose number it returns in RESULT (rule R442; NSLOT at most 255, rule R8); a create that returns 0 changes none. The
stateless commands and the block commands change no slot (rules R170, R204, R250, R400, R403, R422). -/
def Obligations.OtherSlotsAreUnchanged : Prop :=
  (∀ (i : Instr) (s t : State) (k : Nat), exec i s = .next t → i.handle ≠ some k →
    (i.isCreate = false ∨ s.slot k ≠ .empty ∨ (s.nslot ≤ 255 ∧ k ≠ t.result.toNat)) → t.slot k = s.slot k) ∧
  (∀ (i : Instr) (s t : State), (i = .kwWrap ∨ i = .kwUnwrap ∨ i = .ctCompare ∨ (∃ m l, i = .ccmEncrypt m l) ∨
      (∃ m l, i = .ccmDecrypt m l) ∨ (∃ h d, i = .aesBlock h d) ∨ ∃ h d, i = .blockMode h d) →
    exec i s = .next t → t.slots = s.slots)

/-- Rule R439, in its order, for every command that uses H but CTX_DESTROY: the null handle, a handle above NSLOT, an EMPTY
slot, a slot of the wrong kind, and a FINAL slot where OPEN is needed. -/
def Obligations.HandleChecksFollowTheirOrder : Prop :=
  ∀ (i : Instr) (s : State) (h : Nat), i.handle = some h → i.isDestroy = false →
    (h = 0 → exec i s = .next (s.ended .nullRef 0)) ∧
    (h > s.nslot → exec i s = .next (s.ended .invalidArg 0)) ∧
    (1 ≤ h → h ≤ s.nslot → s.slot h = .empty → exec i s = .next (s.ended .nullRef 0)) ∧
    (s.slot h ≠ .empty → i.kindOk (s.slot h) = false → exec i s = .next (s.ended .badState 0)) ∧
    (i.kindOk (s.slot h) = true → i.needsOpen = true → (s.slot h).phase = .finalized →
      exec i s = .next (s.ended .badState 0))

/-- Rules R73, R74, R437 steps 6 and 7, R441: every NULL_REF check of the list comes before every ADDR_ERROR check, and a
buffer of length 0 is not checked. The first clause is about the check of any list; the second is about every command, whose
list is `Instr.buffers`: once its earlier checks pass, a buffer at the null address ends it with NULL_REF, and with no such
buffer one that runs past MEM_BYTES ends it with ADDR_ERROR, and nothing else changes. -/
def Obligations.NullChecksComeBeforeRangeChecks : Prop :=
  (∀ (s : State) (bs : List Buffer),
    ((∃ b ∈ bs, 0 < b.len ∧ b.addr = 0) → s.checkBuffers bs = .error .nullRef) ∧
    ((∀ b ∈ bs, 0 < b.len → b.addr ≠ 0) → (∃ b ∈ bs, 0 < b.len ∧ b.addr + b.len > s.memBytes) →
      s.checkBuffers bs = .error .addrError) ∧
    ((∀ b ∈ bs, s.accepts b) → s.checkBuffers bs = .ok ())) ∧
  (∀ (i : Instr) (s : State), i.earlierChecksPass s →
    ((∃ b ∈ i.buffers s, 0 < b.len ∧ b.addr = 0) → exec i s = .next (s.ended .nullRef 0)) ∧
    ((∀ b ∈ i.buffers s, 0 < b.len → b.addr ≠ 0) →
      (∃ b ∈ i.buffers s, 0 < b.len ∧ b.addr + b.len > s.memBytes) → exec i s = .next (s.ended .addrError 0)))

/-- The INVALID_ARG checks of rule R437 step 3: they come before every later check, whatever the other operands are. The
direction must be the slot's (rule R163), the mode ECB or CBC (R161), the incrementLimit at most 16 (R223), M and L legal
and the length representable (R251, R253), the tag length at most 16 (R355). -/
def Obligations.ParameterErrorsAreInvalidArg : Prop :=
  (∀ (s : State) dir mode, 1 < mode → exec (.ctxCreate dir mode) s = .next (s.ended .invalidArg 0)) ∧
  (∀ (s : State) h dir c, s.slot h = .cipher c → dir ≠ c.dir →
    exec (.aesBlock h dir) s = .next (s.ended .invalidArg 0) ∧
    exec (.blockMode h dir) s = .next (s.ended .invalidArg 0)) ∧
  (∀ (s : State) h lim c, s.slot h = .ctr c → 16 < lim → exec (.ctrApply h lim) s = .next (s.ended .invalidArg 0)) ∧
  (∀ (s : State) m l, (m % 2 ≠ 0 ∨ m < 4 ∨ 16 < m ∨ l < 2 ∨ 8 < l ∨ 2 ^ (8 * l) ≤ s.a4) →
    exec (.ccmEncrypt m l) s = .next (s.ended .invalidArg 0) ∧
    exec (.ccmDecrypt m l) s = .next (s.ended .invalidArg 0)) ∧
  (∀ (s : State) h t c, s.slot h = .eax c → c.phase = .opened → 16 < t →
    exec (.eaxFinal h t) s = .next (s.ended .invalidArg 0) ∧
    exec (.eaxGentag h t) s = .next (s.ended .invalidArg 0))

/-- The BAD_LENGTH checks of rule R437 step 4 (rules R200, R399) and the INVALID_KEY_LEN checks of step 5 (rules R148, R322)
where the earlier checks pass: they come before the buffers are looked at. -/
def Obligations.LengthErrorsComeBeforeTheBuffers : Prop :=
  (∀ (s : State) h c, s.slot h = .cipher c → s.a1 % 16 ≠ 0 →
    exec (.blockMode h c.dir) s = .next (s.ended .badLength 0)) ∧
  (∀ s : State, (s.a3 % 8 ≠ 0 ∨ s.a3 < 8) → exec .kwWrap s = .next (s.ended .badLength 0)) ∧
  (∀ s : State, (s.a3 % 8 ≠ 0 ∨ s.a3 < 16) → exec .kwUnwrap s = .next (s.ended .badLength 0)) ∧
  (∀ s : State, ¬ aesKeyLen s.a1 →
    (∀ dir mode, mode ≤ 1 → exec (.ctxCreate dir mode) s = .next (s.ended .invalidKeyLen 0)) ∧
    exec .cmacCreate s = .next (s.ended .invalidKeyLen 0) ∧ exec .eaxCreate s = .next (s.ended .invalidKeyLen 0) ∧
    (s.a2 ≠ 0 → exec .ctrCreate s = .next (s.ended .invalidKeyLen 0)) ∧
    (∀ m l, ccmParamsOk m l = true → s.a4 < 2 ^ (8 * l) →
      exec (.ccmEncrypt m l) s = .next (s.ended .invalidKeyLen 0) ∧
      exec (.ccmDecrypt m l) s = .next (s.ended .invalidKeyLen 0)) ∧
    (s.a3 % 8 = 0 → 8 ≤ s.a3 → exec .kwWrap s = .next (s.ended .invalidKeyLen 0)) ∧
    (s.a3 % 8 = 0 → 16 ≤ s.a3 → exec .kwUnwrap s = .next (s.ended .invalidKeyLen 0))) ∧
  (∀ s : State, s.a2 = 0 → (s.a1 < 16 ∨ ¬ aesKeyLen (s.a1 - 16)) →
    exec .ctrCreate s = .next (s.ended .invalidKeyLen 0)) ∧
  (∀ s : State, s.a1 ≠ 16 → exec (.xcbcCreate .mac96) s = .next (s.ended .invalidKeyLen 0))

/-! ### The data memory -/

/-- Rules R74, R76, R440: after a write of a byte string a read gives its bytes inside the buffer and the old bytes outside
it, so of two queued writes the later one wins where they overlap. -/
def Obligations.CommittedWritesReadBackInIssueOrder : Prop :=
  ∀ (s : State) (a₁ a₂ : Nat) (v₁ v₂ : Bytes) (a : Nat),
    State.readByte { s with mem := Memory.commit s.mem [(a₁, v₁), (a₂, v₂)] } a =
      if a₂ ≤ a ∧ a < a₂ + v₂.length then v₂.getD (a - a₂) 0
      else if a₁ ≤ a ∧ a < a₁ + v₁.length then v₁.getD (a - a₁) 0
      else s.readByte a

/-! ### Contexts and the block commands -/

/-- Rule R160, where it ends with OK: CTX_CREATE fills the lowest EMPTY slot with the direction, the mode, the key length
and the expanded key, and returns its number. -/
def Obligations.CtxCreateFillsACipherSlot : Prop :=
  ∀ (s : State) (dir : Dir) (mode h : Nat), mode ≤ 1 → aesKeyLen s.a1 → s.accepts ⟨s.a0, s.a1⟩ → s.lowestFree h →
    exec (.ctxCreate dir mode) s =
      .next { s.ended .ok (BitVec.ofNat 8 h) with
        slots := s.slots.set (h - 1)
          (.cipher ⟨dir, if mode = 0 then .ecb else .cbc, s.a1, expandKey (s.memRead s.a0 s.a1)⟩) }

/-- Rules R165, R166: CTX_DESTROY is an OK no-op on the null handle, INVALID_ARG above NSLOT, and else makes the slot EMPTY,
of whatever kind and phase; what the slot held before has no influence on the state after it. -/
def Obligations.CtxDestroyEmptiesTheSlot : Prop :=
  (∀ s : State, exec (.ctxDestroy 0) s = .next (s.ended .ok 0)) ∧
  (∀ (s : State) (h : Nat), h > s.nslot → exec (.ctxDestroy h) s = .next (s.ended .invalidArg 0)) ∧
  (∀ (s : State) (h : Nat), 1 ≤ h → h ≤ s.nslot →
    exec (.ctxDestroy h) s = .next { s.ended .ok 0 with slots := s.slots.set (h - 1) .empty }) ∧
  (∀ (s : State) (h : Nat) (v : Slot), 1 ≤ h → h ≤ s.nslot →
    exec (.ctxDestroy h) { s with slots := s.slots.set (h - 1) v } = exec (.ctxDestroy h) s)

/-- Rule R170, where it ends with OK: AES_BLOCK writes E or D of the source block, by the slot's direction, to the
destination, and changes no slot. -/
def Obligations.AesBlockWritesOneBlock : Prop :=
  ∀ (s : State) (h : Nat) (c : CipherCtx), s.slot h = .cipher c → s.accepts ⟨s.a0, 16⟩ → s.accepts ⟨s.a1, 16⟩ →
    exec (.aesBlock h c.dir) s =
      .next { s.ended .ok 0 with
        mem := Memory.writeBytes s.mem s.a1 (blockBytes
          (match c.dir with
          | .enc => aesE c.ks (blockOfBytes (s.memRead s.a0 16))
          | .dec => aesD c.ks (blockOfBytes (s.memRead s.a0 16)))) }

/-- Rules R202, R204, where BLOCK_MODE on an ECB slot ends with OK: each block by itself, in place; the IV operand plays no
part. -/
def Obligations.EcbTransformsEachBlockInPlace : Prop :=
  ∀ (s : State) (h : Nat) (c : CipherCtx), s.slot h = .cipher c → c.mode = .ecb → s.a1 % 16 = 0 →
    s.accepts ⟨s.a0, s.a1⟩ →
    exec (.blockMode h c.dir) s =
      .next { s.ended .ok 0 with
        mem := Memory.writeBytes s.mem s.a0 (bytesOfBlocks ((wholeBlocks (s.memRead s.a0 s.a1)).map
          (match c.dir with | .enc => aesE c.ks | .dec => aesD c.ks))) }

/-- Rules R203, R204, where BLOCK_MODE on a CBC slot ends with OK: the chained data in place and then, when there is a
block, the last ciphertext block in the IV buffer. -/
def Obligations.CbcChainsAndWritesTheIvBack : Prop :=
  ∀ (s : State) (h : Nat) (c : CipherCtx), s.slot h = .cipher c → c.mode = .cbc → s.a1 % 16 = 0 →
    s.accepts ⟨s.a0, s.a1⟩ → s.accepts ⟨s.a2, 16⟩ →
    let xs := wholeBlocks (s.memRead s.a0 s.a1)
    let iv := blockOfBytes (s.memRead s.a2 16)
    let r := match c.dir with
      | .enc => cbcEncrypt c.ks iv xs
      | .dec => cbcDecrypt c.ks iv xs
    exec (.blockMode h c.dir) s =
      .next { s.ended .ok 0 with
        mem := if s.a1 = 0 then s.mem
          else Memory.writeBytes (Memory.writeBytes s.mem s.a0 (bytesOfBlocks r.1)) s.a2 (blockBytes r.2) }

/-- Rule R203: the CBC equations. With C_0 the IV, encryption gives C_i = E(P_i XOR C_(i-1)) and decryption
P_i = D(C_i) XOR C_(i-1); the chaining block after k blocks is C_k. -/
def Obligations.CbcEquationsHold : Prop :=
  ∀ (ks : KeySchedule) (iv : Block) (xs : List Block),
    (cbcEncrypt ks iv xs).1.length = xs.length ∧ (cbcDecrypt ks iv xs).1.length = xs.length ∧
    (∀ i < xs.length, (cbcEncrypt ks iv xs).1.getD i 0 =
      aesE ks (xs.getD i 0 ^^^ (iv :: (cbcEncrypt ks iv xs).1).getD i 0)) ∧
    (∀ i < xs.length, (cbcDecrypt ks iv xs).1.getD i 0 = aesD ks (xs.getD i 0) ^^^ (iv :: xs).getD i 0) ∧
    (cbcEncrypt ks iv xs).2 = (iv :: (cbcEncrypt ks iv xs).1).getLastD iv ∧
    (cbcDecrypt ks iv xs).2 = (iv :: xs).getLastD iv

/-- Rules R205, R206 on the block lists: ECB and CBC decryption undo encryption, and splitting a CBC stream over one IV
buffer changes nothing. -/
def Obligations.BlockModesRoundTripAndSplit : Prop :=
  ∀ (ks : KeySchedule) (iv : Block) (xs ys : List Block),
    (xs.map (aesE ks)).map (aesD ks) = xs ∧
    (cbcDecrypt ks iv (cbcEncrypt ks iv xs).1).1 = xs ∧
    (cbcDecrypt ks iv (cbcEncrypt ks iv xs).1).2 = (cbcEncrypt ks iv xs).2 ∧
    (cbcEncrypt ks iv (xs ++ ys)).1 =
      (cbcEncrypt ks iv xs).1 ++ (cbcEncrypt ks (cbcEncrypt ks iv xs).2 ys).1

/-! ### CTR -/

/-- Rules R230 to R232, where CTR_CREATE ends with OK: with A2 = 0 the last 16 bytes of the key material are the counter,
with A2 != 0 the counter is its own buffer; no keystream is cached. -/
def Obligations.CtrCreateFillsACtrSlot : Prop :=
  (∀ (s : State) (h : Nat), s.a2 ≠ 0 → aesKeyLen s.a1 → s.accepts ⟨s.a0, s.a1⟩ → s.accepts ⟨s.a2, 16⟩ →
    s.lowestFree h →
    exec .ctrCreate s =
      .next { s.ended .ok (BitVec.ofNat 8 h) with
        slots := s.slots.set (h - 1)
          (.ctr ⟨expandKey (s.memRead s.a0 s.a1), blockOfBytes (s.memRead s.a2 16), 0, 0⟩) }) ∧
  (∀ (s : State) (h kl : Nat), s.a2 = 0 → aesKeyLen kl → s.a1 = kl + 16 → s.accepts ⟨s.a0, s.a1⟩ → s.lowestFree h →
    exec .ctrCreate s =
      .next { s.ended .ok (BitVec.ofNat 8 h) with
        slots := s.slots.set (h - 1)
          (.ctr ⟨expandKey (s.memRead s.a0 kl), blockOfBytes (s.memRead (s.a0 + kl) 16), 0, 0⟩) })

/-- Rule R234, where CTR_APPLY ends with OK: the data is transformed in place by CtrApply, the slot takes the state after
it, and the IV, given when A2 != 0, is read and not written. -/
def Obligations.CtrApplyTransformsInPlace : Prop :=
  ∀ (s : State) (h lim : Nat) (c : CtrState), s.slot h = .ctr c → lim ≤ 16 → s.accepts ⟨s.a0, s.a1⟩ →
    (s.a2 ≠ 0 → s.accepts ⟨s.a2, 16⟩) →
    let iv := if s.a2 = 0 then none else some (blockOfBytes (s.memRead s.a2 16))
    let r := ctrApply c (s.memRead s.a0 s.a1) iv lim
    exec (.ctrApply h lim) s =
      .next { s.ended .ok 0 with
        slots := s.slots.set (h - 1) (.ctr r.1)
        mem := Memory.writeBytes s.mem s.a0 r.2 }

/-- Rule R228: the byte-by-byte stream of the model is the rule's three loops: cached keystream, full chunks, final partial
chunk; states and outputs are equal. -/
def Obligations.CtrApplyIsTheChunkedRule : Prop :=
  ∀ (c : CtrState) (data : Bytes) (iv : Option Block) (lim : Nat), ctrApply c data iv lim = ctrByChunks c data iv lim

/-- Rule R229: the output has the length of the data; applying CtrApply from one state to the data and to the result
restores the data; splitting the data over successive calls, with no IV after the first, changes neither output nor final
state; with no cached keystream the keystream is E(ctr_0), E(ctr_1), … with ctr_(i+1) = Inc(ctr_i, lim). -/
def Obligations.CtrStreamProperties : Prop :=
  ∀ (c : CtrState) (iv : Option Block) (lim : Nat) (x : Bytes) (ds : List Bytes),
    (ctrApply c x iv lim).2.length = x.length ∧
    (ctrApply c (ctrApply c x iv lim).2 iv lim).2 = x ∧
    ctrApply c (x ++ ds.flatten) iv lim =
      ((ctrCalls lim (ctrApply c x iv lim).1 ds).1,
        (ctrApply c x iv lim).2 ++ (ctrCalls lim (ctrApply c x iv lim).1 ds).2) ∧
    (c.offset = 0 → ∀ i < x.length, (ctrApply c x none lim).2.getD i 0 =
      x.getD i 0 ^^^ blockByte (aesE c.ks (Nat.repeat (fun b => ctrInc b lim) (i / 16) c.counter)) (i % 16))

/-- Rule R224: Inc adds one to the last lim bytes as a big-endian number, modulo 2^(8·lim), and leaves the bytes before
them unchanged. -/
def Obligations.IncrementTouchesOnlyTheLastBytes : Prop :=
  ∀ (ctr : Block) (lim : Nat), lim ≤ 16 →
    (∀ i < 16 - lim, blockByte (ctrInc ctr lim) i = blockByte ctr i) ∧
    intBE ((blockBytes (ctrInc ctr lim)).drop (16 - lim)) =
      (intBE ((blockBytes ctr).drop (16 - lim)) + 1) % 2 ^ (8 * lim)

/-! ### CCM and the comparison -/

/-- The conditions under which CCM_ENCRYPT and CCM_DECRYPT pass every check (rules R251, R253, R254, R264). -/
def ccmAccepted (m l : Nat) (s : State) : Prop :=
  m % 2 = 0 ∧ 4 ≤ m ∧ m ≤ 16 ∧ 2 ≤ l ∧ l ≤ 8 ∧ s.a4 < 2 ^ (8 * l) ∧ aesKeyLen s.a1 ∧ s.accepts ⟨s.a0, s.a1⟩ ∧
    s.accepts ⟨s.a2, 15 - l⟩ ∧ s.accepts ⟨s.a3, s.a4⟩ ∧ s.accepts ⟨s.a5, s.a6⟩ ∧ s.accepts ⟨s.a7, m⟩

/-- Rule R264, where CCM_ENCRYPT ends with OK: the ciphertext in place, then the tag, and both are those of rules R256 to
R261 (`ccmEquations` writes these out: B0, the AAD prefix, the padding of each section, the counter blocks, the tag). -/
def Obligations.CcmEncryptWritesCiphertextAndTag : Prop :=
  ∀ (s : State) (m l : Nat), ccmAccepted m l s →
    let r := ccmSeal (expandKey (s.memRead s.a0 s.a1)) m l (s.memRead s.a2 (15 - l)) (s.memRead s.a3 s.a4)
      (s.memRead s.a5 s.a6)
    exec (.ccmEncrypt m l) s =
      .next { s.ended .ok 0 with mem := Memory.writeBytes (Memory.writeBytes s.mem s.a3 r.1) s.a7 r.2 } ∧
    ccmEquations (expandKey (s.memRead s.a0 s.a1)) m l (s.memRead s.a2 (15 - l)) (s.memRead s.a3 s.a4)
      (s.memRead s.a5 s.a6) r.1 r.2

/-- Rules R268, R269, once the checks pass: when the tag matches, CCM_DECRYPT writes the plaintext in place; when it does
not, it ends with AUTH_FAIL and writes nothing. -/
def Obligations.CcmDecryptWritesOnlyVerifiedPlaintext : Prop :=
  ∀ (s : State) (m l : Nat), ccmAccepted m l s →
    let r := ccmOpen (expandKey (s.memRead s.a0 s.a1)) m l (s.memRead s.a2 (15 - l)) (s.memRead s.a3 s.a4)
      (s.memRead s.a5 s.a6) (s.memRead s.a7 m)
    (r.1 = true → exec (.ccmDecrypt m l) s =
      .next { s.ended .ok 0 with mem := Memory.writeBytes s.mem s.a3 r.2 }) ∧
    (r.1 = false → exec (.ccmDecrypt m l) s = .next (s.ended .authFail 0))

/-- Rule R270 (1) on the CCM functions: opening what was sealed with the same parameters and the produced tag verifies and
gives the plaintext; and a tag that differs from the produced one in its M bytes does not verify. -/
def Obligations.CcmOpenUndoesSeal : Prop :=
  ∀ (ks : KeySchedule) (m l : Nat) (nonce p aad u : Bytes), m ≤ 16 →
    let r := ccmSeal ks m l nonce p aad
    ccmOpen ks m l nonce r.1 aad r.2 = (true, p) ∧
    (u.length = m → u ≠ r.2 → (ccmOpen ks m l nonce r.1 aad u).1 = false)

/-- Rules R421, R422: CtEqual is true exactly when the first n bytes are equal; and CT_COMPARE ends with the code of a failing
buffer check, else with OK when the two buffers are equal and with AUTH_FAIL when they differ; nothing is written. -/
def Obligations.CtCompareReportsEquality : Prop :=
  (∀ (a b : Bytes) (n : Nat), n ≤ a.length → n ≤ b.length → (ctEqual a b n = true ↔ a.take n = b.take n)) ∧
  (∀ (s : State) (c : StatusCode), s.checkBuffers [⟨s.a0, s.a2⟩, ⟨s.a1, s.a2⟩] = .error c →
    exec .ctCompare s = .next (s.ended c 0)) ∧
  (∀ s : State, s.accepts ⟨s.a0, s.a2⟩ → s.accepts ⟨s.a1, s.a2⟩ →
    (s.memRead s.a0 s.a2 = s.memRead s.a1 s.a2 → exec .ctCompare s = .next (s.ended .ok 0)) ∧
    (s.memRead s.a0 s.a2 ≠ s.memRead s.a1 s.a2 → exec .ctCompare s = .next (s.ended .authFail 0)))

/-! ### CMAC and XCBC -/

/-- Rule R300, where CMAC_CREATE ends with OK: the slot holds the OMAC state with K1 = dbl(E(0^16)) and K2 = dbl(K1), nothing
pending, phase OPEN. -/
def Obligations.CmacCreateFillsACmacSlot : Prop :=
  ∀ (s : State) (h : Nat), aesKeyLen s.a1 → s.accepts ⟨s.a0, s.a1⟩ → s.lowestFree h →
    let ks := expandKey (s.memRead s.a0 s.a1)
    let k1 := dbl (aesE ks 0)
    exec .cmacCreate s =
      .next { s.ended .ok (BitVec.ofNat 8 h) with
        slots := s.slots.set (h - 1) (.cmac ⟨⟨ks, k1, dbl k1, 0, 0, 0⟩, .opened⟩) }

/-- Rules R303, R333, R363, where CMAC_UPDATE, XCBC_UPDATE and EAX_HEADER end with OK: the data goes into the slot's OMAC
state (omH for EAX) and nothing else changes. -/
def Obligations.MacUpdatesAbsorbTheData : Prop :=
  ∀ (s : State) (h : Nat), s.accepts ⟨s.a0, s.a1⟩ →
    (∀ c, s.slot h = .cmac c → c.phase = .opened →
      exec (.cmacUpdate h) s = .next { s.ended .ok 0 with
        slots := s.slots.set (h - 1) (.cmac { c with om := omacUpdate c.om (s.memRead s.a0 s.a1) }) }) ∧
    (∀ c, s.slot h = .xcbc c → c.phase = .opened →
      exec (.xcbcUpdate h) s = .next { s.ended .ok 0 with
        slots := s.slots.set (h - 1) (.xcbc { c with om := omacUpdate c.om (s.memRead s.a0 s.a1) }) }) ∧
    (∀ c, s.slot h = .eax c → c.phase = .opened →
      exec (.eaxHeader h) s = .next { s.ended .ok 0 with
        slots := s.slots.set (h - 1) (.eax { c with omH := omacUpdate c.omH (s.memRead s.a0 s.a1) }) })

/-- Rules R298, R306, R336, where CMAC_FINAL and XCBC_FINAL end with OK: the leading 16 (CMAC) or outLen (XCBC) bytes of the
final value are written and the slot becomes FINAL. -/
def Obligations.MacFinalsWriteTheMacAndCloseTheSlot : Prop :=
  ∀ (s : State) (h : Nat),
    (∀ c, s.slot h = .cmac c → c.phase = .opened → s.accepts ⟨s.a0, 16⟩ →
      exec (.cmacFinal h) s = .next { s.ended .ok 0 with
        slots := s.slots.set (h - 1) (.cmac { c with phase := .finalized })
        mem := Memory.writeBytes s.mem s.a0 (blockBytes (omacFinal c.om)) }) ∧
    (∀ c, s.slot h = .xcbc c → c.phase = .opened → s.accepts ⟨s.a0, c.outLen⟩ →
      exec (.xcbcFinal h) s = .next { s.ended .ok 0 with
        slots := s.slots.set (h - 1) (.xcbc { c with phase := .finalized })
        mem := Memory.writeBytes s.mem s.a0 ((blockBytes (omacFinal c.om)).take c.outLen) })

/-- Rules R320 to R326, R330, where XCBC_CREATE ends with OK: MAC-96 takes the 16-byte key itself, PRF-128 a key of any length,
normalised: 16 bytes as they are, fewer with zeros on the right, more replaced by the 16-byte XCBC value of them under the
zero key (`xcbcValue` writes out rules R325 and R326); the slot chains under K1 with K2 and K3 as final subkeys and writes 12 or 16 bytes at its end. -/
def Obligations.XcbcCreateFillsAnXcbcSlot : Prop :=
  ∀ (s : State) (h : Nat) (v : XcbcVariant), (v = .mac96 → s.a1 = 16) → s.accepts ⟨s.a0, s.a1⟩ → s.lowestFree h →
    let k := s.memRead s.a0 s.a1
    let ksK := expandKey (match v with
      | .mac96 => k
      | .prf128 =>
        if s.a1 = 16 then k
        else if s.a1 < 16 then k ++ zeros (16 - s.a1)
        else blockBytes (xcbcValue (zeros 16) k))
    let k1 := aesE ksK (blockOfRepeat 1)
    exec (.xcbcCreate v) s =
      .next { s.ended .ok (BitVec.ofNat 8 h) with
        slots := s.slots.set (h - 1)
          (.xcbc
            { ksK := ksK
              om := ⟨expandKey (blockBytes k1), aesE ksK (blockOfRepeat 2), aesE ksK (blockOfRepeat 3), 0, 0, 0⟩
              outLen := match v with | .mac96 => 12 | .prf128 => 16
              phase := .opened }) }

/-- Rules R295, R299: the pending bytes and the accumulator after any message, and the closed form of the MAC: with
X the CBC-MAC chain over all blocks but the last, the last block complete is XORed with ka, a partial or empty one is
padded with 0x80 and zeros and XORed with kb; the split of the message into updates plays no part. -/
def Obligations.OmacIsTheChainedMac : Prop :=
  ∀ (ks : KeySchedule) (ka kb : Block) (pieces : List Bytes),
    let m := pieces.flatten
    let o := pieces.foldl omacUpdate (omacInit ks ka kb)
    let n := (m.length - 1) / 16
    let x := cbcMacChain ks (blocksFrom n m)
    let last := m.drop (16 * n)
    (m ≠ [] → o.plen = (m.length - 1) % 16 + 1) ∧ o.x = x ∧
    omacFinal o =
      if m ≠ [] ∧ m.length % 16 = 0 then aesE ks (x ^^^ (blockOfBytes last ^^^ ka))
      else aesE ks (x ^^^ (blockOfBytes (last ++ [0x80]) ^^^ kb))

/-! ### EAX -/

/-- Rules R350 to R353, R360, where EAX_CREATE ends with OK: N is the CMAC of the tweak block 0 and the nonce, the counter is
N with no keystream cached, omH and omC are seeded with the tweak blocks 1 and 2, and the phase is OPEN. -/
def Obligations.EaxCreateFillsAnEaxSlot : Prop :=
  ∀ (s : State) (h : Nat), aesKeyLen s.a1 → s.accepts ⟨s.a0, s.a1⟩ → s.accepts ⟨s.a2, s.a3⟩ → s.lowestFree h →
    let ks := expandKey (s.memRead s.a0 s.a1)
    let n := cmac ks (zeros 15 ++ [0] ++ s.memRead s.a2 s.a3)
    exec .eaxCreate s =
      .next { s.ended .ok (BitVec.ofNat 8 h) with
        slots := s.slots.set (h - 1)
          (.eax
            { ctr := ⟨ks, n, 0, 0⟩
              n := n
              omH := omacUpdate (cmacInit ks) (zeros 15 ++ [1])
              omC := omacUpdate (cmacInit ks) (zeros 15 ++ [2])
              phase := .opened }) }

/-- Rules R365, R367, R375, where EAX_ENCRYPT, EAX_DECRYPT and EAX_GETPT end with OK: the CTR transform with incrementLimit
16 in place; encryption absorbs its output, decryption its input, GETPT nothing; GETPT also runs in phase FINAL. -/
def Obligations.EaxStreamsTransformInPlace : Prop :=
  ∀ (s : State) (h : Nat) (c : EaxCtx), s.slot h = .eax c → s.accepts ⟨s.a0, s.a1⟩ →
    let data := s.memRead s.a0 s.a1
    let r := ctrApply c.ctr data none 16
    (c.phase = .opened → exec (.eaxEncrypt h) s = .next { s.ended .ok 0 with
      slots := s.slots.set (h - 1) (.eax { c with ctr := r.1, omC := omacUpdate c.omC r.2 })
      mem := Memory.writeBytes s.mem s.a0 r.2 }) ∧
    (c.phase = .opened → exec (.eaxDecrypt h) s = .next { s.ended .ok 0 with
      slots := s.slots.set (h - 1) (.eax { c with ctr := r.1, omC := omacUpdate c.omC data })
      mem := Memory.writeBytes s.mem s.a0 r.2 }) ∧
    exec (.eaxGetpt h) s = .next { s.ended .ok 0 with
      slots := s.slots.set (h - 1) (.eax { c with ctr := r.1 })
      mem := Memory.writeBytes s.mem s.a0 r.2 }

/-- Rules R355, R369, R372, where EAX_FINAL and EAX_GENTAG end with OK: the first tagLen bytes of
OmacFinal(omC) XOR N XOR OmacFinal(omH) are written and the slot becomes FINAL; GENTAG first absorbs the header and the
ciphertext and leaves the CTR state alone. -/
def Obligations.EaxTagsCloseTheSlot : Prop :=
  (∀ (s : State) (h t : Nat) (c : EaxCtx), s.slot h = .eax c → c.phase = .opened → t ≤ 16 → s.accepts ⟨s.a0, t⟩ →
    exec (.eaxFinal h t) s = .next { s.ended .ok 0 with
      slots := s.slots.set (h - 1) (.eax { c with phase := .finalized })
      mem := Memory.writeBytes s.mem s.a0
        ((blockBytes (omacFinal c.omC ^^^ c.n ^^^ omacFinal c.omH)).take t) }) ∧
  (∀ (s : State) (h t : Nat) (c : EaxCtx), s.slot h = .eax c → c.phase = .opened → t ≤ 16 →
    s.accepts ⟨s.a0, s.a1⟩ → s.accepts ⟨s.a2, s.a3⟩ → s.accepts ⟨s.a4, t⟩ →
    let omH := omacUpdate c.omH (s.memRead s.a2 s.a3)
    let omC := omacUpdate c.omC (s.memRead s.a0 s.a1)
    exec (.eaxGentag h t) s = .next { s.ended .ok 0 with
      slots := s.slots.set (h - 1) (.eax { c with omH := omH, omC := omC, phase := .finalized })
      mem := Memory.writeBytes s.mem s.a4 ((blockBytes (omacFinal omC ^^^ c.n ^^^ omacFinal omH)).take t) })

/-- Rules R354, R377: however header and ciphertext are split and interleaved, the streaming decryption gives the tag and
the plaintext that GENTAG and then GETPT give for the whole header and the whole ciphertext. -/
def Obligations.EaxWorkflowsAgree : Prop :=
  ∀ (c : EaxCtx) (pieces : List (Bytes ⊕ Bytes)),
    let gen := (c.header (headerOf pieces)).absorb (cipherOf pieces)
    let r := c.decryptPieces pieces
    r.1.tag = gen.tag ∧ r.2 = (gen.close.stream (cipherOf pieces)).2 ∧
      r.1.close = (gen.close.stream (cipherOf pieces)).1

/-! ### Key Wrap -/

/-- Rules R399, R400, where KW_WRAP ends with OK: the wrapped data, 8 bytes longer than the source, at the destination. It is
the result of the 6·n steps of rule R392 with the counter reduced to the last byte, and up to 336 bytes (n = 42) also the
result of the same steps with the counter as a 64-bit number (rule R394). -/
def Obligations.KwWrapWritesTheWrappedKey : Prop :=
  ∀ s : State, s.a3 % 8 = 0 → 8 ≤ s.a3 → aesKeyLen s.a1 → s.accepts ⟨s.a0, s.a1⟩ → s.accepts ⟨s.a2, s.a3⟩ →
    s.accepts ⟨s.a4, s.a3 + 8⟩ →
    let ct := kwWrap (expandKey (s.memRead s.a0 s.a1)) (s.memRead s.a2 s.a3)
    ct.length = s.a3 + 8 ∧ exec .kwWrap s = .next { s.ended .ok 0 with mem := Memory.writeBytes s.mem s.a4 ct } ∧
    kwSteps (fun t => BitVec.ofNat 64 (t % 256)) (expandKey (s.memRead s.a0 s.a1)) (s.memRead s.a2 s.a3) ct ∧
    (s.a3 ≤ 336 → kwSteps (fun t => BitVec.ofNat 64 t) (expandKey (s.memRead s.a0 s.a1)) (s.memRead s.a2 s.a3) ct)

/-- Rules R398, R399, R403, once the checks pass: when the integrity constant is recovered, KW_UNWRAP writes the key data, 8
bytes shorter than the source; when it is not, it ends with AUTH_FAIL and writes nothing. -/
def Obligations.KwUnwrapWritesOnlyAnIntactKey : Prop :=
  ∀ s : State, s.a3 % 8 = 0 → 16 ≤ s.a3 → aesKeyLen s.a1 → s.accepts ⟨s.a0, s.a1⟩ → s.accepts ⟨s.a2, s.a3⟩ →
    s.accepts ⟨s.a4, s.a3 - 8⟩ →
    let r := kwUnwrap (expandKey (s.memRead s.a0 s.a1)) (s.memRead s.a2 s.a3)
    (r.1 = true → r.2.length = s.a3 - 8 ∧
      exec .kwUnwrap s = .next { s.ended .ok 0 with mem := Memory.writeBytes s.mem s.a4 r.2 }) ∧
    (r.1 = false → exec .kwUnwrap s = .next (s.ended .authFail 0))

/-- Rule R405 (1): unwrapping what was wrapped verifies and gives the key data, for every schedule and every length of 8
bytes or more that is a multiple of 8, also where the one-byte counter differs from RFC 3394; and what verifies on unwrap
(rule R397) is the wrap of the key data it gives, so unwrapping takes back exactly the steps of wrapping. -/
def Obligations.KwUnwrapUndoesWrap : Prop :=
  (∀ (ks : KeySchedule) (x : Bytes), x.length % 8 = 0 → 8 ≤ x.length → kwUnwrap ks (kwWrap ks x) = (true, x)) ∧
  (∀ (ks : KeySchedule) (ct : Bytes), ct.length % 8 = 0 → 16 ≤ ct.length → (kwUnwrap ks ct).1 = true →
    kwWrap ks (kwUnwrap ks ct).2 = ct)

/-! ### The block cipher -/

/-- Rule R152: for every key schedule and every block, D undoes E and E undoes D. -/
def Obligations.AesCiphersAreInverse : Prop :=
  ∀ (ks : KeySchedule) (x : Block), aesD ks (aesE ks x) = x ∧ aesE ks (aesD ks x) = x

/-- Rules R146, R147, for a key of 16, 24 or 32 bytes: Nr = Nk + 6 rounds and 4(Nr+1) words; the first Nk words are the key, and
word i is word i - Nk XOR temp, where temp is word i - 1, rotated, substituted and XORed with Rcon[i / Nk] when Nk divides
i, and substituted when Nk > 6 and i mod Nk = 4. -/
def Obligations.ExpandKeyFollowsTheRecurrence : Prop :=
  ∀ key : Bytes, aesKeyLen key.length →
    let nk := key.length / 4
    let ks := expandKey key
    ks.nr = nk + 6 ∧ ks.w.length = 4 * (ks.nr + 1) ∧
    (∀ i < nk, ks.word i = BitVec.ofNat 32 (intBE ((key.drop (4 * i)).take 4))) ∧
    (∀ i, nk ≤ i → i < 4 * (ks.nr + 1) → ks.word i = ks.word (i - nk) ^^^
      (if i % nk = 0 then subWord ((ks.word (i - 1)).rotateLeft 8) ^^^ (xtimePow (i / nk - 1) 0x01 ++ (0 : BitVec 24))
      else if nk > 6 ∧ i % nk = 4 then subWord (ks.word (i - 1))
      else ks.word (i - 1)))

/-! ### Invariants -/

/-- The invariant holds after reset: the parameters of the examples are in range, memory and slots are empty. -/
def Obligations.ResetSatisfiesTheInvariant : Prop :=
  State.reset.Inv ∧ ∀ nslot memBytes, Config.validNslot nslot → Config.validMemBytes memBytes →
    (State.resetWith nslot memBytes).Inv

/-- Rules R43, R45, R48: every step of the host and of the engine keeps the invariant: memory in canonical form and inside
[0, MEM_BYTES), key schedules of 10, 12 or 14 rounds with 4(Nr+1) words, CTR offsets below 16, pending lengths at most 16
with zero bytes after them, and zero scratch. -/
def Obligations.EveryStepKeepsTheInvariant : Prop :=
  ∀ s t : State, s.Inv → step s = .next t → t.Inv

/-- Rule R46: no command moves a slot from FINAL to OPEN; a FINAL slot stays FINAL until CTX_DESTROY empties it. -/
def Obligations.FinalSlotsStayFinalUntilDestroyed : Prop :=
  ∀ (i : Instr) (s t : State) (k : Nat), exec i s = .next t → (s.slot k).phase = .finalized →
    (t.slot k).phase = .finalized ∨ (i = .ctxDestroy k ∧ t.slot k = .empty)
end

