-- ==== Sys2Proof/Laws/Lengths.lean ====
section
/-! SUPPORT. How long the byte strings are that the commands store. -/
namespace Sys2Proof.Machine

@[simp] theorem blockBytes_length (b : Block) : (blockBytes b).length = 16 := by simp [blockBytes]

@[simp] theorem semiblockBytes_length (r : Semiblock) : (semiblockBytes r).length = 8 := by
  simp [semiblockBytes, beBytes]

@[simp] theorem blocksFrom_length (n : Nat) (b : Bytes) : (blocksFrom n b).length = n := by
  induction n generalizing b with
  | zero => rfl
  | succ n ih => simp [blocksFrom, ih]

@[simp] theorem semiblocksFrom_length (n : Nat) (b : Bytes) : (semiblocksFrom n b).length = n := by
  induction n generalizing b with
  | zero => rfl
  | succ n ih => simp [semiblocksFrom, ih]

@[simp] theorem bytesOfBlocks_length (bs : List Block) : (bytesOfBlocks bs).length = 16 * bs.length := by
  induction bs with
  | nil => rfl
  | cons b bs ih =>
    have h : bytesOfBlocks (b :: bs) = blockBytes b ++ bytesOfBlocks bs := rfl
    rw [h, List.length_append, ih, blockBytes_length, List.length_cons]; omega

@[simp] theorem bytesOfSemiblocks_length (rs : List Semiblock) : (bytesOfSemiblocks rs).length = 8 * rs.length := by
  induction rs with
  | nil => rfl
  | cons r rs ih =>
    have h : bytesOfSemiblocks (r :: rs) = semiblockBytes r ++ bytesOfSemiblocks rs := rfl
    rw [h, List.length_append, ih, semiblockBytes_length, List.length_cons]; omega

@[simp] theorem cbcBlocks_length (c : CipherCtx) (v : Block) (xs : List Block) :
    (cbcBlocks c v xs).1.length = xs.length := by
  have he : ∀ v, (cbcEncrypt c.ks v xs).1.length = xs.length := by
    induction xs with
    | nil => intro v; rfl
    | cons x xs ih => intro v; simp [cbcEncrypt, ih]
  have hd : ∀ v, (cbcDecrypt c.ks v xs).1.length = xs.length := by
    clear he
    induction xs with
    | nil => intro v; rfl
    | cons x xs ih => intro v; simp [cbcDecrypt, ih]
  unfold cbcBlocks; split
  · exact he v
  · exact hd v

/-- The stream gives as many bytes as it takes. -/
@[simp] theorem ctrStream_length (lim : Nat) (c : CtrState) (x : Bytes) : (ctrStream lim c x).2.length = x.length := by
  induction x generalizing c with
  | nil => rfl
  | cons d ds ih => simp [ctrStream, ih]

@[simp] theorem EaxCtx.stream_length (c : EaxCtx) (x : Bytes) : (c.stream x).2.length = x.length :=
  ctrStream_length 16 c.ctr x

@[simp] theorem EaxCtx.encrypt_length (c : EaxCtx) (x : Bytes) : (c.encrypt x).2.length = x.length :=
  c.stream_length x

@[simp] theorem EaxCtx.decrypt_length (c : EaxCtx) (x : Bytes) : (c.decrypt x).2.length = x.length :=
  (c.absorb x).stream_length x

@[simp] theorem EaxCtx.tagBytes_length (c : EaxCtx) (t : Nat) : (c.tagBytes t).length = min t 16 := by
  simp [EaxCtx.tagBytes]

@[simp] theorem omacResult_length (o : Omac) (r : Nat) : (omacResult o r).length = min r 16 := by simp [omacResult]

@[simp] theorem kwWrapPass_length (ks : KeySchedule) (t : Nat) (a : Semiblock) (rs : List Semiblock) :
    (kwWrapPass ks t a rs).2.length = rs.length := by
  induction rs generalizing t a with
  | nil => rfl
  | cons r rs ih => simp [kwWrapPass, ih]

@[simp] theorem kwUnwrapPass_length (ks : KeySchedule) (t : Nat) (a : Semiblock) (rs : List Semiblock) :
    (kwUnwrapPass ks t a rs).2.length = rs.length := by
  induction rs generalizing t a with
  | nil => rfl
  | cons r rs ih => simp [kwUnwrapPass, ih]

/-- Wrapping gives 8 bytes more than it takes. -/
theorem kwWrap_length (ks : KeySchedule) (x : Bytes) (h : x.length % 8 = 0) : (kwWrap ks x).length = x.length + 8 := by
  simp [kwWrap, kwWrapLoop, List.range_succ]; omega

/-- Unwrapping gives 8 bytes less than it takes. -/
theorem kwUnwrap_length (ks : KeySchedule) (x : Bytes) (h : x.length % 8 = 0) :
    (kwUnwrap ks x).2.length = x.length - 8 := by
  simp [kwUnwrap, kwUnwrapLoop, List.range_succ]; omega

end Sys2Proof.Machine
end

