-- ==== Sys2Proof/Laws/State.lean ====
section
/-! SUPPORT. One lemma per field of State for each operation that updates the state, so that no proof unfolds a record
update. -/
namespace Sys2Proof.Machine

/-! ### The end of a command with a status code -/

@[simp] theorem State.raiseStatus_cmd (s : State) (c : StatusCode) : (s.raiseStatus c).cmd = s.cmd := rfl
@[simp] theorem State.raiseStatus_code (s : State) (c : StatusCode) : (s.raiseStatus c).code = c := rfl
@[simp] theorem State.raiseStatus_busy (s : State) (c : StatusCode) : (s.raiseStatus c).busy = false := rfl
@[simp] theorem State.raiseStatus_result (s : State) (c : StatusCode) : (s.raiseStatus c).result = 0 := rfl
@[simp] theorem State.raiseStatus_args (s : State) (c : StatusCode) : (s.raiseStatus c).args = s.args := rfl
@[simp] theorem State.raiseStatus_slots (s : State) (c : StatusCode) : (s.raiseStatus c).slots = s.slots := rfl
@[simp] theorem State.raiseStatus_mem (s : State) (c : StatusCode) : (s.raiseStatus c).mem = s.mem := rfl
@[simp] theorem State.raiseStatus_memBytes (s : State) (c : StatusCode) : (s.raiseStatus c).memBytes = s.memBytes := rfl
@[simp] theorem State.raiseStatus_scratch (s : State) (c : StatusCode) : (s.raiseStatus c).scratch = [] := rfl
@[simp] theorem State.raiseStatus_epoch (s : State) (c : StatusCode) : (s.raiseStatus c).epoch = s.epoch := rfl
@[simp] theorem State.raiseStatus_host (s : State) (c : StatusCode) : (s.raiseStatus c).host = s.host := rfl
@[simp] theorem State.raiseStatus_turns (s : State) (c : StatusCode) : (s.raiseStatus c).turns = s.turns := rfl
@[simp] theorem State.raiseStatus_returned (s : State) (c : StatusCode) : (s.raiseStatus c).returned = s.returned := rfl

/-! ### The completion of a command -/

@[simp] theorem State.complete_cmd (s : State) (e : Effects) : (s.complete e).cmd = s.cmd := rfl
@[simp] theorem State.complete_code (s : State) (e : Effects) : (s.complete e).code = .ok := rfl
@[simp] theorem State.complete_busy (s : State) (e : Effects) : (s.complete e).busy = false := rfl
@[simp] theorem State.complete_result (s : State) (e : Effects) : (s.complete e).result = BitVec.ofNat 8 e.handle := rfl
@[simp] theorem State.complete_args (s : State) (e : Effects) : (s.complete e).args = s.args := rfl
@[simp] theorem State.complete_slots (s : State) (e : Effects) : (s.complete e).slots = e.slotsAfter s.slots := rfl
@[simp] theorem State.complete_mem (s : State) (e : Effects) : (s.complete e).mem = Memory.commit s.mem e.writes := rfl
@[simp] theorem State.complete_memBytes (s : State) (e : Effects) : (s.complete e).memBytes = s.memBytes := rfl
@[simp] theorem State.complete_scratch (s : State) (e : Effects) : (s.complete e).scratch = [] := rfl
@[simp] theorem State.complete_epoch (s : State) (e : Effects) : (s.complete e).epoch = s.epoch := rfl
@[simp] theorem State.complete_host (s : State) (e : Effects) : (s.complete e).host = s.host := rfl
@[simp] theorem State.complete_turns (s : State) (e : Effects) : (s.complete e).turns = s.turns := rfl
@[simp] theorem State.complete_returned (s : State) (e : Effects) : (s.complete e).returned = s.returned := rfl

/-! ### The plain end state of a command -/

@[simp] theorem State.ended_cmd (s : State) (c : StatusCode) (v : Byte) : (s.ended c v).cmd = s.cmd := rfl
@[simp] theorem State.ended_code (s : State) (c : StatusCode) (v : Byte) : (s.ended c v).code = c := rfl
@[simp] theorem State.ended_busy (s : State) (c : StatusCode) (v : Byte) : (s.ended c v).busy = false := rfl
@[simp] theorem State.ended_result (s : State) (c : StatusCode) (v : Byte) : (s.ended c v).result = v := rfl
@[simp] theorem State.ended_args (s : State) (c : StatusCode) (v : Byte) : (s.ended c v).args = s.args := rfl
@[simp] theorem State.ended_slots (s : State) (c : StatusCode) (v : Byte) : (s.ended c v).slots = s.slots := rfl
@[simp] theorem State.ended_mem (s : State) (c : StatusCode) (v : Byte) : (s.ended c v).mem = s.mem := rfl
@[simp] theorem State.ended_memBytes (s : State) (c : StatusCode) (v : Byte) : (s.ended c v).memBytes = s.memBytes := rfl
@[simp] theorem State.ended_scratch (s : State) (c : StatusCode) (v : Byte) : (s.ended c v).scratch = [] := rfl
@[simp] theorem State.ended_epoch (s : State) (c : StatusCode) (v : Byte) : (s.ended c v).epoch = s.epoch := rfl
@[simp] theorem State.ended_host (s : State) (c : StatusCode) (v : Byte) : (s.ended c v).host = s.host := rfl
@[simp] theorem State.ended_turns (s : State) (c : StatusCode) (v : Byte) : (s.ended c v).turns = s.turns := rfl
@[simp] theorem State.ended_returned (s : State) (c : StatusCode) (v : Byte) : (s.ended c v).returned = s.returned := rfl

/-! ### Reset -/

@[simp] theorem State.takeReset_cmd (s : State) : (s.takeReset).cmd = 0 := rfl
@[simp] theorem State.takeReset_code (s : State) : (s.takeReset).code = .ok := rfl
@[simp] theorem State.takeReset_busy (s : State) : (s.takeReset).busy = false := rfl
@[simp] theorem State.takeReset_result (s : State) : (s.takeReset).result = 0 := rfl
@[simp] theorem State.takeReset_args (s : State) : (s.takeReset).args = .zero := rfl
@[simp] theorem State.takeReset_slots (s : State) : (s.takeReset).slots = List.replicate s.nslot .empty := rfl
@[simp] theorem State.takeReset_mem (s : State) : (s.takeReset).mem = [] := rfl
@[simp] theorem State.takeReset_memBytes (s : State) : (s.takeReset).memBytes = s.memBytes := rfl
@[simp] theorem State.takeReset_scratch (s : State) : (s.takeReset).scratch = [] := rfl
@[simp] theorem State.takeReset_epoch (s : State) : (s.takeReset).epoch = s.epoch + 1 := rfl
@[simp] theorem State.takeReset_host (s : State) : (s.takeReset).host = s.host := rfl
@[simp] theorem State.takeReset_turns (s : State) : (s.takeReset).turns = s.turns := rfl
@[simp] theorem State.takeReset_returned (s : State) : (s.takeReset).returned = s.returned := rfl

/-! ### A fetch word placed in CMD -/

@[simp] theorem State.withFetchWord_cmd (s : State) (n w : Nat) : (s.withFetchWord n w).cmd = BitVec.ofNat 32 w := rfl
@[simp] theorem State.withFetchWord_code (s : State) (n w : Nat) : (s.withFetchWord n w).code = s.code := rfl
@[simp] theorem State.withFetchWord_busy (s : State) (n w : Nat) : (s.withFetchWord n w).busy = true := rfl
@[simp] theorem State.withFetchWord_result (s : State) (n w : Nat) : (s.withFetchWord n w).result = s.result := rfl
@[simp] theorem State.withFetchWord_args (s : State) (n w : Nat) : (s.withFetchWord n w).args = s.args := rfl
@[simp] theorem State.withFetchWord_slots (s : State) (n w : Nat) : (s.withFetchWord n w).slots = s.slots := rfl
@[simp] theorem State.withFetchWord_mem (s : State) (n w : Nat) : (s.withFetchWord n w).mem = s.mem := rfl
@[simp] theorem State.withFetchWord_memBytes (s : State) (n w : Nat) : (s.withFetchWord n w).memBytes = s.memBytes := rfl
@[simp] theorem State.withFetchWord_scratch (s : State) (n w : Nat) : (s.withFetchWord n w).scratch = s.scratch := rfl
@[simp] theorem State.withFetchWord_epoch (s : State) (n w : Nat) : (s.withFetchWord n w).epoch = s.epoch := rfl
@[simp] theorem State.withFetchWord_host (s : State) (n w : Nat) : (s.withFetchWord n w).host = s.host := rfl
@[simp] theorem State.withFetchWord_turns (s : State) (n w : Nat) : (s.withFetchWord n w).turns = [] := rfl
@[simp] theorem State.withFetchWord_returned (s : State) (n w : Nat) : (s.withFetchWord n w).returned = s.returned := rfl

/-! ### A used turn -/

@[simp] theorem State.useTurn_cmd (s : State) : s.useTurn.cmd = s.cmd := by
  unfold State.useTurn; split <;> rfl
@[simp] theorem State.useTurn_code (s : State) : s.useTurn.code = s.code := by
  unfold State.useTurn; split <;> rfl
@[simp] theorem State.useTurn_busy (s : State) : s.useTurn.busy = s.busy := by
  unfold State.useTurn; split <;> rfl
@[simp] theorem State.useTurn_result (s : State) : s.useTurn.result = s.result := by
  unfold State.useTurn; split <;> rfl
@[simp] theorem State.useTurn_args (s : State) : s.useTurn.args = s.args := by
  unfold State.useTurn; split <;> rfl
@[simp] theorem State.useTurn_slots (s : State) : s.useTurn.slots = s.slots := by
  unfold State.useTurn; split <;> rfl
@[simp] theorem State.useTurn_mem (s : State) : s.useTurn.mem = s.mem := by
  unfold State.useTurn; split <;> rfl
@[simp] theorem State.useTurn_memBytes (s : State) : s.useTurn.memBytes = s.memBytes := by
  unfold State.useTurn; split <;> rfl
@[simp] theorem State.useTurn_scratch (s : State) : s.useTurn.scratch = s.scratch := by
  unfold State.useTurn; split <;> rfl
@[simp] theorem State.useTurn_epoch (s : State) : s.useTurn.epoch = s.epoch := by
  unfold State.useTurn; split <;> rfl
@[simp] theorem State.useTurn_host (s : State) : s.useTurn.host = s.host := by
  unfold State.useTurn; split <;> rfl
@[simp] theorem State.useTurn_turns (s : State) :
    s.useTurn.turns = if s.busy = true then s.turns.tail else s.turns := by
  unfold State.useTurn; split <;> rfl
@[simp] theorem State.useTurn_returned (s : State) : s.useTurn.returned = s.returned := by
  unfold State.useTurn; split <;> rfl

/-! ### Derived reads that do not look at the updated fields -/

@[simp] theorem State.useTurn_slot (s : State) (h : Nat) : s.useTurn.slot h = s.slot h := by simp [State.slot]
@[simp] theorem State.useTurn_readByte (s : State) (a : Nat) : s.useTurn.readByte a = s.readByte a := by
  simp [State.readByte]
@[simp] theorem State.ended_slot (s : State) (c : StatusCode) (v : Byte) (h : Nat) : (s.ended c v).slot h = s.slot h := rfl
@[simp] theorem State.ended_nslot (s : State) (c : StatusCode) (v : Byte) : (s.ended c v).nslot = s.nslot := rfl
@[simp] theorem State.ended_readByte (s : State) (c : StatusCode) (v : Byte) (a : Nat) :
    (s.ended c v).readByte a = s.readByte a := rfl

/-- Raising a code is the plain end of a command with that code and RESULT 0. -/
theorem State.raiseStatus_eq_ended (s : State) (c : StatusCode) : s.raiseStatus c = s.ended c 0 := rfl

/-- Completion is the plain end with OK and the handle, then the slot change and the committed writes. -/
theorem State.complete_eq_ended (s : State) (e : Effects) :
    s.complete e = { s.ended .ok (BitVec.ofNat 8 e.handle) with
      slots := e.slotsAfter s.slots, mem := Memory.commit s.mem e.writes } := rfl

/-- A turn is used only while BUSY = 1. -/
theorem State.useTurn_of_idle (s : State) (h : s.busy = false) : s.useTurn = s := by simp [State.useTurn, h]

/-- The machine with a fetch word has no turn to use. -/
@[simp] theorem State.useTurn_withFetchWord (s : State) (n w : Nat) :
    (s.withFetchWord n w).useTurn = s.withFetchWord n w := rfl

/-- After a fetch word the engine moves. -/
@[simp] theorem State.nextMover_withFetchWord (s : State) (n w : Nat) : (s.withFetchWord n w).nextMover = .engine := rfl

end Sys2Proof.Machine
end

