-- ==== Sys2Proof/Laws/Ops.lean ====
section
/-! SUPPORT. What each shared operation can do, once for every proof that meets it: the data memory (canonical form, read
after write), the slot file, the checks, and the end of a command. -/
namespace Sys2Proof.Machine

/-! ### The data memory -/

/-- Reading after a write of one byte. -/
theorem Memory.find_write (m : Memory) (a : Nat) (v : Byte) (b : Nat) :
    Memory.find (Memory.write m a v) b = if a = b then some v else Memory.find m b := by
  induction m with
  | nil => simp [Memory.write, Memory.find]
  | cons c m ih =>
    obtain ⟨k, w⟩ := c
    simp only [Memory.write]
    split
    · simp [Memory.find]
    · split
      · next h => subst h; simp only [Memory.find]; split <;> simp_all
      · simp only [Memory.find, ih]; split <;> split <;> simp_all

/-- A written memory lists the new cell and cells it listed before. -/
theorem Memory.mem_write (m : Memory) (a : Nat) (v : Byte) (c : Host.Cell) (h : c ∈ Memory.write m a v) :
    c = (a, v) ∨ c ∈ m := by
  induction m with
  | nil => simpa [Memory.write] using h
  | cons d m ih =>
    obtain ⟨k, w⟩ := d
    simp only [Memory.write] at h
    split at h
    · simpa using h
    · split at h
      · simp only [List.mem_cons] at h ⊢; tauto
      · simp only [List.mem_cons] at h ⊢
        rcases h with h | h
        · tauto
        · rcases ih h with h | h <;> tauto

/-- A write of one byte keeps the canonical form. -/
theorem Memory.wf_write (m : Memory) (a : Nat) (v : Byte) (h : Memory.wf m) : Memory.wf (Memory.write m a v) := by
  induction m with
  | nil => simp [Memory.write]
  | cons c m ih =>
    obtain ⟨k, w⟩ := c
    obtain ⟨hk, hm⟩ := List.pairwise_cons.mp h
    simp only [Memory.write]
    split
    · next hlt =>
      refine List.pairwise_cons.mpr ⟨?_, h⟩
      intro d hd
      rcases List.mem_cons.mp hd with rfl | hd
      · exact hlt
      · exact lt_trans hlt (hk d hd)
    · split
      · next heq => subst heq; exact List.pairwise_cons.mpr ⟨hk, hm⟩
      · refine List.pairwise_cons.mpr ⟨?_, ih hm⟩
        intro d hd
        rcases Memory.mem_write m a v d hd with rfl | hd
        · show k < a; omega
        · exact hk d hd

/-- A write of a byte string keeps the canonical form. -/
theorem Memory.wf_writeBytes (m : Memory) (a : Nat) (bs : Bytes) (h : Memory.wf m) :
    Memory.wf (Memory.writeBytes m a bs) := by
  induction bs generalizing m a with
  | nil => exact h
  | cons b bs ih => exact ih _ _ (Memory.wf_write m a b h)

/-- The commit of queued writes keeps the canonical form. -/
theorem Memory.wf_commit (m : Memory) (q : List (Nat × Bytes)) (h : Memory.wf m) : Memory.wf (Memory.commit m q) := by
  induction q generalizing m with
  | nil => exact h
  | cons w q ih => exact ih _ (Memory.wf_writeBytes m w.1 w.2 h)

/-- Every address a memory lists after a write of a byte string was listed before or lies in the written range. -/
theorem Memory.mem_writeBytes (m : Memory) (a : Nat) (bs : Bytes) (c : Host.Cell)
    (h : c ∈ Memory.writeBytes m a bs) : c ∈ m ∨ (a ≤ c.1 ∧ c.1 < a + bs.length) := by
  induction bs generalizing m a with
  | nil => exact .inl h
  | cons b bs ih =>
    rcases ih _ _ h with h | h
    · rcases Memory.mem_write m a b c h with rfl | h
      · exact .inr (by simp)
      · exact .inl h
    · exact .inr (by simp only [List.length_cons]; omega)

/-- Reading after a write of a byte string: its bytes inside the range, the old bytes outside. -/
theorem Memory.find_writeBytes (m : Memory) (a : Nat) (bs : Bytes) (x : Nat) :
    Memory.find (Memory.writeBytes m a bs) x =
      if a ≤ x ∧ x < a + bs.length then bs[x - a]? else Memory.find m x := by
  induction bs generalizing m a with
  | nil => simp [Memory.writeBytes]
  | cons b bs ih =>
    simp only [Memory.writeBytes, ih, Memory.find_write, List.length_cons]
    by_cases hx : a = x
    · subst hx; simp
    · by_cases h1 : a + 1 ≤ x ∧ x < a + 1 + bs.length
      · rw [if_pos h1, if_pos (by omega), show x - a = (x - (a + 1)) + 1 by omega]; simp
      · rw [if_neg h1, if_neg hx, if_neg (by omega)]

/-- The empty queue writes nothing. -/
@[simp] theorem Memory.commit_nil (m : Memory) : Memory.commit m [] = m := rfl

/-- One queued write. -/
@[simp] theorem Memory.commit_one (m : Memory) (w : Nat × Bytes) :
    Memory.commit m [w] = Memory.writeBytes m w.1 w.2 := rfl

/-- Two queued writes, the first one first. -/
@[simp] theorem Memory.commit_two (m : Memory) (w w' : Nat × Bytes) :
    Memory.commit m [w, w'] = Memory.writeBytes (Memory.writeBytes m w.1 w.2) w'.1 w'.2 := rfl

/-- A commit leaves every address alone that no queued write covers. -/
theorem Memory.find_commit_of_outside (m : Memory) (q : List (Nat × Bytes)) (x : Nat)
    (h : ∀ w ∈ q, ¬ (w.1 ≤ x ∧ x < w.1 + w.2.length)) : Memory.find (Memory.commit m q) x = Memory.find m x := by
  induction q generalizing m with
  | nil => rfl
  | cons w q ih =>
    have hq : ∀ w ∈ q, ¬ (w.1 ≤ x ∧ x < w.1 + w.2.length) := fun w' hw' => h w' (by simp [hw'])
    show Memory.find (Memory.commit (Memory.writeBytes m w.1 w.2) q) x = _
    rw [ih _ hq, Memory.find_writeBytes, if_neg (h w (by simp))]

/-- Two memories that read alike at an address, whatever stands behind their unlisted addresses, read alike there after the
same writes. -/
theorem Memory.find_commit_congr (q : List (Nat × Bytes)) (m₁ m₂ : Memory) (d₁ d₂ : Nat → Byte)
    (a : Nat) (h : (Memory.find m₁ a).getD (d₁ a) = (Memory.find m₂ a).getD (d₂ a)) :
    (Memory.find (Memory.commit m₁ q) a).getD (d₁ a) = (Memory.find (Memory.commit m₂ q) a).getD (d₂ a) := by
  induction q generalizing m₁ m₂ with
  | nil => exact h
  | cons w q ih =>
    refine ih (Memory.writeBytes m₁ w.1 w.2) (Memory.writeBytes m₂ w.1 w.2) ?_
    rw [Memory.find_writeBytes, Memory.find_writeBytes]
    split
    · rw [List.getElem?_eq_getElem (by omega)]; rfl
    · exact h

/-- Every address a memory lists after a commit was listed before or lies in a queued write. -/
theorem Memory.mem_commit (m : Memory) (q : List (Nat × Bytes)) (c : Host.Cell) (h : c ∈ Memory.commit m q) :
    c ∈ m ∨ ∃ w ∈ q, w.1 ≤ c.1 ∧ c.1 < w.1 + w.2.length := by
  induction q generalizing m with
  | nil => exact .inl h
  | cons w q ih =>
    rcases ih _ h with h | ⟨w', hw', h⟩
    · rcases Memory.mem_writeBytes m w.1 w.2 c h with h | h
      · exact .inl h
      · exact .inr ⟨w, by simp, h⟩
    · exact .inr ⟨w', by simp [hw'], h⟩

/-- The reset memory is in canonical form. -/
theorem Memory.wf_reset : Memory.wf State.reset.mem := List.Pairwise.nil

/-- A memory read gives as many bytes as it asks for. -/
@[simp] theorem State.memRead_length (s : State) (a n : Nat) : (s.memRead a n).length = n := by simp [State.memRead]

/-! ### The slot file -/

/-- Slot 0 is no slot: it reads as EMPTY. -/
@[simp] theorem State.slot_zero (s : State) : s.slot 0 = .empty := rfl

/-- A slot that is not EMPTY has a number from 1 to NSLOT. -/
theorem State.slot_range (s : State) (h : Nat) (hne : s.slot h ≠ .empty) : 1 ≤ h ∧ h ≤ s.nslot := by
  unfold State.slot at hne
  split at hne
  · exact absurd rfl hne
  · refine ⟨by omega, ?_⟩
    by_contra hgt
    exact hne (List.getD_eq_default _ _ (by unfold State.nslot at hgt; omega))

/-- A recorded slot change keeps the number of slots. -/
@[simp] theorem setSlot_length (slots : List Slot) (h : Nat) (v : Slot) : (setSlot slots h v).length = slots.length := by
  unfold setSlot; split <;> simp

/-- A recorded slot change is an update of the list for a handle that names a slot. -/
theorem setSlot_of_pos (slots : List Slot) (h : Nat) (v : Slot) (hpos : 1 ≤ h) :
    setSlot slots h v = slots.set (h - 1) v := by
  unfold setSlot; rw [if_neg (by omega)]

/-- The slots after the effects of a command are as many as before. -/
@[simp] theorem Effects.slotsAfter_length (e : Effects) (slots : List Slot) :
    (e.slotsAfter slots).length = slots.length := by
  unfold Effects.slotsAfter; split <;> simp

/-- Reading a slot after a slot update. -/
theorem slot_set (s : State) (h k : Nat) (v : Slot) (hpos : 1 ≤ h) (hle : h ≤ s.nslot) (t : State)
    (ht : t.slots = s.slots.set (h - 1) v) : t.slot k = if k = h then v else s.slot k := by
  unfold State.slot
  rw [ht]
  unfold State.nslot at hle
  by_cases hk : k = 0
  · subst hk; rw [if_pos rfl, if_pos rfl, if_neg (by omega)]
  · rw [if_neg hk, if_neg hk, List.getD_eq_getElem?_getD, List.getD_eq_getElem?_getD, List.getElem?_set]
    by_cases hkh : k = h
    · subst hkh; simp [show k - 1 < s.slots.length by omega]
    · rw [if_neg (by omega), if_neg hkh]

/-- `Alloc` gives the lowest EMPTY slot. -/
theorem State.alloc_ok (s : State) (h : Nat) : s.alloc = .ok h ↔ s.lowestFree h := by
  unfold State.alloc State.lowestFree
  have hslot : ∀ k, 1 ≤ k → ∀ hk : k - 1 < s.slots.length, s.slot k = s.slots[k - 1] := fun k h1 hk => by
    unfold State.slot
    rw [if_neg (by omega), List.getD_eq_getElem?_getD, List.getElem?_eq_getElem hk, Option.getD_some]
  unfold State.nslot
  constructor
  · intro ha
    split at ha
    · next k hk =>
      obtain ⟨hlt, he, hmin⟩ := List.findIdx?_eq_some_iff_getElem.mp hk
      have hh : k + 1 = h := by simpa using ha
      subst hh
      refine ⟨by omega, by omega, ?_, ?_⟩
      · rw [hslot _ (by omega) (by simpa using hlt)]; simpa using he
      · intro j h1 hj
        rw [hslot j h1 (by omega)]
        simpa using hmin (j - 1) (by omega)
    · cases ha
  · rintro ⟨h1, hle, he, hmin⟩
    have hk : s.slots.findIdx? (fun v => decide (v = .empty)) = some (h - 1) := by
      refine List.findIdx?_eq_some_iff_getElem.mpr ⟨by omega, ?_, ?_⟩
      · rw [hslot h h1 (by omega)] at he; simpa using he
      · intro j hj
        have := hmin (j + 1) (by omega) (by omega)
        rw [hslot (j + 1) (by omega) (by simpa using (by omega : j < s.slots.length))] at this
        simpa using this
    rw [hk]; simp; omega

/-- `Alloc` raises ALLOC_FAIL and nothing else. -/
theorem State.alloc_error (s : State) (c : StatusCode) (h : s.alloc = .error c) : c = .allocFail := by
  unfold State.alloc at h
  split at h <;> simp_all

/-! ### The checks -/

/-- A check that holds. -/
@[simp] theorem require_true (c : StatusCode) : require true c = .ok () := rfl

/-- A check that fails raises its code. -/
@[simp] theorem require_false (c : StatusCode) : require false c = .error c := rfl

/-- When a check goes on. -/
theorem require_ok (b : Bool) (c : StatusCode) : require b c = .ok () ↔ b = true := by cases b <;> simp [require]

/-- Which code a check raises. -/
theorem require_error (b : Bool) (c d : StatusCode) : require b c = .error d ↔ b = false ∧ d = c := by
  cases b <;> simp [require, eq_comm]

/-- One buffer passes its two checks exactly when the engine accepts it. -/
theorem Buffer.passes_iff (b : Buffer) (s : State) :
    (b.notNull = true ∧ b.inRange s.memBytes = true) ↔ s.accepts b := by
  simp only [Buffer.notNull, Buffer.inRange, State.accepts, decide_eq_true_eq]; tauto

/-- `CheckBuffers` goes on exactly when every buffer of the list is accepted. -/
theorem State.checkBuffers_ok (s : State) (bs : List Buffer) :
    s.checkBuffers bs = .ok () ↔ ∀ b ∈ bs, s.accepts b := by
  have h : (∀ b ∈ bs, s.accepts b) ↔
      bs.all Buffer.notNull = true ∧ bs.all (fun b => b.inRange s.memBytes) = true := by
    simp only [List.all_eq_true, ← Buffer.passes_iff]
    exact ⟨fun h => ⟨fun b hb => (h b hb).1, fun b hb => (h b hb).2⟩, fun h b hb => ⟨h.1 b hb, h.2 b hb⟩⟩
  rw [h]
  unfold State.checkBuffers
  cases bs.all Buffer.notNull <;> cases bs.all (fun b => b.inRange s.memBytes) <;> simp [Bind.bind, Except.bind]

/-- `CheckBuffers` raises NULL_REF or ADDR_ERROR and nothing else. -/
theorem State.checkBuffers_error (s : State) (bs : List Buffer) (c : StatusCode) (h : s.checkBuffers bs = .error c) :
    c = .nullRef ∨ c = .addrError := by
  unfold State.checkBuffers at h
  cases h1 : bs.all Buffer.notNull <;> cases h2 : bs.all (fun b => b.inRange s.memBytes) <;>
    simp_all [Bind.bind, Except.bind]

/-- `CheckHandle` goes on exactly when the slot has the kind and, where the command needs it, phase OPEN. -/
theorem State.checkHandle_ok {α : Type} (s : State) (h : Nat) (kind : Slot → Option α) (req : PhaseReq) (c : α)
    (hempty : kind .empty = none) :
    s.checkHandle h kind req = .ok c ↔
      kind (s.slot h) = some c ∧ ¬ (req = .mustBeOpen ∧ (s.slot h).phase = .finalized) := by
  unfold State.checkHandle
  constructor
  · intro hc
    split at hc
    · cases hc
    split at hc
    · cases hc
    split at hc
    · cases hc
    split at hc
    · cases hc
    · next d hd =>
      split at hc
      · cases hc
      · next hp => cases hc; exact ⟨hd, hp⟩
  · rintro ⟨hk, hp⟩
    have hne : s.slot h ≠ .empty := fun he => by rw [he, hempty] at hk; cases hk
    obtain ⟨h1, h2⟩ := s.slot_range h hne
    rw [if_neg (by omega), if_neg (by omega), if_neg hne, hk]
    simp only [if_neg hp]

/-- `CheckHandle` raises NULL_REF, INVALID_ARG or BAD_STATE and nothing else. -/
theorem State.checkHandle_error {α : Type} (s : State) (h : Nat) (kind : Slot → Option α) (req : PhaseReq)
    (c : StatusCode) (he : s.checkHandle h kind req = .error c) : c = .nullRef ∨ c = .invalidArg ∨ c = .badState := by
  unfold State.checkHandle at he
  split at he
  · simp_all
  split at he
  · simp_all
  split at he
  · simp_all
  split at he
  · simp_all
  · split at he <;> simp_all

/-! ### The end of a command -/

/-- Everything the end of a command can do: the plain end with a code, or the completion with its effects. -/
theorem State.runRule_next (s t : State) (r : CommandResult) :
    s.runRule r = .next t ↔
      (∃ c, r = .error c ∧ t = s.ended c 0) ∨ (∃ e, r = .ok e ∧ t = s.complete e) := by
  cases r with
  | error c => simp [State.runRule, State.finish, State.raiseStatus_eq_ended, eq_comm]
  | ok e => simp [State.runRule, State.finish, eq_comm]

/-- A rule that raises a code. -/
@[simp] theorem State.runRule_error (s : State) (c : StatusCode) : s.runRule (.error c) = .next (s.ended c 0) := rfl

/-- A rule that ends with OK. -/
@[simp] theorem State.runRule_ok (s : State) (e : Effects) : s.runRule (.ok e) = .next (s.complete e) := rfl

end Sys2Proof.Machine
end

