-- ==== Sys2Proof/Laws/PerInstr.lean ====
section
/-! SUPPORT. A statement about every command as syntax, one lemma per constructor of Instr: the four fields of a well-formed
command's word are the fields its row of rule R103 gives. -/
namespace Sys2Proof.Laws

/-- Assembling four 8-bit fields into a word and taking them out again gives them back (rules R101, R109). -/
theorem ofWord_toWord (f : CmdFields) (h1 : f.op < 256) (h2 : f.h < 256) (h3 : f.p < 256) (h4 : f.q < 256) :
    CmdFields.ofWord f.toWord = f := by
  obtain ⟨op, h, p, q⟩ := f
  simp only at h1 h2 h3 h4
  have hw : (CmdFields.toWord ⟨op, h, p, q⟩).toNat = op + 256 * h + 65536 * p + 16777216 * q := by
    simp only [CmdFields.toWord, BitVec.toNat_ofNat]; omega
  simp only [CmdFields.ofWord, hw, CmdFields.mk.injEq]
  omega

/-- A well-formed command's word holds the fields of its row. -/
def FieldsRoundTrip.Statement (i : Instr) : Prop := i.wf = true → CmdFields.ofWord (encode i) = i.fields

theorem FieldsRoundTrip.ctxCreate (dir : Dir) (mode : Nat) : FieldsRoundTrip.Statement (.ctxCreate dir mode) := by
  intro hwf
  simp only [Instr.wf, decide_eq_true_eq] at hwf
  cases dir <;> refine ofWord_toWord _ ?_ ?_ ?_ ?_ <;> simp only [Instr.fields, Dir.toBit] <;> omega

theorem FieldsRoundTrip.ctxDestroy (h : Nat) : FieldsRoundTrip.Statement (.ctxDestroy h) := by
  intro hwf
  simp only [Instr.wf, decide_eq_true_eq] at hwf
  refine ofWord_toWord _ ?_ ?_ ?_ ?_ <;> simp only [Instr.fields] <;> omega

theorem FieldsRoundTrip.aesBlock (h : Nat) (dir : Dir) : FieldsRoundTrip.Statement (.aesBlock h dir) := by
  intro hwf
  simp only [Instr.wf, decide_eq_true_eq] at hwf
  cases dir <;> refine ofWord_toWord _ ?_ ?_ ?_ ?_ <;> simp only [Instr.fields, Dir.toBit] <;> omega

theorem FieldsRoundTrip.blockMode (h : Nat) (dir : Dir) : FieldsRoundTrip.Statement (.blockMode h dir) := by
  intro hwf
  simp only [Instr.wf, decide_eq_true_eq] at hwf
  cases dir <;> refine ofWord_toWord _ ?_ ?_ ?_ ?_ <;> simp only [Instr.fields, Dir.toBit] <;> omega

theorem FieldsRoundTrip.ctrCreate : FieldsRoundTrip.Statement .ctrCreate := by
  intro _; exact ofWord_toWord _ (by decide) (by decide) (by decide) (by decide)

theorem FieldsRoundTrip.ctrApply (h : Nat) (lim : Nat) : FieldsRoundTrip.Statement (.ctrApply h lim) := by
  intro hwf
  simp only [Instr.wf, decide_eq_true_eq] at hwf
  refine ofWord_toWord _ ?_ ?_ ?_ ?_ <;> simp only [Instr.fields] <;> omega

theorem FieldsRoundTrip.ccmEncrypt (m : Nat) (l : Nat) : FieldsRoundTrip.Statement (.ccmEncrypt m l) := by
  intro hwf
  simp only [Instr.wf, decide_eq_true_eq] at hwf
  refine ofWord_toWord _ ?_ ?_ ?_ ?_ <;> simp only [Instr.fields] <;> omega

theorem FieldsRoundTrip.ccmDecrypt (m : Nat) (l : Nat) : FieldsRoundTrip.Statement (.ccmDecrypt m l) := by
  intro hwf
  simp only [Instr.wf, decide_eq_true_eq] at hwf
  refine ofWord_toWord _ ?_ ?_ ?_ ?_ <;> simp only [Instr.fields] <;> omega

theorem FieldsRoundTrip.cmacCreate : FieldsRoundTrip.Statement .cmacCreate := by
  intro _; exact ofWord_toWord _ (by decide) (by decide) (by decide) (by decide)

theorem FieldsRoundTrip.cmacUpdate (h : Nat) : FieldsRoundTrip.Statement (.cmacUpdate h) := by
  intro hwf
  simp only [Instr.wf, decide_eq_true_eq] at hwf
  refine ofWord_toWord _ ?_ ?_ ?_ ?_ <;> simp only [Instr.fields] <;> omega

theorem FieldsRoundTrip.cmacFinal (h : Nat) : FieldsRoundTrip.Statement (.cmacFinal h) := by
  intro hwf
  simp only [Instr.wf, decide_eq_true_eq] at hwf
  refine ofWord_toWord _ ?_ ?_ ?_ ?_ <;> simp only [Instr.fields] <;> omega

theorem FieldsRoundTrip.xcbcCreate (variant : XcbcVariant) : FieldsRoundTrip.Statement (.xcbcCreate variant) := by
  intro _; cases variant <;> exact ofWord_toWord _ (by decide) (by decide) (by decide) (by decide)

theorem FieldsRoundTrip.xcbcUpdate (h : Nat) : FieldsRoundTrip.Statement (.xcbcUpdate h) := by
  intro hwf
  simp only [Instr.wf, decide_eq_true_eq] at hwf
  refine ofWord_toWord _ ?_ ?_ ?_ ?_ <;> simp only [Instr.fields] <;> omega

theorem FieldsRoundTrip.xcbcFinal (h : Nat) : FieldsRoundTrip.Statement (.xcbcFinal h) := by
  intro hwf
  simp only [Instr.wf, decide_eq_true_eq] at hwf
  refine ofWord_toWord _ ?_ ?_ ?_ ?_ <;> simp only [Instr.fields] <;> omega

theorem FieldsRoundTrip.eaxCreate : FieldsRoundTrip.Statement .eaxCreate := by
  intro _; exact ofWord_toWord _ (by decide) (by decide) (by decide) (by decide)

theorem FieldsRoundTrip.eaxHeader (h : Nat) : FieldsRoundTrip.Statement (.eaxHeader h) := by
  intro hwf
  simp only [Instr.wf, decide_eq_true_eq] at hwf
  refine ofWord_toWord _ ?_ ?_ ?_ ?_ <;> simp only [Instr.fields] <;> omega

theorem FieldsRoundTrip.eaxEncrypt (h : Nat) : FieldsRoundTrip.Statement (.eaxEncrypt h) := by
  intro hwf
  simp only [Instr.wf, decide_eq_true_eq] at hwf
  refine ofWord_toWord _ ?_ ?_ ?_ ?_ <;> simp only [Instr.fields] <;> omega

theorem FieldsRoundTrip.eaxDecrypt (h : Nat) : FieldsRoundTrip.Statement (.eaxDecrypt h) := by
  intro hwf
  simp only [Instr.wf, decide_eq_true_eq] at hwf
  refine ofWord_toWord _ ?_ ?_ ?_ ?_ <;> simp only [Instr.fields] <;> omega

theorem FieldsRoundTrip.eaxFinal (h : Nat) (tagLen : Nat) : FieldsRoundTrip.Statement (.eaxFinal h tagLen) := by
  intro hwf
  simp only [Instr.wf, decide_eq_true_eq] at hwf
  refine ofWord_toWord _ ?_ ?_ ?_ ?_ <;> simp only [Instr.fields] <;> omega

theorem FieldsRoundTrip.eaxGentag (h : Nat) (tagLen : Nat) : FieldsRoundTrip.Statement (.eaxGentag h tagLen) := by
  intro hwf
  simp only [Instr.wf, decide_eq_true_eq] at hwf
  refine ofWord_toWord _ ?_ ?_ ?_ ?_ <;> simp only [Instr.fields] <;> omega

theorem FieldsRoundTrip.eaxGetpt (h : Nat) : FieldsRoundTrip.Statement (.eaxGetpt h) := by
  intro hwf
  simp only [Instr.wf, decide_eq_true_eq] at hwf
  refine ofWord_toWord _ ?_ ?_ ?_ ?_ <;> simp only [Instr.fields] <;> omega

theorem FieldsRoundTrip.kwWrap : FieldsRoundTrip.Statement .kwWrap := by
  intro _; exact ofWord_toWord _ (by decide) (by decide) (by decide) (by decide)

theorem FieldsRoundTrip.kwUnwrap : FieldsRoundTrip.Statement .kwUnwrap := by
  intro _; exact ofWord_toWord _ (by decide) (by decide) (by decide) (by decide)

theorem FieldsRoundTrip.ctCompare : FieldsRoundTrip.Statement .ctCompare := by
  intro _; exact ofWord_toWord _ (by decide) (by decide) (by decide) (by decide)

end Sys2Proof.Laws
end

