-- ==== Sys2Proof/Laws/Rules.lean ====
section
/-! SUPPORT. Everything a command can do, said once: `exec` is the end of the command's rule, and a rule either raises a code
its command may report, or stores only to accepted buffers of its command and records at most one slot change. A proof about
all commands cites `ruleOf_does` instead of unfolding the meanings. -/
namespace Sys2Proof.Machine

/-! ### Exec is the end of a rule -/

/-- The rule of a command. -/
def ruleOf : Instr → State → CommandResult
  | .ctxCreate dir mode, s => ctxCreateRule dir mode s
  | .ctxDestroy h, s => ctxDestroyRule h s
  | .aesBlock h dir, s => aesBlockRule h dir s
  | .blockMode h dir, s => blockModeRule h dir s
  | .ctrCreate, s => ctrCreateRule s
  | .ctrApply h lim, s => ctrApplyRule h lim s
  | .ccmEncrypt m l, s => ccmEncryptRule m l s
  | .ccmDecrypt m l, s => ccmDecryptRule m l s
  | .cmacCreate, s => cmacCreateRule s
  | .cmacUpdate h, s => cmacUpdateRule h s
  | .cmacFinal h, s => cmacFinalRule h s
  | .xcbcCreate v, s => xcbcCreateRule v s
  | .xcbcUpdate h, s => xcbcUpdateRule h s
  | .xcbcFinal h, s => xcbcFinalRule h s
  | .eaxCreate, s => eaxCreateRule s
  | .eaxHeader h, s => eaxHeaderRule h s
  | .eaxEncrypt h, s => eaxEncryptRule h s
  | .eaxDecrypt h, s => eaxDecryptRule h s
  | .eaxFinal h t, s => eaxFinalRule h t s
  | .eaxGentag h t, s => eaxGentagRule h t s
  | .eaxGetpt h, s => eaxGetptRule h s
  | .kwWrap, s => kwWrapRule s
  | .kwUnwrap, s => kwUnwrapRule s
  | .ctCompare, s => ctCompareRule s

/-- A command runs its rule and ends by what the rule gives. -/
theorem exec_eq_runRule (i : Instr) (s : State) : exec i s = s.runRule (ruleOf i s) := by cases i <;> rfl

/-- The next state of a command. -/
theorem exec_next (i : Instr) (s t : State) : exec i s = .next t ↔ t = s.finish (ruleOf i s) := by
  rw [exec_eq_runRule, State.runRule]; simp [eq_comm]

/-! ### What a rule reads -/

/-- What a rule does after a check matters only where the check holds. -/
theorem require_bind_congr (b : Bool) (c : StatusCode) (f g : Unit → CommandResult) (h : b = true → f () = g ()) :
    (require b c >>= f) = (require b c >>= g) := by
  cases b with
  | true => exact h rfl
  | false => rfl

/-- What a rule does after its buffer checks matters only where every buffer is accepted. -/
theorem State.checkBuffers_bind_congr (s : State) (bs : List Buffer) (f g : Unit → CommandResult)
    (h : (∀ b ∈ bs, s.accepts b) → f () = g ()) : (s.checkBuffers bs >>= f) = (s.checkBuffers bs >>= g) := by
  cases hc : s.checkBuffers bs with
  | ok u => exact h ((s.checkBuffers_ok bs).mp hc)
  | error c => rfl

/-- A read of an accepted buffer looks at the data memory only. -/
theorem State.memRead_congr (s₁ s₂ : State) (hbytes : s₁.memBytes = s₂.memBytes)
    (hread : ∀ a < s₁.memBytes, s₁.readByte a = s₂.readByte a) (a n : Nat) (h : s₂.accepts ⟨a, n⟩) :
    s₁.memRead a n = s₂.memRead a n := by
  refine List.map_congr_left fun i hi => hread _ ?_
  have hi := List.mem_range.mp hi
  simp only [State.accepts] at h
  omega

/-- A rule reads A0 to A7, the slot file, MEM_BYTES and the bytes of the data memory below MEM_BYTES, and nothing else of the
state: it reads memory only after its buffer checks, and only buffers it has checked. -/
theorem ruleOf_congr (i : Instr) (s₁ s₂ : State) (hargs : s₁.args = s₂.args) (hslots : s₁.slots = s₂.slots)
    (hbytes : s₁.memBytes = s₂.memBytes) (hread : ∀ a < s₁.memBytes, s₁.readByte a = s₂.readByte a) :
    ruleOf i s₁ = ruleOf i s₂ := by
  have a0 : s₁.a0 = s₂.a0 := by rw [State.a0, hargs]; rfl
  have a1 : s₁.a1 = s₂.a1 := by rw [State.a1, hargs]; rfl
  have a2 : s₁.a2 = s₂.a2 := by rw [State.a2, hargs]; rfl
  have a3 : s₁.a3 = s₂.a3 := by rw [State.a3, hargs]; rfl
  have a4 : s₁.a4 = s₂.a4 := by rw [State.a4, hargs]; rfl
  have a5 : s₁.a5 = s₂.a5 := by rw [State.a5, hargs]; rfl
  have a6 : s₁.a6 = s₂.a6 := by rw [State.a6, hargs]; rfl
  have a7 : s₁.a7 = s₂.a7 := by rw [State.a7, hargs]; rfl
  have hr := State.memRead_congr s₁ s₂ hbytes hread
  have hc : State.checkBuffers s₁ = State.checkBuffers s₂ := by funext b; simp [State.checkBuffers, hbytes]
  have ha : s₁.alloc = s₂.alloc := by simp [State.alloc, hslots]
  have hn : s₁.nslot = s₂.nslot := by simp [State.nslot, hslots]
  have hh : ∀ {α} h (k : Slot → Option α) r, s₁.checkHandle h k r = s₂.checkHandle h k r := by
    intros; simp [State.checkHandle, State.slot, State.nslot, hslots]
  cases i with
  | ctxCreate dir mode =>
    simp only [ruleOf, ctxCreateRule, keyBuffer, State.readBuffer, a0, a1, hc, ha]
    refine bind_congr fun _ => bind_congr fun _ => State.checkBuffers_bind_congr _ _ _ _ fun hb => ?_
    rw [hr _ _ (hb _ (by simp))]
  | ctxDestroy h => simp only [ruleOf, ctxDestroyRule, hn]
  | aesBlock h dir =>
    simp only [ruleOf, aesBlockRule, a0, a1, hc, hh]
    refine bind_congr fun _ => bind_congr fun _ => State.checkBuffers_bind_congr _ _ _ _ fun hb => ?_
    rw [hr _ _ (hb ⟨s₂.a0, 16⟩ (by simp))]
  | blockMode h dir =>
    simp only [ruleOf, blockModeRule, blockModeBuffers, blockModeWrites, a0, a1, a2, hc, hh]
    refine bind_congr fun c => bind_congr fun _ => bind_congr fun _ =>
      State.checkBuffers_bind_congr _ _ _ _ fun hb => ?_
    cases hm : c.mode <;> rw [hm] at hb
    · rw [hr _ _ (hb ⟨s₂.a0, s₂.a1⟩ (by simp))]
    · rw [hr _ _ (hb ⟨s₂.a0, s₂.a1⟩ (by simp)), hr _ _ (hb ⟨s₂.a2, 16⟩ (by simp))]
  | ctrCreate =>
    simp only [ruleOf, ctrCreateRule, ctrCreateSeparateRule, ctrCreateCombinedRule, a0, a1, a2, hc, ha]
    split
    · refine bind_congr fun _ => State.checkBuffers_bind_congr _ _ _ _ fun hb => ?_
      rw [hr _ _ (hb ⟨s₂.a0, s₂.a1⟩ (by simp)), hr _ _ (hb ⟨s₂.a2, 16⟩ (by simp))]
    · refine require_bind_congr _ _ _ _ fun hl => State.checkBuffers_bind_congr _ _ _ _ fun hb => ?_
      have hl := (of_decide_eq_true hl).1
      have hb := hb ⟨s₂.a0, s₂.a1⟩ (by simp)
      simp only [State.accepts] at hb hr
      rw [hr s₂.a0 _ (by omega), hr (s₂.a0 + (s₂.a1 - 16)) _ (by omega)]
  | ctrApply h lim =>
    simp only [ruleOf, ctrApplyRule, ctrApplyBuffers, ctrApplyIv, a0, a1, a2, hc, hh]
    refine bind_congr fun _ => bind_congr fun _ => State.checkBuffers_bind_congr _ _ _ _ fun hb => ?_
    by_cases h2 : s₂.a2 ≠ 0
    · simp only [if_pos h2] at hb ⊢
      rw [hr _ _ (hb ⟨s₂.a0, s₂.a1⟩ (by simp)), hr _ _ (hb ⟨s₂.a2, 16⟩ (by simp))]
    · simp only [if_neg h2] at hb ⊢
      rw [hr _ _ (hb ⟨s₂.a0, s₂.a1⟩ (by simp))]
  | ccmEncrypt m l =>
    simp only [ruleOf, ccmEncryptRule, ccmChecks, ccmBuffers, ccmSealed, workingKey, bind_assoc, a0, a1, a2, a3, a4, a5,
      a6, a7, hc]
    refine bind_congr fun _ => bind_congr fun _ => bind_congr fun _ =>
      State.checkBuffers_bind_congr _ _ _ _ fun hb => ?_
    rw [hr _ _ (hb ⟨s₂.a0, s₂.a1⟩ (by simp)), hr _ _ (hb ⟨s₂.a2, 15 - l⟩ (by simp)),
      hr _ _ (hb ⟨s₂.a3, s₂.a4⟩ (by simp)), hr _ _ (hb ⟨s₂.a5, s₂.a6⟩ (by simp))]
  | ccmDecrypt m l =>
    simp only [ruleOf, ccmDecryptRule, ccmChecks, ccmBuffers, ccmOpened, workingKey, bind_assoc, a0, a1, a2, a3, a4, a5,
      a6, a7, hc]
    refine bind_congr fun _ => bind_congr fun _ => bind_congr fun _ =>
      State.checkBuffers_bind_congr _ _ _ _ fun hb => ?_
    rw [hr _ _ (hb ⟨s₂.a0, s₂.a1⟩ (by simp)), hr _ _ (hb ⟨s₂.a2, 15 - l⟩ (by simp)),
      hr _ _ (hb ⟨s₂.a3, s₂.a4⟩ (by simp)), hr _ _ (hb ⟨s₂.a5, s₂.a6⟩ (by simp)), hr _ _ (hb ⟨s₂.a7, m⟩ (by simp))]
  | cmacCreate =>
    simp only [ruleOf, cmacCreateRule, a0, a1, hc, ha]
    refine bind_congr fun _ => State.checkBuffers_bind_congr _ _ _ _ fun hb => ?_
    rw [hr _ _ (hb _ (by simp))]
  | cmacUpdate h =>
    simp only [ruleOf, cmacUpdateRule, a0, a1, hc, hh]
    refine bind_congr fun _ => State.checkBuffers_bind_congr _ _ _ _ fun hb => ?_
    rw [hr _ _ (hb _ (by simp))]
  | cmacFinal h => simp only [ruleOf, cmacFinalRule, a0, hc, hh]
  | xcbcCreate v =>
    simp only [ruleOf, xcbcCreateRule, a0, a1, hc, ha]
    refine bind_congr fun _ => State.checkBuffers_bind_congr _ _ _ _ fun hb => ?_
    rw [hr _ _ (hb _ (by simp))]
  | xcbcUpdate h =>
    simp only [ruleOf, xcbcUpdateRule, a0, a1, hc, hh]
    refine bind_congr fun _ => State.checkBuffers_bind_congr _ _ _ _ fun hb => ?_
    rw [hr _ _ (hb _ (by simp))]
  | xcbcFinal h => simp only [ruleOf, xcbcFinalRule, a0, hc, hh]
  | eaxCreate =>
    simp only [ruleOf, eaxCreateRule, a0, a1, a2, a3, hc, ha]
    refine bind_congr fun _ => State.checkBuffers_bind_congr _ _ _ _ fun hb => ?_
    rw [hr _ _ (hb ⟨s₂.a0, s₂.a1⟩ (by simp)), hr _ _ (hb ⟨s₂.a2, s₂.a3⟩ (by simp))]
  | eaxHeader h =>
    simp only [ruleOf, eaxHeaderRule, a0, a1, hc, hh]
    refine bind_congr fun _ => State.checkBuffers_bind_congr _ _ _ _ fun hb => ?_
    rw [hr _ _ (hb _ (by simp))]
  | eaxEncrypt h =>
    simp only [ruleOf, eaxEncryptRule, a0, a1, hc, hh]
    refine bind_congr fun _ => State.checkBuffers_bind_congr _ _ _ _ fun hb => ?_
    rw [hr _ _ (hb _ (by simp))]
  | eaxDecrypt h =>
    simp only [ruleOf, eaxDecryptRule, a0, a1, hc, hh]
    refine bind_congr fun _ => State.checkBuffers_bind_congr _ _ _ _ fun hb => ?_
    rw [hr _ _ (hb _ (by simp))]
  | eaxFinal h t => simp only [ruleOf, eaxFinalRule, a0, hc, hh]
  | eaxGentag h t =>
    simp only [ruleOf, eaxGentagRule, a0, a1, a2, a3, a4, hc, hh]
    refine bind_congr fun _ => bind_congr fun _ => State.checkBuffers_bind_congr _ _ _ _ fun hb => ?_
    rw [hr _ _ (hb ⟨s₂.a0, s₂.a1⟩ (by simp)), hr _ _ (hb ⟨s₂.a2, s₂.a3⟩ (by simp))]
  | eaxGetpt h =>
    simp only [ruleOf, eaxGetptRule, a0, a1, hc, hh]
    refine bind_congr fun _ => State.checkBuffers_bind_congr _ _ _ _ fun hb => ?_
    rw [hr _ _ (hb _ (by simp))]
  | kwWrap =>
    simp only [ruleOf, kwWrapRule, kwKey, a0, a1, a2, a3, a4, hc]
    refine bind_congr fun _ => bind_congr fun _ => State.checkBuffers_bind_congr _ _ _ _ fun hb => ?_
    rw [hr _ _ (hb ⟨s₂.a0, s₂.a1⟩ (by simp)), hr _ _ (hb ⟨s₂.a2, s₂.a3⟩ (by simp))]
  | kwUnwrap =>
    simp only [ruleOf, kwUnwrapRule, kwKey, a0, a1, a2, a3, a4, hc]
    refine bind_congr fun _ => bind_congr fun _ => State.checkBuffers_bind_congr _ _ _ _ fun hb => ?_
    rw [hr _ _ (hb ⟨s₂.a0, s₂.a1⟩ (by simp)), hr _ _ (hb ⟨s₂.a2, s₂.a3⟩ (by simp))]
  | ctCompare =>
    simp only [ruleOf, ctCompareRule, a0, a1, a2, hc]
    refine State.checkBuffers_bind_congr _ _ _ _ fun hb => ?_
    rw [hr _ _ (hb ⟨s₂.a0, s₂.a2⟩ (by simp)), hr _ _ (hb ⟨s₂.a1, s₂.a2⟩ (by simp))]

/-! ### The kinds of a slot -/

theorem Slot.asCipher_eq_some (v : Slot) (c : CipherCtx) : v.asCipher = some c ↔ v = .cipher c := by
  cases v <;> simp [Slot.asCipher]

theorem Slot.asCtr_eq_some (v : Slot) (c : CtrState) : v.asCtr = some c ↔ v = .ctr c := by
  cases v <;> simp [Slot.asCtr]

theorem Slot.asCmac_eq_some (v : Slot) (c : CmacCtx) : v.asCmac = some c ↔ v = .cmac c := by
  cases v <;> simp [Slot.asCmac]

theorem Slot.asXcbc_eq_some (v : Slot) (c : XcbcCtx) : v.asXcbc = some c ↔ v = .xcbc c := by
  cases v <;> simp [Slot.asXcbc]

theorem Slot.asEax_eq_some (v : Slot) (c : EaxCtx) : v.asEax = some c ↔ v = .eax c := by
  cases v <;> simp [Slot.asEax]

/-! ### What a rule can do -/

/-- The slot change a command records: a create command fills the lowest EMPTY slot and returns its number; another command
returns 0 and changes at most the slot H names, which it empties (CTX_DESTROY) or keeps filled, and FINAL if it was. -/
def Effects.slotAllowed (i : Instr) (s : State) (e : Effects) : Prop :=
  (i.isCreate = true ∧ ∃ h v, s.lowestFree h ∧ v ≠ .empty ∧ v.phase = .opened ∧ e.slot = some (h, v) ∧ e.handle = h) ∨
  (i.isCreate = false ∧ e.handle = 0 ∧ (e.slot = none ∨
    ∃ h v, i.handle = some h ∧ e.slot = some (h, v) ∧
      ((i.isDestroy = true ∧ v = .empty) ∨
       (i.isDestroy = false ∧ s.slot h ≠ .empty ∧ v ≠ .empty ∧
        ((s.slot h).phase = .finalized → v.phase = .finalized)))))

/-- The writes a command queues: each one lies in an accepted buffer the command stores to. -/
def Effects.writesAllowed (i : Instr) (s : State) (e : Effects) : Prop :=
  ∀ w ∈ e.writes, ∃ b ∈ i.stores s, b.addr = w.1 ∧ w.2.length ≤ b.len ∧ s.accepts b

/-- Everything a rule can give: a code its command may report, or allowed effects. -/
def RuleDoes (i : Instr) (s : State) (r : CommandResult) : Prop :=
  (∃ c, r = .error c ∧ c ≠ .ok ∧ i.mayReport c = true) ∨
  (∃ e, r = .ok e ∧ e.writesAllowed i s ∧ e.slotAllowed i s)

/-- One check of a rule. -/
theorem RuleDoes.require (i : Instr) (s : State) (b : Bool) (c : StatusCode) (f : Unit → CommandResult) (hne : c ≠ .ok)
    (hc : i.mayReport c = true) (hf : b = true → RuleDoes i s (f ())) :
    RuleDoes i s (Machine.require b c >>= f) := by
  cases b with
  | true => exact hf rfl
  | false => exact .inl ⟨c, rfl, hne, hc⟩

/-- The buffer checks of a rule. -/
theorem RuleDoes.checkBuffers (i : Instr) (s : State) (bs : List Buffer) (f : Unit → CommandResult)
    (hn : i.mayReport .nullRef = true) (ha : i.mayReport .addrError = true)
    (hf : (∀ b ∈ bs, s.accepts b) → RuleDoes i s (f ())) : RuleDoes i s (s.checkBuffers bs >>= f) := by
  cases h : s.checkBuffers bs with
  | ok u => exact hf ((s.checkBuffers_ok bs).mp h)
  | error c =>
    rcases s.checkBuffers_error bs c h with rfl | rfl
    · exact .inl ⟨_, rfl, by simp, hn⟩
    · exact .inl ⟨_, rfl, by simp, ha⟩

/-- The slot allocation of a rule. -/
theorem RuleDoes.alloc (i : Instr) (s : State) (f : Nat → CommandResult) (hc : i.mayReport .allocFail = true)
    (hf : ∀ h, s.lowestFree h → RuleDoes i s (f h)) : RuleDoes i s (s.alloc >>= f) := by
  cases h : s.alloc with
  | ok u => exact hf _ ((s.alloc_ok u).mp h)
  | error c => have := s.alloc_error c h; subst this; exact .inl ⟨_, rfl, by simp, hc⟩

/-- The handle check of a rule. -/
theorem RuleDoes.checkHandle {α : Type} (i : Instr) (s : State) (h : Nat) (kind : Slot → Option α) (req : PhaseReq)
    (f : α → CommandResult) (he : kind .empty = none) (hn : i.mayReport .nullRef = true)
    (ha : i.mayReport .invalidArg = true) (hb : i.mayReport .badState = true)
    (hf : ∀ c, kind (s.slot h) = some c → ¬ (req = .mustBeOpen ∧ (s.slot h).phase = .finalized) →
      RuleDoes i s (f c)) : RuleDoes i s (s.checkHandle h kind req >>= f) := by
  cases hh : s.checkHandle h kind req with
  | ok u => have := (s.checkHandle_ok h kind req u he).mp hh; exact hf _ this.1 this.2
  | error c =>
    rcases s.checkHandle_error h kind req c hh with rfl | rfl | rfl
    · exact .inl ⟨_, rfl, by simp, hn⟩
    · exact .inl ⟨_, rfl, by simp, ha⟩
    · exact .inl ⟨_, rfl, by simp, hb⟩

/-- The end of a rule that stores nothing and fills a slot. -/
theorem RuleDoes.fill (i : Instr) (s : State) (h : Nat) (v : Slot) (hi : i.isCreate = true) (hf : s.lowestFree h)
    (hv : v ≠ .empty) (hp : v.phase = .opened) : RuleDoes i s (.ok { slot := some (h, v), handle := h }) :=
  .inr ⟨_, rfl, by simp [Effects.writesAllowed], .inl ⟨hi, h, v, hf, hv, hp, rfl, rfl⟩⟩

/-- The end of a rule that changes no slot. -/
theorem RuleDoes.store (i : Instr) (s : State) (ws : List (Nat × Bytes)) (hi : i.isCreate = false)
    (hw : ∀ w ∈ ws, ∃ b ∈ i.stores s, b.addr = w.1 ∧ w.2.length ≤ b.len ∧ s.accepts b) :
    RuleDoes i s (.ok { writes := ws }) :=
  .inr ⟨_, rfl, hw, .inr ⟨hi, rfl, .inl rfl⟩⟩

/-- The end of a rule that updates the slot H names. -/
theorem RuleDoes.update (i : Instr) (s : State) (h : Nat) (v : Slot) (ws : List (Nat × Bytes)) (hi : i.isCreate = false)
    (hd : i.isDestroy = false) (hh : i.handle = some h) (hne : s.slot h ≠ .empty) (hv : v ≠ .empty)
    (hp : (s.slot h).phase = .finalized → v.phase = .finalized)
    (hw : ∀ w ∈ ws, ∃ b ∈ i.stores s, b.addr = w.1 ∧ w.2.length ≤ b.len ∧ s.accepts b) :
    RuleDoes i s (.ok { slot := some (h, v), writes := ws }) :=
  .inr ⟨_, rfl, hw, .inr ⟨hi, rfl, .inr ⟨h, v, hh, rfl, .inr ⟨hd, hne, hv, hp⟩⟩⟩⟩

/-- No queued write. -/
theorem writesAllowed_nil (i : Instr) (s : State) :
    ∀ w ∈ ([] : List (Nat × Bytes)), ∃ b ∈ i.stores s, b.addr = w.1 ∧ w.2.length ≤ b.len ∧ s.accepts b := by simp

/-- One queued write, to the one buffer the command stores to. -/
theorem writesAllowed_one (i : Instr) (s : State) (b : Buffer) (x : Bytes) (hs : i.stores s = [b])
    (hx : x.length ≤ b.len) (ha : s.accepts b) :
    ∀ w ∈ [(b.addr, x)], ∃ b ∈ i.stores s, b.addr = w.1 ∧ w.2.length ≤ b.len ∧ s.accepts b := by
  intro w hw
  rw [List.mem_singleton.mp hw, hs]
  exact ⟨b, by simp, rfl, hx, ha⟩

/-- Two queued writes, to the two buffers the command stores to. -/
theorem writesAllowed_two (i : Instr) (s : State) (b c : Buffer) (x y : Bytes) (hs : i.stores s = [b, c])
    (hx : x.length ≤ b.len) (hy : y.length ≤ c.len) (hb : s.accepts b) (hc : s.accepts c) :
    ∀ w ∈ [(b.addr, x), (c.addr, y)],
      ∃ b ∈ i.stores s, b.addr = w.1 ∧ w.2.length ≤ b.len ∧ s.accepts b := by
  intro w hw
  rw [hs]
  rcases List.mem_cons.mp hw with rfl | hw
  · exact ⟨b, by simp, rfl, hx, hb⟩
  · rw [List.mem_singleton.mp hw]; exact ⟨c, by simp, rfl, hy, hc⟩

/-- The writes of BLOCK_MODE go to the buffers it checks. -/
theorem blockModeWrites_allowed (h : Nat) (dir : Dir) (s : State) (c : CipherCtx) (hc : s.slot h = .cipher c)
    (hl : s.a1 % 16 = 0) (hb : ∀ b ∈ blockModeBuffers c.mode s, s.accepts b) :
    ∀ w ∈ blockModeWrites c s,
      ∃ b ∈ (Instr.blockMode h dir).stores s, b.addr = w.1 ∧ w.2.length ≤ b.len ∧ s.accepts b := by
  unfold blockModeWrites
  simp only
  split
  · simp
  · next h0 =>
    have hst : (Instr.blockMode h dir).stores s = blockModeBuffers c.mode s := by simp [Instr.stores, hc, h0]
    have hlen : 16 * (s.a1 / 16) ≤ s.a1 := by omega
    cases hm : c.mode
    · rw [hm] at hst hb
      exact writesAllowed_one _ s ⟨s.a0, s.a1⟩ _ hst (by simpa [ecbBlocks, wholeBlocks] using hlen) (hb _ (by simp [blockModeBuffers]))
    · rw [hm] at hst hb
      exact writesAllowed_two _ s ⟨s.a0, s.a1⟩ ⟨s.a2, 16⟩ _ _ hst (by simpa [wholeBlocks] using hlen) (by simp)
        (hb _ (by simp [blockModeBuffers])) (hb _ (by simp [blockModeBuffers]))

/-! ### Every rule, family by family -/

/-- The context and block commands. -/
theorem contextRules_do (s : State) (h mode : Nat) (dir : Dir) :
    RuleDoes (.ctxCreate dir mode) s (ctxCreateRule dir mode s) ∧ RuleDoes (.ctxDestroy h) s (ctxDestroyRule h s) ∧
    RuleDoes (.aesBlock h dir) s (aesBlockRule h dir s) ∧ RuleDoes (.blockMode h dir) s (blockModeRule h dir s) := by
  refine ⟨?_, ?_, ?_, ?_⟩
  · exact .require _ _ _ _ _ (by simp) rfl fun _ => .require _ _ _ _ _ (by simp) rfl fun _ =>
      .checkBuffers _ _ _ _ rfl rfl fun _ => .alloc _ _ _ rfl fun k hk => .fill _ _ k _ rfl hk (by simp) rfl
  · unfold ctxDestroyRule
    split
    · exact .store _ _ [] rfl (writesAllowed_nil _ s)
    · split
      · exact .inl ⟨_, rfl, by simp, rfl⟩
      · exact .inr ⟨_, rfl, by simp [Effects.writesAllowed], .inr ⟨rfl, rfl, .inr ⟨h, _, rfl, rfl, .inl ⟨rfl, rfl⟩⟩⟩⟩
  · refine .checkHandle _ _ _ _ _ _ rfl rfl rfl rfl fun c hc _ => .require _ _ _ _ _ (by simp) rfl fun _ =>
      .checkBuffers _ _ _ _ rfl rfl fun hb => .store _ _ _ rfl ?_
    exact writesAllowed_one _ s ⟨s.a1, 16⟩ _ rfl (by simp) (hb _ (by simp))
  · refine .checkHandle _ _ _ _ _ _ rfl rfl rfl rfl fun c hc _ => .require _ _ _ _ _ (by simp) rfl fun _ =>
      .require _ _ _ _ _ (by simp) rfl fun hl => .checkBuffers _ _ _ _ rfl rfl fun hb => .store _ _ _ rfl ?_
    exact blockModeWrites_allowed h dir s c ((Slot.asCipher_eq_some _ _).mp hc) (by simpa using hl) hb

/-- The CTR commands. -/
theorem ctrRules_do (s : State) (h lim : Nat) :
    RuleDoes .ctrCreate s (ctrCreateRule s) ∧ RuleDoes (.ctrApply h lim) s (ctrApplyRule h lim s) := by
  refine ⟨?_, ?_⟩
  · unfold ctrCreateRule
    split
    · exact .require _ _ _ _ _ (by simp) rfl fun _ => .checkBuffers _ _ _ _ rfl rfl fun _ =>
        .alloc _ _ _ rfl fun k hk => .fill _ _ k _ rfl hk (by simp) rfl
    · exact .require _ _ _ _ _ (by simp) rfl fun _ => .checkBuffers _ _ _ _ rfl rfl fun _ =>
        .alloc _ _ _ rfl fun k hk => .fill _ _ k _ rfl hk (by simp) rfl
  · refine .checkHandle _ _ _ _ _ _ rfl rfl rfl rfl fun c hc _ => .require _ _ _ _ _ (by simp) rfl fun _ =>
      .checkBuffers _ _ _ _ rfl rfl fun hb => ?_
    rw [Slot.asCtr_eq_some] at hc
    refine .update _ _ _ _ _ rfl rfl rfl (by simp [hc]) (by simp) (by simp [hc, Slot.phase]) ?_
    exact writesAllowed_one _ s ⟨s.a0, s.a1⟩ _ rfl (by simp [ctrApply]) (hb _ (by unfold ctrApplyBuffers; split <;> simp))

/-- The CCM commands. -/
theorem ccmRules_do (s : State) (m l : Nat) :
    RuleDoes (.ccmEncrypt m l) s (ccmEncryptRule m l s) ∧ RuleDoes (.ccmDecrypt m l) s (ccmDecryptRule m l s) := by
  refine ⟨?_, ?_⟩
  · simp only [ccmEncryptRule, ccmChecks, bind_assoc]
    refine .require _ _ _ _ _ (by simp) rfl fun _ => .require _ _ _ _ _ (by simp) rfl fun _ =>
      .require _ _ _ _ _ (by simp) rfl fun _ => .checkBuffers _ _ _ _ rfl rfl fun hb => .store _ _ _ rfl ?_
    exact writesAllowed_two _ s ⟨s.a3, s.a4⟩ ⟨s.a7, m⟩ _ _ rfl (by simp [ccmSealed, ccmSeal, ctrApply])
      (by simp [ccmSealed, ccmSeal, ccmTag]) (hb _ (by simp [ccmBuffers])) (hb _ (by simp [ccmBuffers]))
  · simp only [ccmDecryptRule, ccmChecks, bind_assoc]
    refine .require _ _ _ _ _ (by simp) rfl fun _ => .require _ _ _ _ _ (by simp) rfl fun _ =>
      .require _ _ _ _ _ (by simp) rfl fun _ => .checkBuffers _ _ _ _ rfl rfl fun hb =>
      .require _ _ _ _ _ (by simp) rfl fun _ => .store _ _ _ rfl ?_
    exact writesAllowed_one _ s ⟨s.a3, s.a4⟩ _ rfl (by simp [ccmOpened, ccmOpen, ctrApply])
      (hb _ (by simp [ccmBuffers]))

/-- The CMAC commands. -/
theorem cmacRules_do (s : State) (h : Nat) :
    RuleDoes .cmacCreate s (cmacCreateRule s) ∧ RuleDoes (.cmacUpdate h) s (cmacUpdateRule h s) ∧
    RuleDoes (.cmacFinal h) s (cmacFinalRule h s) := by
  refine ⟨?_, ?_, ?_⟩
  · exact .require _ _ _ _ _ (by simp) rfl fun _ => .checkBuffers _ _ _ _ rfl rfl fun _ =>
      .alloc _ _ _ rfl fun k hk => .fill _ _ k _ rfl hk (by simp) rfl
  · refine .checkHandle _ _ _ _ _ _ rfl rfl rfl rfl fun c hc _ => .checkBuffers _ _ _ _ rfl rfl fun hb => ?_
    rw [Slot.asCmac_eq_some] at hc
    exact .update _ _ _ _ _ rfl rfl rfl (by simp [hc]) (by simp) (by simp [hc, Slot.phase]) (writesAllowed_nil _ s)
  · refine .checkHandle _ _ _ _ _ _ rfl rfl rfl rfl fun c hc _ => .checkBuffers _ _ _ _ rfl rfl fun hb => ?_
    rw [Slot.asCmac_eq_some] at hc
    refine .update _ _ _ _ _ rfl rfl rfl (by simp [hc]) (by simp) (by simp [Slot.phase]) ?_
    exact writesAllowed_one _ s ⟨s.a0, 16⟩ _ rfl (by simp) (hb _ (by simp))

/-- The XCBC commands. -/
theorem xcbcRules_do (s : State) (h : Nat) (v : XcbcVariant) :
    RuleDoes (.xcbcCreate v) s (xcbcCreateRule v s) ∧ RuleDoes (.xcbcUpdate h) s (xcbcUpdateRule h s) ∧
    RuleDoes (.xcbcFinal h) s (xcbcFinalRule h s) := by
  refine ⟨?_, ?_, ?_⟩
  · have hrest : RuleDoes (.xcbcCreate v) s (do
        s.checkBuffers [⟨s.a0, s.a1⟩]
        let k ← s.alloc
        .ok { slot := some (k, .xcbc (xcbcInit v (s.memRead s.a0 s.a1))), handle := k }) :=
      .checkBuffers _ _ _ _ rfl rfl fun _ => .alloc _ _ _ rfl fun k hk => .fill _ _ k _ rfl hk (by simp) rfl
    cases v with
    | mac96 => exact .require _ _ _ _ _ (by simp) rfl fun _ => hrest
    | prf128 => exact hrest
  · refine .checkHandle _ _ _ _ _ _ rfl rfl rfl rfl fun c hc _ => .checkBuffers _ _ _ _ rfl rfl fun hb => ?_
    rw [Slot.asXcbc_eq_some] at hc
    exact .update _ _ _ _ _ rfl rfl rfl (by simp [hc]) (by simp) (by simp [hc, Slot.phase]) (writesAllowed_nil _ s)
  · refine .checkHandle _ _ _ _ _ _ rfl rfl rfl rfl fun c hc _ => .checkBuffers _ _ _ _ rfl rfl fun hb => ?_
    rw [Slot.asXcbc_eq_some] at hc
    refine .update _ _ _ _ _ rfl rfl rfl (by simp [hc]) (by simp) (by simp [Slot.phase]) ?_
    exact writesAllowed_one _ s ⟨s.a0, c.outLen⟩ _ (by simp [Instr.stores, hc]) (by simp) (hb _ (by simp))

/-- The EAX commands but the tags. -/
theorem eaxRules_do (s : State) (h : Nat) :
    RuleDoes .eaxCreate s (eaxCreateRule s) ∧ RuleDoes (.eaxHeader h) s (eaxHeaderRule h s) ∧
    RuleDoes (.eaxEncrypt h) s (eaxEncryptRule h s) ∧ RuleDoes (.eaxDecrypt h) s (eaxDecryptRule h s) ∧
    RuleDoes (.eaxGetpt h) s (eaxGetptRule h s) := by
  refine ⟨?_, ?_, ?_, ?_, ?_⟩
  · exact .require _ _ _ _ _ (by simp) rfl fun _ => .checkBuffers _ _ _ _ rfl rfl fun _ =>
      .alloc _ _ _ rfl fun k hk => .fill _ _ k _ rfl hk (by simp) rfl
  · refine .checkHandle _ _ _ _ _ _ rfl rfl rfl rfl fun c hc _ => .checkBuffers _ _ _ _ rfl rfl fun hb => ?_
    rw [Slot.asEax_eq_some] at hc
    exact .update _ _ _ _ _ rfl rfl rfl (by simp [hc]) (by simp) (by simp [hc, Slot.phase, EaxCtx.header])
      (writesAllowed_nil _ s)
  · refine .checkHandle _ _ _ _ _ _ rfl rfl rfl rfl fun c hc _ => .checkBuffers _ _ _ _ rfl rfl fun hb => ?_
    rw [Slot.asEax_eq_some] at hc
    refine .update _ _ _ _ _ rfl rfl rfl (by simp [hc]) (by simp)
      (by simp [hc, Slot.phase, EaxCtx.encrypt, EaxCtx.stream, EaxCtx.absorb]) ?_
    exact writesAllowed_one _ s ⟨s.a0, s.a1⟩ _ rfl (by simp) (hb _ (by simp))
  · refine .checkHandle _ _ _ _ _ _ rfl rfl rfl rfl fun c hc _ => .checkBuffers _ _ _ _ rfl rfl fun hb => ?_
    rw [Slot.asEax_eq_some] at hc
    refine .update _ _ _ _ _ rfl rfl rfl (by simp [hc]) (by simp)
      (by simp [hc, Slot.phase, EaxCtx.decrypt, EaxCtx.stream, EaxCtx.absorb]) ?_
    exact writesAllowed_one _ s ⟨s.a0, s.a1⟩ _ rfl (by simp) (hb _ (by simp))
  · refine .checkHandle _ _ _ _ _ _ rfl rfl rfl rfl fun c hc _ => .checkBuffers _ _ _ _ rfl rfl fun hb => ?_
    rw [Slot.asEax_eq_some] at hc
    refine .update _ _ _ _ _ rfl rfl rfl (by simp [hc]) (by simp) (by simp [hc, Slot.phase, EaxCtx.stream]) ?_
    exact writesAllowed_one _ s ⟨s.a0, s.a1⟩ _ rfl (by simp) (hb _ (by simp))

/-- The EAX tags. -/
theorem eaxTagRules_do (s : State) (h t : Nat) :
    RuleDoes (.eaxFinal h t) s (eaxFinalRule h t s) ∧ RuleDoes (.eaxGentag h t) s (eaxGentagRule h t s) := by
  refine ⟨?_, ?_⟩
  · refine .checkHandle _ _ _ _ _ _ rfl rfl rfl rfl fun c hc _ => .require _ _ _ _ _ (by simp) rfl fun _ =>
      .checkBuffers _ _ _ _ rfl rfl fun hb => ?_
    rw [Slot.asEax_eq_some] at hc
    refine .update _ _ _ _ _ rfl rfl rfl (by simp [hc]) (by simp) (by simp [Slot.phase, EaxCtx.close]) ?_
    exact writesAllowed_one _ s ⟨s.a0, t⟩ _ rfl (by simp) (hb _ (by simp))
  · refine .checkHandle _ _ _ _ _ _ rfl rfl rfl rfl fun c hc _ => .require _ _ _ _ _ (by simp) rfl fun _ =>
      .checkBuffers _ _ _ _ rfl rfl fun hb => ?_
    rw [Slot.asEax_eq_some] at hc
    refine .update _ _ _ _ _ rfl rfl rfl (by simp [hc]) (by simp) (by simp [Slot.phase, EaxCtx.close]) ?_
    exact writesAllowed_one _ s ⟨s.a4, t⟩ _ rfl (by simp) (hb _ (by simp))

/-- Key Wrap and the comparison. -/
theorem statelessRules_do (s : State) :
    RuleDoes .kwWrap s (kwWrapRule s) ∧ RuleDoes .kwUnwrap s (kwUnwrapRule s) ∧
    RuleDoes .ctCompare s (ctCompareRule s) := by
  refine ⟨?_, ?_, ?_⟩
  · refine .require _ _ _ _ _ (by simp) rfl fun hl => .require _ _ _ _ _ (by simp) rfl fun _ =>
      .checkBuffers _ _ _ _ rfl rfl fun hb => .store _ _ _ rfl ?_
    have hl' : s.a3 % 8 = 0 := (of_decide_eq_true hl).1
    exact writesAllowed_one _ s ⟨s.a4, s.a3 + 8⟩ _ rfl (by simp [kwWrap_length, hl']) (hb _ (by simp))
  · refine .require _ _ _ _ _ (by simp) rfl fun hl => .require _ _ _ _ _ (by simp) rfl fun _ =>
      .checkBuffers _ _ _ _ rfl rfl fun hb => .require _ _ _ _ _ (by simp) rfl fun _ => .store _ _ _ rfl ?_
    have hl' : s.a3 % 8 = 0 := (of_decide_eq_true hl).1
    exact writesAllowed_one _ s ⟨s.a4, s.a3 - 8⟩ _ rfl (by simp [kwUnwrap_length, hl']) (hb _ (by simp))
  · exact .checkBuffers _ _ _ _ rfl rfl fun hb => .require _ _ _ _ _ (by simp) rfl fun _ =>
      .store _ _ [] rfl (writesAllowed_nil _ s)

/-- Everything the rule of any command can give. -/
theorem ruleOf_does (i : Instr) (s : State) : RuleDoes i s (ruleOf i s) := by
  cases i with
  | ctxCreate dir mode => exact (contextRules_do s 0 mode dir).1
  | ctxDestroy h => exact (contextRules_do s h 0 .enc).2.1
  | aesBlock h dir => exact (contextRules_do s h 0 dir).2.2.1
  | blockMode h dir => exact (contextRules_do s h 0 dir).2.2.2
  | ctrCreate => exact (ctrRules_do s 0 0).1
  | ctrApply h lim => exact (ctrRules_do s h lim).2
  | ccmEncrypt m l => exact (ccmRules_do s m l).1
  | ccmDecrypt m l => exact (ccmRules_do s m l).2
  | cmacCreate => exact (cmacRules_do s 0).1
  | cmacUpdate h => exact (cmacRules_do s h).2.1
  | cmacFinal h => exact (cmacRules_do s h).2.2
  | xcbcCreate v => exact (xcbcRules_do s 0 v).1
  | xcbcUpdate h => exact (xcbcRules_do s h .mac96).2.1
  | xcbcFinal h => exact (xcbcRules_do s h .mac96).2.2
  | eaxCreate => exact (eaxRules_do s 0).1
  | eaxHeader h => exact (eaxRules_do s h).2.1
  | eaxEncrypt h => exact (eaxRules_do s h).2.2.1
  | eaxDecrypt h => exact (eaxRules_do s h).2.2.2.1
  | eaxFinal h t => exact (eaxTagRules_do s h t).1
  | eaxGentag h t => exact (eaxTagRules_do s h t).2
  | eaxGetpt h => exact (eaxRules_do s h).2.2.2.2
  | kwWrap => exact (statelessRules_do s).1
  | kwUnwrap => exact (statelessRules_do s).2.1
  | ctCompare => exact (statelessRules_do s).2.2

end Sys2Proof.Machine
end

