-- ==== Sys2Proof/Tests/Slice0.lean ====
section
/-! SUPPORT. The model's own tests: the smoke tests of WellFormed, the decoding of one word per command written out from rules
R101 to R104, the tables of the block cipher, one step per command with values of spec/95_test_vectors.md, and for every
statement with hypotheses a state that meets them. -/
namespace Sys2Proof.Tests

set_option Elab.async false

open Sys2Proof.Machine

/-! ### WellFormed: one ill-formed term per check -/

theorem test_illFormed_mode : (Instr.ctxCreate .enc 4).wf = false := by decide

theorem test_illFormed_handle :
    [Instr.ctxDestroy 256, .aesBlock 256 .enc, .blockMode 256 .dec, .ctrApply 256 0, .cmacUpdate 256, .cmacFinal 256,
      .xcbcUpdate 256, .xcbcFinal 256, .eaxHeader 256, .eaxEncrypt 256, .eaxDecrypt 256, .eaxFinal 256 0,
      .eaxGentag 256 0, .eaxGetpt 256].all (fun i => !i.wf) = true := by decide

theorem test_illFormed_otherField :
    [Instr.ctrApply 0 256, .ccmEncrypt 256 0, .ccmEncrypt 0 256, .ccmDecrypt 256 0, .ccmDecrypt 0 256,
      .eaxFinal 0 256, .eaxGentag 0 256].all (fun i => !i.wf) = true := by decide

/-! ### Decoding: words put together as Q ‖ P ‖ H ‖ OP from rules R101 to R103 -/

theorem test_decode_context :
    decode (0b00000011#8 ++ 0x00#8 ++ 0x00#8 ++ 0x01#8) = .ok (.ctxCreate .dec 1) ∧
    decode (0x00#8 ++ 0x00#8 ++ 0xFF#8 ++ 0x02#8) = .ok (.ctxDestroy 255) ∧
    decode (0x01#8 ++ 0x00#8 ++ 0x02#8 ++ 0x03#8) = .ok (.aesBlock 2 .dec) ∧
    decode (0x00#8 ++ 0x00#8 ++ 0x07#8 ++ 0x04#8) = .ok (.blockMode 7 .enc) := by decide

theorem test_decode_ctr_ccm :
    decode (0x00#8 ++ 0x00#8 ++ 0x00#8 ++ 0x10#8) = .ok .ctrCreate ∧
    decode (0x00#8 ++ 0x10#8 ++ 0x01#8 ++ 0x11#8) = .ok (.ctrApply 1 16) ∧
    decode (0x02#8 ++ 0x08#8 ++ 0x00#8 ++ 0x20#8) = .ok (.ccmEncrypt 8 2) ∧
    decode (0x02#8 ++ 0x08#8 ++ 0x00#8 ++ 0x21#8) = .ok (.ccmDecrypt 8 2) := by decide

theorem test_decode_mac :
    decode (0x00#8 ++ 0x00#8 ++ 0x00#8 ++ 0x30#8) = .ok .cmacCreate ∧
    decode (0x00#8 ++ 0x00#8 ++ 0x01#8 ++ 0x31#8) = .ok (.cmacUpdate 1) ∧
    decode (0x00#8 ++ 0x00#8 ++ 0x01#8 ++ 0x32#8) = .ok (.cmacFinal 1) ∧
    decode (0x01#8 ++ 0x00#8 ++ 0x00#8 ++ 0x38#8) = .ok (.xcbcCreate .prf128) ∧
    decode (0x00#8 ++ 0x00#8 ++ 0x01#8 ++ 0x39#8) = .ok (.xcbcUpdate 1) ∧
    decode (0x00#8 ++ 0x00#8 ++ 0x01#8 ++ 0x3A#8) = .ok (.xcbcFinal 1) := by decide

theorem test_decode_eax :
    decode (0x00#8 ++ 0x00#8 ++ 0x00#8 ++ 0x40#8) = .ok .eaxCreate ∧
    decode (0x00#8 ++ 0x00#8 ++ 0x01#8 ++ 0x41#8) = .ok (.eaxHeader 1) ∧
    decode (0x00#8 ++ 0x00#8 ++ 0x01#8 ++ 0x42#8) = .ok (.eaxEncrypt 1) ∧
    decode (0x00#8 ++ 0x00#8 ++ 0x01#8 ++ 0x43#8) = .ok (.eaxDecrypt 1) ∧
    decode (0x00#8 ++ 0x10#8 ++ 0x01#8 ++ 0x44#8) = .ok (.eaxFinal 1 16) ∧
    decode (0x00#8 ++ 0x0C#8 ++ 0x01#8 ++ 0x45#8) = .ok (.eaxGentag 1 12) ∧
    decode (0x00#8 ++ 0x00#8 ++ 0x01#8 ++ 0x46#8) = .ok (.eaxGetpt 1) := by decide

theorem test_decode_keywrap_compare :
    decode (0x00#8 ++ 0x00#8 ++ 0x00#8 ++ 0x50#8) = .ok .kwWrap ∧
    decode (0x00#8 ++ 0x00#8 ++ 0x00#8 ++ 0x51#8) = .ok .kwUnwrap ∧
    decode (0x00#8 ++ 0x00#8 ++ 0x00#8 ++ 0x60#8) = .ok .ctCompare := by decide

/-- T-DEC-1 to T-DEC-9: reserved OP values, and defined ones with a field that must be zero. -/
theorem test_decode_illegal :
    decode 0x00000000 = .error (.reservedOpcode 0) ∧ decode 0x00000005 = .error (.reservedOpcode 5) ∧
    decode 0x000000FF = .error (.reservedOpcode 255) ∧ decode 0x00010001 = .error (.fieldNotZero 1) ∧
    decode 0x08000001 = .error (.fieldNotZero 1) ∧ decode 0x00000101 = .error (.fieldNotZero 1) ∧
    decode 0x02000103 = .error (.fieldNotZero 3) ∧ decode 0x02000038 = .error (.fieldNotZero 0x38) ∧
    decode 0x00010302 = .error (.fieldNotZero 2) := by decide

/-- The rows of the opcode table do not overlap: of any two, some bit under both masks differs. -/
theorem test_opcodeRows_disjoint :
    opcodeTable.Pairwise (fun r q => (r.matchBits ^^^ q.matchBits) &&& (r.mask &&& q.mask) ≠ 0) := by decide +kernel

/-- The words of programs P1, P2, P4 and P5, by the assembler of rule R109 and the pseudo-instructions of rule R111. -/
theorem test_encode_programWords :
    encode (.ctxCreate .enc 0) = 0x00000001 ∧ encode (.aesCoreDecrypt 2) = 0x01000203 ∧
    encode (.ctrApply 1 4) = 0x00040111 ∧ encode (.ccmDecrypt 8 2) = 0x02080021 ∧
    encode (.eaxGentag 1 16) = 0x00100145 ∧ encode .xcbcPrf128Create = 0x01000038 := by decide

/-- The examples of rule R109. -/
theorem test_assemble :
    assemble "CTX_CREATE" [.dir .dec, .mode 1] = some 0x03000001 ∧ assemble "CTR_APPLY" [.h 2, .p 16] = some 0x00100211 ∧
    assemble "CCM_ENCRYPT" [.p 8, .q 2] = some 0x02080020 := by decide +kernel

/-- A handle that H cannot hold does not run over into P. -/
theorem test_assemble_valueThatDoesNotFit : assemble "CTR_APPLY" [.h 256] = none := by decide +kernel

theorem test_decodeTableWord : decodeTableWord 32 0x00100145 = some (.eaxGentag 1 16) ∧
    decodeTableWord 32 0x00000005 = none := by decide

/-! ### The tables of the block cipher -/

/-- Rule R144: INV_SBOX undoes SBOX. -/
theorem test_invSbox_inverse : ∀ x : Byte, invSbox (sbox x) = x ∧ sbox (invSbox x) = x := by decide +kernel

/-- Rule R143: the table against the definition. Undoing the affine map on SBOX[x] gives the byte y with x • y = 1 (y = 0 for
x = 0), and SBOX[x] is y XOR its rotations by 1 to 4 XOR 0x63. -/
theorem test_sbox_definition : ∀ x : Byte,
    let z := sbox x ^^^ 0x63
    let y := z.rotateLeft 1 ^^^ z.rotateLeft 3 ^^^ z.rotateLeft 6
    gmul x y = (if x = 0 then 0 else 1) ∧ (x = 0 → y = 0) ∧
      y ^^^ y.rotateLeft 1 ^^^ y.rotateLeft 2 ^^^ y.rotateLeft 3 ^^^ y.rotateLeft 4 ^^^ 0x63 = sbox x := by
  decide +kernel

/-- The examples of rule R142. -/
theorem test_field_examples : xtime 0x57 = 0xAE ∧ gmul 0x57 0x83 = 0xC1 ∧ gmul 0x57 0x13 = 0xFE := by decide

/-! ### A small machine for the step tests -/

/-- Key 000102…0f of spec/95_test_vectors.md. -/
def key0 : Bytes := beBytes 16 0x000102030405060708090a0b0c0d0e0f

/-- The key of the NIST and RFC 4493 vectors V4, V5 and V8. -/
def nistKey : Bytes := beBytes 16 0x2b7e151628aed2a6abf7158809cf4f3c

/-- A machine with two slots and 256 bytes of memory, the given arguments, slots and written bytes. -/
def machine (args : List Word) (slots : List Slot) (mem : List (Nat × Bytes)) : State :=
  { State.resetWith 2 256 with
    args := ⟨args.getD 0 0, args.getD 1 0, args.getD 2 0, args.getD 3 0, args.getD 4 0, args.getD 5 0, args.getD 6 0,
      args.getD 7 0⟩
    slots := slots
    mem := Memory.commit [] mem }

/-- A field of the state after a command. -/
def after {α : Type} (i : Instr) (s : State) (f : State → α) : Option α :=
  match exec i s with
  | .next t => some (f t)
  | _ => none

/-- The code and the bytes at an address after a command. -/
def outcome (i : Instr) (s : State) (addr n : Nat) : Option (StatusCode × Nat) :=
  after i s fun t => (t.code, intBE (t.memRead addr n))

/-- A CIPHER slot. -/
def cipherSlot (dir : Dir) (mode : CipherMode) (key : Bytes) : Slot := .cipher ⟨dir, mode, key.length, expandKey key⟩

/-! ### One step per command, with the values of spec/95_test_vectors.md -/

/-- V2: words of the expanded keys. -/
theorem test_expandKey_vectors :
    (expandKey nistKey).word 4 = 0xa0fafe17 ∧ (expandKey nistKey).word 43 = 0xb6630ca6 ∧
    (expandKey (beBytes 24 0x000102030405060708090a0b0c0d0e0f1011121314151617)).word 51 = 0xe3a41d5d ∧
    (expandKey (beBytes 32 0x000102030405060708090a0b0c0d0e0f101112131415161718191a1b1c1d1e1f)).word 59 = 0x6d68de36 := by
  decide +kernel

/-- T-KEY-6: slot 1, key length 16, 10 rounds. -/
theorem test_ctxCreate_fillsSlotOne :
    after (.ctxCreate .enc 0) (machine [0x10, 16] [.empty, .empty] [(0x10, key0)])
      (fun t => (t.result, (t.slot 1).asCipher.map fun c => (c.mode, c.keyLen, c.ks.nr))) =
      some (1, some (.ecb, 16, 10)) := by decide +kernel

/-- T-KEY-3 and T-KEY-7: mode 2, and key length 0 before the null reference. -/
theorem test_ctxCreate_refusesModeAndLength :
    after (.ctxCreate .enc 2) (machine [0x10, 16] [.empty] []) State.code = some .invalidArg ∧
    after (.ctxCreate .enc 0) (machine [0, 0] [.empty] []) State.code = some .invalidKeyLen := by decide +kernel

/-- T-ALLOC-2 to T-ALLOC-4: the slot is emptied; the null handle is a no-op; a handle above NSLOT is an error. -/
theorem test_ctxDestroy :
    after (.ctxDestroy 2) (machine [] [.empty, .ctr ⟨⟨10, []⟩, 0, 0, 0⟩] []) (fun t => (t.code, t.slots)) =
      some (.ok, [.empty, .empty]) ∧
    after (.ctxDestroy 0) (machine [] [.empty] []) State.code = some .ok ∧
    after (.ctxDestroy 3) (machine [] [.empty, .empty] []) State.code = some .invalidArg := by decide +kernel

/-- V1, AES-128, encryption to the last bytes of memory. -/
theorem test_aesBlock_encrypt :
    outcome (.aesBlock 1 .enc) (machine [0x20, 0xF0] [cipherSlot .enc .ecb key0, .empty]
      [(0x20, beBytes 16 0x00112233445566778899aabbccddeeff)]) 0xF0 16 =
      some (.ok, 0x69c4e0d86a7b0430d8cdb78070b4c55a) := by decide +kernel

/-- V1, AES-256, decryption in place. -/
theorem test_aesBlock_decrypt :
    outcome (.aesBlock 2 .dec) (machine [0x20, 0x20] [.empty, cipherSlot .dec .ecb
      (beBytes 32 0x000102030405060708090a0b0c0d0e0f101112131415161718191a1b1c1d1e1f)]
      [(0x20, beBytes 16 0x8ea2b7ca516745bfeafc49904b496089)]) 0x20 16 =
      some (.ok, 0x00112233445566778899aabbccddeeff) := by decide +kernel

/-- T-KEY-4, T-KEY-5, T-HDL-2 and T-HDL-7, at the end of 256 bytes: a null key, a key and a destination that run over the end,
two null buffers. And rule R441's order on EAX_CREATE: the null nonce comes before the key that runs over the end. -/
theorem test_bufferChecks :
    after (.ctxCreate .enc 0) (machine [0, 16] [.empty] []) State.code = some .nullRef ∧
    after (.ctxCreate .enc 0) (machine [0xFA, 16] [.empty] []) State.code = some .addrError ∧
    after (.aesBlock 1 .enc) (machine [0x20, 0xF1] [.cipher ⟨.enc, .ecb, 16, ⟨10, []⟩⟩] []) State.code = some .addrError ∧
    after (.aesBlock 1 .enc) (machine [0, 0] [.cipher ⟨.enc, .ecb, 16, ⟨10, []⟩⟩] []) State.code = some .nullRef ∧
    after .eaxCreate (machine [0xFA, 16, 0, 1] [.empty] []) State.code = some .nullRef := by decide +kernel

/-- V4, second block; ECB decryption. -/
theorem test_blockMode_ecb :
    outcome (.blockMode 1 .dec) (machine [0x20, 16] [cipherSlot .dec .ecb nistKey]
      [(0x20, beBytes 16 0xf5d3d58503b9699de785895a96fdbaaf)]) 0x20 16 =
      some (.ok, 0xae2d8a571e03ac9c9eb76fac45af8e51) := by decide +kernel

/-- V5, first two blocks, and the IV buffer after them. -/
theorem test_blockMode_cbc :
    after (.blockMode 1 .enc) (machine [0x20, 32, 0x80] [cipherSlot .enc .cbc nistKey]
      [(0x20, beBytes 32 0x6bc1bee22e409f96e93d7e117393172aae2d8a571e03ac9c9eb76fac45af8e51), (0x80, key0)])
      (fun t => (intBE (t.memRead 0x20 32), intBE (t.memRead 0x80 16))) =
      some (0x7649abac8119b246cee98e9b12e9197d5086cb9b507219ee95db113a917678b2,
        0x5086cb9b507219ee95db113a917678b2) := by decide +kernel

/-- V6, vector 1: the combined key material. -/
theorem test_ctrCreate_combined :
    after .ctrCreate (machine [0x10, 32, 0] [.empty]
      [(0x10, beBytes 32 0xAE6852F8121067CC4BF7A5765577F39E00000030000000000000000000000001)])
      (fun t => (t.code, t.result, (t.slot 1).asCtr.map fun c => (c.ks.word 0, c.counter, c.offset))) =
      some (.ok, 1, some (0xAE6852F8, 0x00000030000000000000000000000001, 0)) := by decide +kernel

/-- T-CTR-8: key material of 15 and of 16 bytes. -/
theorem test_ctrCreate_tooShort :
    after .ctrCreate (machine [0x10, 15] [.empty] []) State.code = some .invalidKeyLen ∧
    after .ctrCreate (machine [0x10, 16] [.empty] []) State.code = some .invalidKeyLen := by decide +kernel

/-- The CTR slot of V6, vector 2. -/
def ctrSlot : Slot :=
  .ctr ⟨expandKey (beBytes 16 0x7E24067817FAE0D743D6CE1F32539163), 0x006CB6DBC0543B59DA48D90B00000001, 0, 0⟩

/-- T-CTR-7: the first 5 bytes of vector 2, and the slot after them. -/
theorem test_ctrApply_partialBlock :
    after (.ctrApply 1 4) (machine [0x20, 5, 0] [ctrSlot] [(0x20, [0, 1, 2, 3, 4])])
      (fun t => (t.code, intBE (t.memRead 0x20 5), (t.slot 1).asCtr.map fun c => (c.counter, c.encBlock, c.offset))) =
      some (.ok, 0x5104A10616, some (0x006CB6DBC0543B59DA48D90B00000002, 0x5105a305128f74de71044be582d7dd87, 5)) := by
  decide +kernel

/-- T-CTR-3 and T-CTR-5: wrap inside 4 bytes, no increment for 0, one byte. -/
theorem test_ctrInc :
    ctrInc 0x000000300000000000000000ffffffff 4 = 0x00000030000000000000000000000000 ∧
    ctrInc 0xffffffffffffffffffffffffffffffff 0 = 0xffffffffffffffffffffffffffffffff ∧
    ctrInc 0x000102030405060708090a0b0c0d0eff 1 = 0x000102030405060708090a0b0c0d0e00 := by decide

/-- The operands of V7: key, nonce, data, AAD, tag. -/
def ccmMachine (data tag : Bytes) : State :=
  machine [0x10, 16, 0x20, 0x40, 23, 0x60, 8, 0x70] [.empty]
    [(0x10, beBytes 16 0xC0C1C2C3C4C5C6C7C8C9CACBCCCDCECF), (0x20, beBytes 13 0x00000003020100A0A1A2A3A4A5),
     (0x40, data), (0x60, beBytes 8 0x0001020304050607), (0x70, tag)]

/-- V7: ciphertext and tag. -/
theorem test_ccmEncrypt :
    after (.ccmEncrypt 8 2)
      (ccmMachine (beBytes 23 0x08090A0B0C0D0E0F101112131415161718191A1B1C1D1E) (zeros 8))
      (fun t => (t.code, intBE (t.memRead 0x40 23), intBE (t.memRead 0x70 8))) =
      some (.ok, 0x588C979A61C663D2F066D0C2C0F989806D5F6B61DAC384, 0x17E8D12CFDF926E0) := by decide +kernel

/-- V7: the tag is right, the plaintext is written. -/
theorem test_ccmDecrypt :
    outcome (.ccmDecrypt 8 2)
      (ccmMachine (beBytes 23 0x588C979A61C663D2F066D0C2C0F989806D5F6B61DAC384) (beBytes 8 0x17E8D12CFDF926E0)) 0x40 23 =
      some (.ok, 0x08090A0B0C0D0E0F101112131415161718191A1B1C1D1E) := by decide +kernel

/-- V7 with the tag 0: AUTH_FAIL, the ciphertext stays. -/
theorem test_ccmDecrypt_authFail :
    outcome (.ccmDecrypt 8 2)
      (ccmMachine (beBytes 23 0x588C979A61C663D2F066D0C2C0F989806D5F6B61DAC384) (zeros 8)) 0x40 23 =
      some (.authFail, 0x588C979A61C663D2F066D0C2C0F989806D5F6B61DAC384) := by decide +kernel

/-- T-CMAC-1. -/
theorem test_dbl : dbl 0x80000000000000000000000000000000 = 0x87 ∧ dbl 1 = 2 ∧
    dbl 0xffffffffffffffffffffffffffffffff = 0xffffffffffffffffffffffffffffff79 := by decide

/-- V8: the subkeys in the slot. -/
theorem test_cmacCreate :
    after .cmacCreate (machine [0x10, 16] [.empty] [(0x10, nistKey)])
      (fun t => (t.result, (t.slot 1).asCmac.map fun c => (c.om.ka, c.om.kb, c.phase))) =
      some (1, some (0xfbeed618357133667c85e08f7236a8de, 0xf7ddac306ae266ccf90bc11ee46d513b, .opened)) := by
  decide +kernel

/-- The CMAC slot of V8, with the subkeys the vector gives. -/
def cmacSlot (phase : Phase) : Slot :=
  .cmac ⟨⟨expandKey nistKey, 0xfbeed618357133667c85e08f7236a8de, 0xf7ddac306ae266ccf90bc11ee46d513b, 0, 0, 0⟩, phase⟩

/-- T-CMAC-3 and T-CMAC-4: 16 bytes are held back, the 17th byte chains them. -/
theorem test_cmacUpdate :
    after (.cmacUpdate 1) (machine [0x20, 16] [cmacSlot .opened]
      [(0x20, beBytes 17 0x6bc1bee22e409f96e93d7e117393172aae)])
      (fun t => (t.slot 1).asCmac.map fun c => (c.om.plen, c.om.x)) = some (some (16, 0)) ∧
    after (.cmacUpdate 1) (machine [0x20, 17] [cmacSlot .opened]
      [(0x20, beBytes 17 0x6bc1bee22e409f96e93d7e117393172aae)])
      (fun t => (t.slot 1).asCmac.map fun c => (c.om.plen, c.om.x)) =
        some (some (1, 0x3ad77bb40d7a3660a89ecaf32466ef97)) := by decide +kernel

/-- V8, the empty message. -/
theorem test_cmacFinal :
    outcome (.cmacFinal 1) (machine [0x30] [cmacSlot .opened] []) 0x30 16 =
      some (.ok, 0xbb1d6929e95937287fa37d129b756746) := by decide +kernel

/-- T-CMAC-8: a FINAL slot takes no more. -/
theorem test_cmacFinal_twice :
    after (.cmacFinal 1) (machine [0x30] [cmacSlot .finalized] []) State.code = some .badState ∧
    after (.cmacUpdate 1) (machine [0x30, 1] [cmacSlot .finalized] []) State.code = some .badState := by decide +kernel

/-- V9: K2 and K3 in the slot, 12 bytes of result. -/
theorem test_xcbcCreate :
    after (.xcbcCreate .mac96) (machine [0x10, 16] [.empty] [(0x10, key0)])
      (fun t => (t.result, (t.slot 1).asXcbc.map fun c => (c.om.ka, c.om.kb, c.outLen))) =
      some (1, some (0xbd862ffb97ad2fb8f8b891f6032f36cb, 0xc1a7aba1a23a94065807a08cc8eed06e, 12)) := by decide +kernel

/-- T-XCBC-1 and T-XCBC-2: MAC-96 takes 16 bytes only, PRF-128 also the empty key. V9: the 16 bytes that PRF-128 makes of the
10-byte and of the 18-byte key, the first words of the slot's schedule. -/
theorem test_xcbcCreate_keys :
    after (.xcbcCreate .mac96) (machine [0x10, 15] [.empty] []) State.code = some .invalidKeyLen ∧
    after (.xcbcCreate .prf128) (machine [0, 0] [.empty] []) State.code = some .ok ∧
    (∀ p ∈ [(10, 0x00010203040506070809000000000000), (18, 0x1e4ca2ea2b2418836447924a21fdd893)],
      after (.xcbcCreate .prf128) (machine [0x10, BitVec.ofNat 32 p.1] [.empty]
          [(0x10, beBytes 18 0x000102030405060708090a0b0c0d0e0f1011)])
        (fun t => (t.slot 1).asXcbc.map fun c => (c.ksK.w.take 4).foldl (fun n w => n * 2 ^ 32 + w.toNat) 0) =
        some (some p.2)) := by decide +kernel

/-- The XCBC slot of V9, with the subkeys the vector gives. -/
def xcbcSlot (outLen : Nat) (phase : Phase) : Slot :=
  .xcbc
    { ksK := expandKey key0
      om := ⟨expandKey (beBytes 16 0xc352805754237f311ac0fff4e3e03e78), 0xbd862ffb97ad2fb8f8b891f6032f36cb,
        0xc1a7aba1a23a94065807a08cc8eed06e, 0, 0, 0⟩
      outLen := outLen
      phase := phase }

theorem test_xcbcUpdate :
    after (.xcbcUpdate 1) (machine [0x20, 3] [xcbcSlot 12 .opened] [(0x20, [0, 1, 2])])
      (fun t => (t.slot 1).asXcbc.map fun c => (c.om.plen, c.om.pend)) =
      some (some (3, 0x00010200000000000000000000000000)) := by decide +kernel

/-- V9, the empty message: the first 12 bytes. -/
theorem test_xcbcFinal :
    outcome (.xcbcFinal 1) (machine [0x30] [xcbcSlot 12 .opened] [(0x3C, [0xEE])]) 0x30 13 =
      some (.ok, 0x75f0251d528ac01c4573dfd5EE) := by decide +kernel

/-- The EAX machine of V10, vector 2: key, nonce, header, and the message or ciphertext at 0x60. -/
def eaxMachine (args : List Word) (slots : List Slot) (text : Bytes) : State :=
  machine args slots [(0x10, beBytes 16 0x91945D3F4DCBEE0BF45EF52255F095A4),
    (0x20, beBytes 16 0xBECAF043B0A23D843194BA972C66DEBD), (0x40, beBytes 8 0xFA3BFD4806EB53FA), (0x60, text)]

/-- V10, vector 2: N, the first counter. -/
theorem test_eaxCreate :
    after .eaxCreate (eaxMachine [0x10, 16, 0x20, 16] [.empty] [])
      (fun t => (t.code, t.result, (t.slot 1).asEax.map fun c => (c.n, c.ctr.counter, c.phase))) =
      some (.ok, 1, some (0x9fa5076fb1ade0c5bfe3e82b7e55ab1d, 0x9fa5076fb1ade0c5bfe3e82b7e55ab1d, .opened)) := by
  decide +kernel

/-- The schedule of the key of vector 2. -/
def eaxKs : KeySchedule := expandKey (beBytes 16 0x91945D3F4DCBEE0BF45EF52255F095A4)

/-- The EAX slot of vector 2 after EAX_CREATE, with N as the vector gives it. -/
def eaxSlot (phase : Phase) : Slot :=
  .eax
    { ctr := ⟨eaxKs, 0x9fa5076fb1ade0c5bfe3e82b7e55ab1d, 0, 0⟩
      n := 0x9fa5076fb1ade0c5bfe3e82b7e55ab1d
      omH := eaxOmac eaxKs 1
      omC := eaxOmac eaxKs 2
      phase := phase }

/-- The header goes into omH only: its final value is Hv of vector 2. -/
theorem test_eaxHeader :
    after (.eaxHeader 1) (eaxMachine [0x40, 8] [eaxSlot .opened] [])
      (fun t => (t.slot 1).asEax.map fun c => (omacFinal c.omH, c.omC.plen)) =
      some (some (0xe2a488b0bb52aba00b310f4097fbe6b6, 16)) := by decide +kernel

/-- V10, vector 2: the message becomes the ciphertext. -/
theorem test_eaxEncrypt :
    outcome (.eaxEncrypt 1) (eaxMachine [0x60, 2] [eaxSlot .opened] [0xF7, 0xFB]) 0x60 2 = some (.ok, 0x19DD) := by
  decide +kernel

/-- V10, vector 2: the ciphertext becomes the message, and the ciphertext is what omC absorbs. -/
theorem test_eaxDecrypt :
    after (.eaxDecrypt 1) (eaxMachine [0x60, 2] [eaxSlot .opened] [0x19, 0xDD])
      (fun t => (intBE (t.memRead 0x60 2), (t.slot 1).asEax.map fun c => c.omC.pend)) =
      some (0xF7FB, some 0x19DD0000000000000000000000000000) := by decide +kernel

/-- The tag of vector 2 by GENTAG, and the slot is FINAL. -/
theorem test_eaxGentag :
    after (.eaxGentag 1 16) (eaxMachine [0x60, 2, 0x40, 8, 0x80] [eaxSlot .opened] [0x19, 0xDD])
      (fun t => (t.code, intBE (t.memRead 0x80 16), (t.slot 1).phase)) =
      some (.ok, 0x5C4C9331049D0BDAB0277408F67967E5, .finalized) := by decide +kernel

/-- T-EAX-2 and the end of T-EAX-6: a tag of 17 bytes, and of 0 bytes at the null address. -/
theorem test_eaxFinal_lengths :
    after (.eaxFinal 1 17) (eaxMachine [0x80] [eaxSlot .opened] []) (fun t => (t.code, (t.slot 1).phase)) =
      some (.invalidArg, .opened) ∧
    after (.eaxFinal 1 0) (eaxMachine [0] [eaxSlot .opened] []) (fun t => (t.code, (t.slot 1).phase)) =
      some (.ok, .finalized) := by decide +kernel

/-- The tag of vector 2, cut to 4 bytes, from a slot that has absorbed header and ciphertext. -/
theorem test_eaxFinal_tag :
    outcome (.eaxFinal 1 4) (machine [0x80] [.eax
      { ctr := ⟨eaxKs, 0, 0, 0⟩
        n := 0x9fa5076fb1ade0c5bfe3e82b7e55ab1d
        omH := omacUpdate (eaxOmac eaxKs 1) (beBytes 8 0xFA3BFD4806EB53FA)
        omC := omacUpdate (eaxOmac eaxKs 2) [0x19, 0xDD]
        phase := .opened }] [(0x84, [0xEE])]) 0x80 5 = some (.ok, 0x5C4C9331EE) := by decide +kernel

/-- T-EAX-5, and vector 2 by GETPT in phase FINAL. -/
theorem test_eaxGetpt :
    outcome (.eaxGetpt 1) (eaxMachine [0x60, 2] [eaxSlot .finalized] [0x19, 0xDD]) 0x60 2 = some (.ok, 0xF7FB) := by
  decide +kernel

/-- V11, a single semiblock. -/
theorem test_kwWrap :
    outcome .kwWrap (machine [0x10, 16, 0x20, 8, 0x40] [.empty] [(0x10, key0), (0x20, beBytes 8 0x0011223344556677)])
      0x40 16 = some (.ok, 0xb82669ca42cb86233b5e5cfeacee620b) := by decide +kernel

/-- T-KW-1 and T-KW-3: the length is checked before the key length. -/
theorem test_kwWrap_badLength :
    after .kwWrap (machine [0x10, 3, 0x20, 12, 0x40] [.empty] []) State.code = some .badLength ∧
    after .kwUnwrap (machine [0x10, 3, 0x20, 8, 0x40] [.empty] []) State.code = some .badLength := by decide +kernel

/-- The machine that unwraps the single semiblock of V11, or a changed one. -/
def unwrapMachine (ct : Nat) : State :=
  machine [0x10, 16, 0x20, 16, 0x40] [.empty] [(0x10, key0), (0x20, beBytes 16 ct)]

theorem test_kwUnwrap :
    outcome .kwUnwrap (unwrapMachine 0xb82669ca42cb86233b5e5cfeacee620b) 0x40 8 =
      some (.ok, 0x0011223344556677) := by decide +kernel

/-- V12. -/
theorem test_ctCompare :
    after .ctCompare (machine [0x20, 0x30, 16] [.empty] [(0x20, beBytes 16 0x5C4C9331049D0BDAB0277408F67967E5),
      (0x30, beBytes 16 0x5C4C9331049D0BDAB0277408F67967E5)]) State.code = some .ok ∧
    after .ctCompare (machine [0x20, 0x30, 16] [.empty] [(0x20, beBytes 16 0x5C4C9331049D0BDAB0277408F67967E5),
      (0x30, beBytes 16 0x5C4C9331049D0BDAB0277408F67967E4)]) State.code = some .authFail := by decide +kernel

/-! ### Host steps -/

/-- The small machine with a host that does one action. -/
def hosted (a : HostAction) : State := { machine [] [.empty, .empty] [] with host := [a] }

/-- The small machine with a pending CT_COMPARE, whose next turn is the host's. -/
def waiting (a : HostAction) : State := { hosted a with cmd := 0x60, busy := true, turns := [.host] }

/-- Rules R80, R84, R478: the first address outside the memory, a 16-bit access, an offset that is no multiple of 4, and a
read of RESULT while BUSY = 1. -/
theorem test_hostFaults :
    step (hosted (.memRead 256)) = .fault .memoryAddressOutOfRange ∧
    step (hosted (.memWrite 256 0)) = .fault .memoryAddressOutOfRange ∧
    step (hosted (.regRead .half16 0x04)) = .fault .registerAccessForm ∧
    step (hosted (.regWrite .word32 0x12 0)) = .fault .registerAccessForm ∧
    step (waiting (.regRead .word32 0x08)) = .fault .accessWhileBusy ∧
    step (waiting (.regWrite .word32 0x10 0)) = .fault .accessWhileBusy ∧
    step (waiting (.memRead 0)) = .fault .accessWhileBusy := ⟨rfl, rfl, rfl, rfl, rfl, rfl, rfl⟩

/-- T-RST-1: the reset signal also drops a pending command. -/
theorem test_reset : ∃ t, step (waiting .reset) = .next t ∧ t.cmd = 0 ∧ t.busy = false ∧ t.epoch = 1 :=
  ⟨_, rfl, rfl, rfl, rfl⟩

/-! ### States that meet the hypotheses of the statements -/

theorem test_witness_DecodeOfEncodeIsTheCommand :
    [Instr.ctxCreate .dec 3, .ctxDestroy 255, .ctrApply 255 255, .ccmEncrypt 255 255, .eaxGentag 255 255,
      .xcbcCreate .prf128, .kwWrap].all Instr.wf = true := by decide

theorem test_witness_EncodeOfDecodeIsTheWord :
    decode 0xFFFF0020 = .ok (.ccmEncrypt 255 255) ∧ decode 0x07000001 = .ok (.ctxCreate .dec 3) := by decide

theorem test_witness_IllegalWordsEndWithIllegalCmd :
    ((hosted .wait).withFetchWord 32 0xFF).nextMover = .engine ∧
    decode ((hosted .wait).withFetchWord 32 0xFF).cmd = .error (.reservedOpcode 255) ∧
    decode ((hosted .wait).withFetchWord 32 0x10001).cmd = .error (.fieldNotZero 1) := by decide

theorem test_witness_StepRunsTheDecodedCommand :
    (hosted .wait).busy = false ∧ ({ hosted .wait with cmd := 0x60, busy := true } : State).nextMover = .engine ∧
    decode ({ hosted .wait with cmd := 0x60, busy := true } : State).cmd = .ok .ctCompare ∧ Instr.ctCompare.wf = true := by
  decide

theorem test_witness_RegisterReadsReturnTheRegisters :
    (∀ o ∈ ([0x00, 0x04, 0x08, 0x0C, 0x10, 0x14, 0x18, 0x1C, 0x20, 0x24, 0x28, 0x2C, 0x30, 0xFC] : List Byte),
      (hosted (.regRead .word32 o)).busy = false ∧ o.toNat % 4 = 0 ∧
      (hosted (.regRead .word32 o)).host = .regRead .word32 o :: []) ∧
    (waiting (.regRead .word32 0x04)).busy = true ∧ (waiting (.regRead .word32 0x04)).nextMover = .host ∧
    (waiting (.regRead .word32 0x04)).host = .regRead .word32 0x04 :: [] := by decide

theorem test_witness_RegisterWritesSetTheRegisters :
    ∀ o ∈ ([0x00, 0x04, 0x08, 0x0C, 0x10, 0x14, 0x18, 0x1C, 0x20, 0x24, 0x28, 0x2C, 0x30, 0xFC] : List Byte),
      (hosted (.regWrite .word32 o 7)).busy = false ∧ o.toNat % 4 = 0 ∧
      (hosted (.regWrite .word32 o 7)).host = .regWrite .word32 o 7 :: [] := by decide

/-- The last address of the memory. -/
theorem test_witness_HostMemoryAccessesReadAndWriteOneByte :
    (hosted (.memWrite 255 1)).busy = false ∧ (255 : Word).toNat < (hosted (.memWrite 255 1)).memBytes ∧
    (hosted (.memWrite 255 1)).host = .memWrite 255 1 :: [] ∧
    (hosted (.memRead 255)).busy = false ∧ (255 : Word).toNat < (hosted (.memRead 255)).memBytes ∧
    (hosted (.memRead 255)).host = .memRead 255 :: [] := by decide

theorem test_witness_ResetSignalResetsFromEveryState :
    (waiting .reset).nextMover = .host ∧ (waiting .reset).host = .reset :: [] ∧
    (hosted .reset).nextMover = .host ∧ (hosted .reset).host = .reset :: [] := by decide

theorem test_witness_HostStepsWhileBusyChangeNothing :
    (waiting .wait).busy = true ∧ (waiting .wait).nextMover = .host ∧ (waiting .wait).host.head? ≠ some .reset ∧
    ∃ t, step (waiting .wait) = .next t := ⟨rfl, rfl, by decide, _, rfl⟩

theorem test_witness_PollingHostSeesTheCommandComplete :
    (waiting .wait).busy = true ∧ ∀ a ∈ (waiting .wait).host, a.polls := by decide

/-- A schedule of 10 rounds, all zero: for the states below that look at no key. -/
def ks0 : KeySchedule := ⟨10, List.replicate 44 0⟩

/-- An OMAC state with nothing absorbed. -/
def omac0 : Omac := ⟨ks0, 0, 0, 0, 0, 0⟩

/-- A slot of each kind. -/
def aCipher (mode : CipherMode) : CipherCtx := ⟨.enc, mode, 16, ks0⟩
def aCtr : CtrState := ⟨ks0, 0, 0, 0⟩
def aCmac (p : Phase) : CmacCtx := ⟨omac0, p⟩
def anXcbc (p : Phase) : XcbcCtx := ⟨ks0, omac0, 12, p⟩
def anEax (p : Phase) : EaxCtx := ⟨aCtr, 0, { omac0 with plen := 1 }, { omac0 with plen := 1 }, p⟩

/-- A command that ends with OK and one that does not; they meet the hypotheses of the statements about every command. -/
theorem test_witness_EveryCommand (s : State) (h : s = machine [0, 0, 0] [.empty] []) :
    exec .ctCompare s = .next (s.ended .ok 0) ∧ exec (.aesBlock 0 .enc) s = .next (s.ended .nullRef 0) ∧
    (s.ended .nullRef 0).code ≠ .ok ∧ Instr.ctCompare.isCreate = false ∧
    (Instr.aesBlock 0 .enc).handle ≠ some 1 ∧ (Instr.aesBlock 0 .enc).isCreate = false := by
  subst h; exact ⟨rfl, rfl, by decide, rfl, by decide, rfl⟩

/-- 255 slots, all EMPTY: the largest NSLOT. -/
theorem test_witness_ResultIsTheLowestEmptySlotOfACreate :
    (Instr.xcbcCreate .prf128).isCreate = true ∧ (State.resetWith 255 64).nslot ≤ 255 ∧
    ∃ t, exec (.xcbcCreate .prf128) (State.resetWith 255 64) = .next t ∧ t.code = .ok :=
  ⟨rfl, by decide +kernel, _, rfl, by decide +kernel⟩

/-- No EMPTY slot, with every other check passed: a 16-byte key, an empty nonce or a counter; and 32 bytes of combined key
material. -/
theorem test_witness_AllocFail (s t : State) (h : s = machine [0x10, 16, 0xF0, 0] [.ctr aCtr, .ctr aCtr] [])
    (g : t = machine [0x10, 32, 0] [.ctr aCtr] []) :
    (∀ h ∈ List.range (s.nslot + 1), h = 0 ∨ s.slot h ≠ .empty) ∧ s.accepts ⟨s.a0, s.a1⟩ ∧ aesKeyLen s.a1 ∧ s.a2 ≠ 0 ∧
    s.accepts ⟨s.a2, 16⟩ ∧ s.accepts ⟨s.a2, s.a3⟩ ∧ s.a1 = 16 ∧
    (∀ h ∈ List.range (t.nslot + 1), h = 0 ∨ t.slot h ≠ .empty) ∧ t.accepts ⟨t.a0, t.a1⟩ ∧ t.a2 = 0 ∧ 16 ≤ t.a1 ∧
    aesKeyLen (t.a1 - 16) := by subst h g; decide

/-- Two states of different draws and different lists, with every byte of the data memory written and a stray byte above it
in one of them. -/
theorem test_witness_OutcomeDependsOnlyOnTheInputs (s₁ s₂ : State)
    (h₁ : s₁ = { hosted .wait with memBytes := 2, mem := [(0, 7), (1, 8)] })
    (h₂ : s₂ = { hosted .wait with memBytes := 2, mem := [(0, 7), (1, 8), (2, 9)], epoch := 5, result := 3 }) :
    s₁.args = s₂.args ∧ s₁.slots = s₂.slots ∧ s₁.memBytes = s₂.memBytes ∧
    (∀ a < s₁.memBytes, s₁.readByte a = s₂.readByte a) ∧ s₁.mem ≠ s₂.mem ∧ s₁.epoch ≠ s₂.epoch ∧
    exec (.ctxDestroy 0) s₁ = .next (s₁.ended .ok 0) ∧ s₁.cmd = s₂.cmd ∧ engineStep s₁ = .next (s₁.ended .illegalCmd 0) := by
  subst h₁ h₂
  refine ⟨rfl, rfl, rfl, fun a ha => ?_, by decide, by decide, rfl, rfl, rfl⟩
  have ha : a < 2 := ha
  interval_cases a <;> rfl

theorem test_witness_UnusedArgumentsAreNotRead :
    ArgRegs.agree (Instr.cmacFinal 1).argCount (machine [5, 6, 7, 8] [] []).args ⟨5, 0, 0, 0, 0, 0, 0, 1⟩ ∧
    ∃ t, exec (.cmacFinal 1) (machine [5, 6, 7, 8] [] []) = .next t := ⟨by decide, _, rfl⟩

/-- A byte just before and just after the 16 stored bytes. -/
theorem test_witness_StoresStayInTheNamedBuffers :
    (∀ a ∈ [0x2F, 0x40], ∀ b ∈ (Instr.cmacFinal 1).stores (machine [0x30] [.cmac (aCmac .opened)] []), ¬ b.holds a) ∧
    (∃ t, exec (.cmacFinal 1) (machine [0x30] [.cmac (aCmac .opened)] []) = .next t) ∧
    Instr.ctrCreate.isCreate = true ∧ ∃ t, exec .ctrCreate (machine [] [.empty] []) = .next t :=
  ⟨by decide, ⟨_, rfl⟩, rfl, _, rfl⟩

theorem test_witness_OtherSlotsAreUnchanged :
    (Instr.cmacFinal 1).handle ≠ some 2 ∧ (Instr.cmacFinal 1).isCreate = false ∧ Instr.cmacCreate.handle ≠ some 1 ∧
    (machine [] [.cmac (aCmac .opened), .empty] []).slot 1 ≠ .empty ∧
    (∃ t, exec .cmacCreate (machine [] [.cmac (aCmac .opened), .empty] []) = .next t) ∧
    (∃ t, exec .kwWrap (machine [] [] []) = .next t) := ⟨by decide, rfl, by decide, by decide, ⟨_, rfl⟩, _, rfl⟩

/-- A create that takes slot 1 of two EMPTY slots: slot 2 is not the one it returns. -/
theorem test_witness_OtherSlotsAreUnchanged_create (s : State) (h : s = machine [] [.empty, .empty] []) :
    s.nslot ≤ 255 ∧ (Instr.xcbcCreate .prf128).handle ≠ some 2 ∧
    ∃ t, exec (.xcbcCreate .prf128) s = .next t ∧ t.result = 1 ∧ 2 ≠ t.result.toNat := by
  subst h; exact ⟨by decide, by decide, _, rfl, by decide +kernel, by decide +kernel⟩

theorem test_witness_HandleChecksFollowTheirOrder (s : State)
    (h : s = machine [] [.cmac (aCmac .finalized), .empty] []) :
    (Instr.eaxHeader 0).handle = some 0 ∧ (Instr.eaxHeader 0).isDestroy = false ∧
    (Instr.eaxHeader 3).handle = some 3 ∧ 3 > s.nslot ∧
    (Instr.eaxHeader 2).handle = some 2 ∧ 2 ≤ s.nslot ∧ s.slot 2 = .empty ∧
    (Instr.eaxHeader 1).handle = some 1 ∧ s.slot 1 ≠ .empty ∧ (Instr.eaxHeader 1).kindOk (s.slot 1) = false ∧
    (Instr.cmacUpdate 1).handle = some 1 ∧ (Instr.cmacUpdate 1).kindOk (s.slot 1) = true ∧
    (Instr.cmacUpdate 1).needsOpen = true ∧ (s.slot 1).phase = .finalized := by subst h; decide

/-- For the clause about commands: EAX_CREATE whose nonce buffer is at the null address, though its key runs past the memory,
and AES_BLOCK whose source runs one byte past it. -/
theorem test_witness_NullChecksComeBeforeRangeChecks_command (s t : State) (h : s = machine [0xF8, 16, 0, 4] [.empty] [])
    (g : t = machine [0xF1, 0x10] [.cipher (aCipher .ecb)] []) :
    Instr.eaxCreate.earlierChecksPass s ∧ (∃ b ∈ Instr.eaxCreate.buffers s, 0 < b.len ∧ b.addr = 0) ∧
    (Instr.aesBlock 1 .enc).earlierChecksPass t ∧
    (∀ b ∈ (Instr.aesBlock 1 .enc).buffers t, 0 < b.len → b.addr ≠ 0) ∧
    (∃ b ∈ (Instr.aesBlock 1 .enc).buffers t, 0 < b.len ∧ b.addr + b.len > t.memBytes) := by
  subst h g
  exact ⟨by unfold Instr.earlierChecksPass; decide, by decide, ⟨aCipher .ecb, rfl, rfl⟩, by decide, by decide⟩

theorem test_witness_NullChecksComeBeforeRangeChecks (s : State) (h : s = machine [] [] []) :
    (∃ b ∈ [Buffer.mk 256 1, ⟨0, 1⟩], 0 < b.len ∧ b.addr = 0) ∧
    (∀ b ∈ [Buffer.mk 0 0, ⟨241, 16⟩], 0 < b.len → b.addr ≠ 0) ∧
    (∃ b ∈ [Buffer.mk 0 0, ⟨241, 16⟩], 0 < b.len ∧ b.addr + b.len > s.memBytes) ∧
    (∀ b ∈ [Buffer.mk 0 0, ⟨240, 16⟩], s.accepts b) := by subst h; decide

theorem test_witness_ParameterErrorsAreInvalidArg :
    (1 < 2) ∧ (machine [] [.cipher (aCipher .ecb)] []).slot 1 = .cipher (aCipher .ecb) ∧ Dir.dec ≠ (aCipher .ecb).dir ∧
    (machine [] [.ctr aCtr] []).slot 1 = .ctr aCtr ∧ 16 < 17 ∧
    2 ^ (8 * 2) ≤ (machine [0, 0, 0, 0, 65536] [] []).a4 ∧
    (machine [] [.eax (anEax .opened)] []).slot 1 = .eax (anEax .opened) ∧ (anEax .opened).phase = .opened := by decide

theorem test_witness_LengthErrors_badLength (s t u : State) (h : s = machine [0, 15] [.cipher (aCipher .ecb)] [])
    (g : t = machine [0, 0, 0, 7] [] []) (k : u = machine [0, 0, 0, 12] [] []) :
    s.slot 1 = .cipher (aCipher .ecb) ∧ s.a1 % 16 ≠ 0 ∧ t.a3 < 8 ∧ t.a3 < 16 ∧ u.a3 % 8 ≠ 0 := by subst h g k; decide

theorem test_witness_LengthErrors_invalidKeyLen (s t u : State) (h : s = machine [0, 33, 1, 16] [] [])
    (g : t = machine [0, 15] [] []) (k : u = machine [0, 33] [] []) :
    ¬ aesKeyLen s.a1 ∧ s.a2 ≠ 0 ∧ s.a3 % 8 = 0 ∧ 16 ≤ s.a3 ∧ ccmParamsOk 16 8 = true ∧ s.a1 ≠ 16 ∧
    t.a2 = 0 ∧ t.a1 < 16 ∧ ¬ aesKeyLen (u.a1 - 16) := by subst h g k; decide

theorem test_witness_CtxCreateFillsACipherSlot (s : State) (h : s = machine [0xE0, 32] [.ctr aCtr, .empty] []) :
    aesKeyLen s.a1 ∧ s.accepts ⟨s.a0, s.a1⟩ ∧ s.lowestFree 2 := by
  subst h; exact ⟨by decide, by decide, (State.alloc_ok _ 2).mp (by decide)⟩

theorem test_witness_CtxDestroyEmptiesTheSlot (s : State) (h : s = machine [] [.ctr aCtr, .empty] []) :
    3 > s.nslot ∧ 1 ≤ s.nslot ∧ 2 ≤ s.nslot := by subst h; decide

theorem test_witness_AesBlockWritesOneBlock (s : State) (h : s = machine [0x10, 0xF0] [.cipher (aCipher .ecb)] []) :
    s.slot 1 = .cipher (aCipher .ecb) ∧ s.accepts ⟨s.a0, 16⟩ ∧ s.accepts ⟨s.a1, 16⟩ := by subst h; decide

theorem test_witness_EcbTransformsEachBlockInPlace (s : State) (h : s = machine [0xE0, 32] [.cipher (aCipher .ecb)] []) :
    s.slot 1 = .cipher (aCipher .ecb) ∧ (aCipher .ecb).mode = .ecb ∧ s.a1 % 16 = 0 ∧ s.accepts ⟨s.a0, s.a1⟩ := by
  subst h; decide

/-- With two blocks, and with none at the null address. -/
theorem test_witness_CbcChainsAndWritesTheIvBack (s t : State)
    (h : s = machine [0x20, 32, 0xF0] [.cipher (aCipher .cbc)] [])
    (g : t = machine [0, 0, 0xF0] [.cipher (aCipher .cbc)] []) :
    (s.slot 1 = .cipher (aCipher .cbc) ∧ (aCipher .cbc).mode = .cbc ∧ s.a1 % 16 = 0 ∧ s.accepts ⟨s.a0, s.a1⟩ ∧
      s.accepts ⟨s.a2, 16⟩) ∧
    (t.slot 1 = .cipher (aCipher .cbc) ∧ t.a1 = 0 ∧ t.accepts ⟨t.a0, t.a1⟩ ∧ t.accepts ⟨t.a2, 16⟩) := by
  subst h g; decide

/-- A separate counter, and a 32-byte key with its counter at the end of memory. -/
theorem test_witness_CtrCreateFillsACtrSlot (s t : State) (h : s = machine [0x20, 24, 0xF0] [.empty] [])
    (g : t = machine [0xD0, 48, 0] [.empty] []) :
    (s.a2 ≠ 0 ∧ aesKeyLen s.a1 ∧ s.accepts ⟨s.a0, s.a1⟩ ∧ s.accepts ⟨s.a2, 16⟩ ∧ s.lowestFree 1) ∧
    (t.a2 = 0 ∧ aesKeyLen 32 ∧ t.a1 = 32 + 16 ∧ t.accepts ⟨t.a0, t.a1⟩ ∧ t.lowestFree 1) := by
  subst h g
  exact ⟨⟨by decide, by decide, by decide, by decide, (State.alloc_ok _ 1).mp (by decide)⟩,
    by decide, by decide, by decide, by decide, (State.alloc_ok _ 1).mp (by decide)⟩

/-- With and without an IV. -/
theorem test_witness_CtrApplyTransformsInPlace (s t : State) (h : s = machine [0x20, 5, 0xF0] [.ctr aCtr] [])
    (g : t = machine [0, 0, 0] [.ctr aCtr] []) :
    (s.slot 1 = .ctr aCtr ∧ 16 ≤ 16 ∧ s.accepts ⟨s.a0, s.a1⟩ ∧ s.a2 ≠ 0 ∧ s.accepts ⟨s.a2, 16⟩) ∧
    (t.slot 1 = .ctr aCtr ∧ t.accepts ⟨t.a0, t.a1⟩ ∧ t.a2 = 0) := by subst h g; decide

theorem test_witness_CtrStreamProperties : aCtr.offset = 0 ∧ 16 < ([0] ++ zeros 16 : Bytes).length ∧ (16 : Nat) ≤ 16 := by
  decide

/-- The least tag with no data, and operands of every kind up to the end of memory. -/
theorem test_witness_CcmEncryptWritesCiphertextAndTag (s t : State)
    (h : s = machine [0x10, 16, 0x20, 0, 0, 0, 0, 0x70] [] [])
    (g : t = machine [0x10, 32, 0x40, 0x80, 64, 0x50, 8, 0xF0] [] []) : ccmAccepted 4 2 s ∧ ccmAccepted 16 8 t := by
  subst h g; unfold ccmAccepted; decide +kernel

/-- T-CCM-5, with its tag and with another one. -/
theorem test_witness_CcmDecryptWritesOnlyVerifiedPlaintext (s t : State)
    (h : s = machine [0x10, 16, 0x20, 0, 0, 0, 0, 0x70] [.empty] [(0x10, beBytes 16 0xC0C1C2C3C4C5C6C7C8C9CACBCCCDCECF),
      (0x20, beBytes 13 0x00000003020100A0A1A2A3A4A5), (0x70, beBytes 4 0xfed369aa)])
    (g : t = { s with mem := Memory.write s.mem 0x70 0 }) :
    ccmAccepted 4 2 s ∧ (ccmOpened 4 2 s).1 = true ∧ ccmAccepted 4 2 t ∧ (ccmOpened 4 2 t).1 = false := by
  subst g; subst h; unfold ccmAccepted; decide +kernel

theorem test_witness_CcmOpenUndoesSeal :
    (16 ≤ 16) ∧ (zeros 16).length = 16 ∧ zeros 16 ≠ (ccmSeal ks0 16 2 (zeros 13) [] []).2 := by decide +kernel

/-- Equal and different buffers, the last one at the end of memory. -/
theorem test_witness_CtCompareReportsEquality (s t : State)
    (h : s = machine [0x20, 0xFE, 2] [] [(0x20, [1, 2]), (0xFE, [1, 2])])
    (g : t = machine [0x20, 0xFE, 2] [] [(0x20, [1, 2]), (0xFE, [1, 3])]) :
    s.accepts ⟨s.a0, s.a2⟩ ∧ s.accepts ⟨s.a1, s.a2⟩ ∧ s.memRead s.a0 s.a2 = s.memRead s.a1 s.a2 ∧
    t.accepts ⟨t.a0, t.a2⟩ ∧ t.accepts ⟨t.a1, t.a2⟩ ∧ t.memRead t.a0 t.a2 ≠ t.memRead t.a1 t.a2 ∧
    2 ≤ (t.memRead t.a0 t.a2).length ∧
    (machine [0, 0x20, 1] [] []).checkBuffers [⟨0, 1⟩, ⟨0x20, 1⟩] = .error .nullRef := by subst h g; decide +kernel

theorem test_witness_CmacCreateFillsACmacSlot (s : State) (h : s = machine [0xE8, 24] [.empty] []) :
    aesKeyLen s.a1 ∧ s.accepts ⟨s.a0, s.a1⟩ ∧ s.lowestFree 1 := by
  subst h; exact ⟨by decide, by decide, (State.alloc_ok _ 1).mp (by decide)⟩

/-- A slot of each kind that has absorbed nothing, and 3 bytes at the end of memory. -/
theorem test_witness_MacUpdatesAbsorbTheData (s : State)
    (h : s = machine [0xFD, 3] [.cmac (aCmac .opened), .xcbc (anXcbc .opened), .eax (anEax .opened)] []) :
    s.accepts ⟨s.a0, s.a1⟩ ∧ s.slot 1 = .cmac (aCmac .opened) ∧ (aCmac .opened).phase = .opened ∧
    s.slot 2 = .xcbc (anXcbc .opened) ∧ (anXcbc .opened).phase = .opened ∧
    s.slot 3 = .eax (anEax .opened) ∧ (anEax .opened).phase = .opened := by subst h; decide

theorem test_witness_MacFinalsWriteTheMacAndCloseTheSlot (s t : State)
    (h : s = machine [0xF0] [.cmac (aCmac .opened)] []) (g : t = machine [0xF4] [.xcbc (anXcbc .opened)] []) :
    s.slot 1 = .cmac (aCmac .opened) ∧ s.accepts ⟨s.a0, 16⟩ ∧
    t.slot 1 = .xcbc (anXcbc .opened) ∧ t.accepts ⟨t.a0, (anXcbc .opened).outLen⟩ := by subst h g; decide

/-- MAC-96, and PRF-128 with the empty key and with 18 bytes at the end of memory. -/
theorem test_witness_XcbcCreateFillsAnXcbcSlot (s t u : State) (h : s = machine [0xF0, 16] [.empty] [])
    (g : t = machine [0, 0] [.empty] []) (k : u = machine [0xEE, 18] [.empty] []) :
    (s.a1 = 16 ∧ s.accepts ⟨s.a0, s.a1⟩ ∧ s.lowestFree 1) ∧
    ((XcbcVariant.prf128 = .mac96 → t.a1 = 16) ∧ t.a1 < 16 ∧ t.accepts ⟨t.a0, t.a1⟩ ∧ t.lowestFree 1) ∧
    ((XcbcVariant.prf128 = .mac96 → u.a1 = 16) ∧ 16 < u.a1 ∧ u.accepts ⟨u.a0, u.a1⟩ ∧ u.lowestFree 1) := by
  subst h g k
  exact ⟨⟨by decide, by decide, (State.alloc_ok _ 1).mp (by decide)⟩,
    ⟨by decide, by decide, by decide, (State.alloc_ok _ 1).mp (by decide)⟩,
    by decide, by decide, by decide, (State.alloc_ok _ 1).mp (by decide)⟩

/-- The empty nonce. -/
theorem test_witness_EaxCreateFillsAnEaxSlot (s : State) (h : s = machine [0xF0, 16, 0, 0] [.empty] []) :
    aesKeyLen s.a1 ∧ s.accepts ⟨s.a0, s.a1⟩ ∧ s.accepts ⟨s.a2, s.a3⟩ ∧ s.lowestFree 1 := by
  subst h; exact ⟨by decide, by decide, by decide, (State.alloc_ok _ 1).mp (by decide)⟩

theorem test_witness_EaxStreamsTransformInPlace (s : State)
    (h : s = machine [0xFD, 3] [.eax (anEax .opened), .eax (anEax .finalized)] []) :
    s.slot 1 = .eax (anEax .opened) ∧ (anEax .opened).phase = .opened ∧ s.slot 2 = .eax (anEax .finalized) ∧
    s.accepts ⟨s.a0, s.a1⟩ := by subst h; decide

theorem test_witness_EaxTagsCloseTheSlot (s t : State) (h : s = machine [0xF0] [.eax (anEax .opened)] [])
    (g : t = machine [0x20, 3, 0, 0, 0xF0] [.eax (anEax .opened)] []) :
    (s.slot 1 = .eax (anEax .opened) ∧ (anEax .opened).phase = .opened ∧ 16 ≤ 16 ∧ s.accepts ⟨s.a0, 16⟩) ∧
    (t.slot 1 = .eax (anEax .opened) ∧ t.accepts ⟨t.a0, t.a1⟩ ∧ t.accepts ⟨t.a2, t.a3⟩ ∧ t.accepts ⟨t.a4, 16⟩) := by
  subst h g; decide

theorem test_witness_KwWrapWritesTheWrappedKey (s : State) (h : s = machine [0x10, 16, 0x20, 8, 0xF0] [] []) :
    s.a3 % 8 = 0 ∧ 8 ≤ s.a3 ∧ aesKeyLen s.a1 ∧ s.accepts ⟨s.a0, s.a1⟩ ∧ s.accepts ⟨s.a2, s.a3⟩ ∧
    s.accepts ⟨s.a4, s.a3 + 8⟩ ∧ s.a3 ≤ 336 := by subst h; decide

/-- An intact single semiblock and a changed one (V11). -/
theorem test_witness_KwUnwrapWritesOnlyAnIntactKey :
    (∀ s ∈ [unwrapMachine 0xb82669ca42cb86233b5e5cfeacee620b, unwrapMachine 0xb82669ca42cb86233b5e5cfeacee620a],
      s.a3 % 8 = 0 ∧ 16 ≤ s.a3 ∧ aesKeyLen s.a1 ∧ s.accepts ⟨s.a0, s.a1⟩ ∧ s.accepts ⟨s.a2, s.a3⟩ ∧
      s.accepts ⟨s.a4, s.a3 - 8⟩) ∧
    (kwUnwrap (expandKey key0) (beBytes 16 0xb82669ca42cb86233b5e5cfeacee620b)).1 = true ∧
    (kwUnwrap (expandKey key0) (beBytes 16 0xb82669ca42cb86233b5e5cfeacee620a)).1 = false := by decide +kernel

/-- The least length, and the wrapped single semiblock of V11. -/
theorem test_witness_KwUnwrapUndoesWrap (ct : Bytes) (h : ct = beBytes 16 0xb82669ca42cb86233b5e5cfeacee620b) :
    (zeros 8).length % 8 = 0 ∧ 8 ≤ (zeros 8).length ∧ ct.length % 8 = 0 ∧ 16 ≤ ct.length ∧
    (kwUnwrap (expandKey key0) ct).1 = true := by subst h; decide +kernel

theorem test_witness_ExpandKeyFollowsTheRecurrence :
    aesKeyLen (zeros 16).length ∧ aesKeyLen (zeros 24).length ∧ aesKeyLen (zeros 32).length := by decide

theorem test_witness_ResetSatisfiesTheInvariant :
    Config.validNslot 1 ∧ Config.validNslot 255 ∧ Config.validMemBytes 64 ∧ Config.validMemBytes (2 ^ 32) := by decide

/-- A slot of each kind; a step of the idle host and one of the engine. -/
theorem test_witness_EveryStepKeepsTheInvariant (s : State)
    (h : s = machine [] [.cipher (aCipher .cbc), .ctr aCtr, .cmac (aCmac .opened), .xcbc (anXcbc .opened),
      .eax (anEax .finalized), .empty] [(0xFF, [1])]) :
    s.Inv ∧ (∃ t, step s = .next t) ∧ (s.withFetchWord 32 0x60).Inv ∧ ∃ t, step (s.withFetchWord 32 0x60) = .next t := by
  subst h; exact ⟨by decide +kernel, ⟨_, rfl⟩, by decide +kernel, _, rfl⟩

theorem test_witness_FinalSlotsStayFinalUntilDestroyed (s : State) (h : s = machine [] [.eax (anEax .finalized)] []) :
    (s.slot 1).phase = .finalized ∧ (∃ t, exec (.eaxGetpt 1) s = .next t) ∧ ∃ t, exec (.ctxDestroy 1) s = .next t := by
  subst h; exact ⟨by decide, ⟨_, rfl⟩, _, rfl⟩

end Sys2Proof.Tests
end

/-! PROOFS. The invariant (rules R8, R9, R43, R45, R48, R320, R350) holds at reset and every step keeps it. -/
section
namespace Sys2Proof.Machine

/-! ### The bytes of a big-endian number and of a block -/

@[simp] theorem intBE_concat (b : Bytes) (x : Byte) : intBE (b ++ [x]) = intBE b * 256 + x.toNat := by simp [intBE]

theorem intBE_lt (b : Bytes) : intBE b < 256 ^ b.length := by
  induction b using List.reverseRecOn with
  | nil => simp [intBE]
  | append_singleton b x ih =>
    rw [intBE_concat, List.length_append, List.length_singleton, pow_succ]
    have hx := x.isLt
    omega

/-- The digit of weight `256 ^ (n - 1 - i)` of an n-byte string is its byte i (rule R14). -/
theorem intBE_digit (b : Bytes) (i : Nat) (hi : i < b.length) :
    BitVec.ofNat 8 (intBE b / 256 ^ (b.length - 1 - i)) = b[i] := by
  induction b using List.reverseRecOn with
  | nil => simp at hi
  | append_singleton b x ih =>
    rw [List.length_append, List.length_singleton] at hi ⊢
    rcases Nat.lt_or_eq_of_le (Nat.le_of_lt_succ hi) with hlt | rfl
    · have hx : (intBE b * 256 + x.toNat) / 256 = intBE b := by have := x.isLt; omega
      rw [show b.length + 1 - 1 - i = (b.length - 1 - i) + 1 by omega, pow_succ', ← Nat.div_div_eq_div_mul, intBE_concat,
        hx, ih hlt, List.getElem_append_left hlt]
    · apply BitVec.eq_of_toNat_eq
      have := x.isLt
      simp only [intBE_concat, BitVec.toNat_ofNat, Nat.add_sub_cancel, Nat.sub_self, pow_zero, Nat.div_one,
        List.getElem_concat_length]
      omega

/-- Byte i of a block given by its bytes (rule R13). -/
theorem blockByte_blockOfFn (f : Nat → Byte) (i : Nat) (hi : i < 16) : blockByte (blockOfFn f) i = f i := by
  have hlt : intBE ((List.range 16).map f) < 2 ^ 128 := by simpa using intBE_lt ((List.range 16).map f)
  have hdigit := intBE_digit ((List.range 16).map f) i (by simpa using hi)
  simp only [List.length_map, List.length_range, List.getElem_map, List.getElem_range] at hdigit
  rw [blockByte, blockOfFn, BitVec.toNat_ofNat, Nat.mod_eq_of_lt hlt]
  exact hdigit

theorem blockByte_blockSetByte (b : Block) (k : Nat) (v : Byte) (i : Nat) (hi : i < 16) :
    blockByte (blockSetByte b k v) i = if i = k then v else blockByte b i :=
  blockByte_blockOfFn _ i hi

@[simp] theorem blockByte_zero (i : Nat) : blockByte 0 i = 0 := by simp [blockByte]

/-! ### Key schedules -/

theorem expandLoop_length (nk n i : Nat) (ws : List Word) : (expandLoop nk n i ws).length = n + ws.length := by
  induction n generalizing i ws with
  | zero => simp [expandLoop]
  | succ n ih => rw [expandLoop, ih, List.length_cons]; omega

@[simp] theorem expandKey_nr (key : Bytes) : (expandKey key).nr = key.length / 4 + 6 := rfl

theorem expandKey_w_length (key : Bytes) : (expandKey key).w.length = 4 * ((expandKey key).nr + 1) := by
  simp only [expandKey, List.length_reverse, expandLoop_length, List.length_map, List.length_range]
  omega

theorem validKeyLen_iff (n : Nat) : validKeyLen n = true ↔ n = 16 ∨ n = 24 ∨ n = 32 := decide_eq_true_iff

/-- The schedule of a key AES takes has 10, 12 or 14 rounds and 4(Nr+1) words (rules R43, R147). -/
theorem expandKey_wf (key : Bytes) (h : validKeyLen key.length = true) : (expandKey key).wf := by
  refine ⟨?_, expandKey_w_length key⟩
  rw [validKeyLen_iff] at h
  rw [expandKey_nr]
  omega

/-- The schedule a command expands from a checked key operand. -/
theorem expandKey_memRead_wf (s : State) (a n : Nat) (h : validKeyLen n = true) : (expandKey (s.memRead a n)).wf :=
  expandKey_wf _ (by rw [State.memRead_length]; exact h)

/-! ### CTR states -/

theorem CtrState.wf_init (ks : KeySchedule) (counter : Block) (h : ks.wf) : (CtrState.init ks counter).wf :=
  ⟨h, Nat.zero_lt_succ 15⟩

theorem CtrState.wf_withIv (c : CtrState) (iv : Option Block) (h : c.wf) : (c.withIv iv).wf := by
  cases iv with
  | none => exact h
  | some iv => exact ⟨h.1, Nat.zero_lt_succ 15⟩

@[simp] theorem CtrState.nextByte_ks (c : CtrState) (lim : Nat) : (c.nextByte lim).1.ks = c.ks := by
  simp only [CtrState.nextByte]; split <;> rfl

theorem CtrState.wf_nextByte (c : CtrState) (lim : Nat) (h : c.wf) : (c.nextByte lim).1.wf :=
  ⟨by rw [CtrState.nextByte_ks]; exact h.1, Nat.mod_lt _ (by decide)⟩

@[simp] theorem ctrStream_ks (lim : Nat) (c : CtrState) (data : Bytes) : (ctrStream lim c data).1.ks = c.ks := by
  induction data generalizing c with
  | nil => rfl
  | cons d ds ih => exact (ih _).trans (c.nextByte_ks lim)

theorem ctrStream_wf (lim : Nat) (c : CtrState) (data : Bytes) (h : c.wf) : (ctrStream lim c data).1.wf := by
  induction data generalizing c with
  | nil => exact h
  | cons d ds ih => exact ih _ (c.wf_nextByte lim h)

theorem ctrApply_wf (c : CtrState) (data : Bytes) (iv : Option Block) (lim : Nat) (h : c.wf) :
    (ctrApply c data iv lim).1.wf :=
  ctrStream_wf lim _ data (c.wf_withIv iv h)

/-! ### OMAC states -/

theorem omacInit_wf (ks : KeySchedule) (ka kb : Block) (h : ks.wf) : (omacInit ks ka kb).wf :=
  ⟨h, Nat.zero_le 16, fun i _ _ => blockByte_zero i⟩

@[simp] theorem Omac.chain_ks (o : Omac) : o.chain.ks = o.ks := by unfold Omac.chain; split <;> rfl

/-- Chaining leaves room for a pending byte (rule R294). -/
theorem Omac.chain_plen_lt (o : Omac) (h : o.plen ≤ 16) : o.chain.plen < 16 := by
  unfold Omac.chain
  split
  · exact Nat.zero_lt_succ 15
  · omega

theorem Omac.wf_chain (o : Omac) (h : o.wf) : o.chain.wf := by
  unfold Omac.chain
  split
  · exact omacInit_wf o.ks o.ka o.kb h.1
  · exact h

@[simp] theorem Omac.push_ks (o : Omac) (b : Byte) : (o.push b).ks = o.ks := o.chain_ks

theorem Omac.push_plen_pos (o : Omac) (b : Byte) : 1 ≤ (o.push b).plen := Nat.succ_pos o.chain.plen

/-- A pushed byte goes to the first free place, so the places after it stay zero. -/
theorem Omac.wf_push (o : Omac) (b : Byte) (h : o.wf) : (o.push b).wf := by
  obtain ⟨hks, -, hzero⟩ := o.wf_chain h
  refine ⟨hks, o.chain_plen_lt h.2.1, fun i hi hle => ?_⟩
  have hle : o.chain.plen + 1 ≤ i := hle
  show blockByte (blockSetByte o.chain.pend o.chain.plen b) i = 0
  rw [blockByte_blockSetByte _ _ _ _ hi, if_neg (by omega)]
  exact hzero i hi (by omega)

@[simp] theorem omacUpdate_ks (o : Omac) (data : Bytes) : (omacUpdate o data).ks = o.ks := by
  induction data generalizing o with
  | nil => rfl
  | cons b bs ih => exact (ih _).trans (o.push_ks b)

theorem omacUpdate_wf (o : Omac) (data : Bytes) (h : o.wf) : (omacUpdate o data).wf := by
  induction data generalizing o with
  | nil => exact h
  | cons b bs ih => exact ih _ (o.wf_push b h)

/-- An update never empties the pending block (rules R294, R350). -/
theorem omacUpdate_plen_pos (o : Omac) (data : Bytes) (h : 1 ≤ o.plen) : 1 ≤ (omacUpdate o data).plen := by
  induction data generalizing o with
  | nil => exact h
  | cons b bs ih => exact ih _ (o.push_plen_pos b)

theorem cmacInit_wf (ks : KeySchedule) (h : ks.wf) : (cmacInit ks).wf := omacInit_wf ks _ _ h

/-! ### XCBC contexts -/

/-- What the invariant asks of an XCBC slot (rules R43, R45, R320). -/
abbrev XcbcCtx.wf (c : XcbcCtx) : Prop := c.ksK.wf ∧ c.om.wf ∧ (c.outLen = 12 ∨ c.outLen = 16)

theorem prfKey_length (k : Bytes) : (prfKey k).length = 16 := by
  unfold prfKey
  split
  · assumption
  · split
    · simp only [List.length_append, zeros, List.length_replicate]; omega
    · exact blockBytes_length _

/-- Both variants work with a 16-byte key (rules R320, R322, R324). -/
theorem xcbcKey_length (variant : XcbcVariant) (k : Bytes) (h : xcbcKeyLenOk variant k.length = true) :
    (xcbcKey variant k).length = 16 := by
  cases variant with
  | mac96 => exact of_decide_eq_true h
  | prf128 => exact prfKey_length k

theorem xcbcOutLen_cases (variant : XcbcVariant) : xcbcOutLen variant = 12 ∨ xcbcOutLen variant = 16 := by
  cases variant with
  | mac96 => exact .inl rfl
  | prf128 => exact .inr rfl

theorem xcbcInit_wf (variant : XcbcVariant) (k : Bytes) (h : xcbcKeyLenOk variant k.length = true) :
    (xcbcInit variant k).wf := by
  refine ⟨expandKey_wf _ ?_, omacInit_wf _ _ _ (expandKey_wf _ ?_), xcbcOutLen_cases variant⟩
  · rw [xcbcKey_length variant k h]; rfl
  · rw [blockBytes_length]; rfl

/-! ### EAX contexts -/

/-- What the invariant asks of an EAX slot: both OMAC states hold a pending byte, and the three states share one schedule
(rules R43, R45, R350). -/
abbrev EaxCtx.wf (c : EaxCtx) : Prop :=
  c.ctr.wf ∧ c.omH.wf ∧ c.omC.wf ∧ 1 ≤ c.omH.plen ∧ 1 ≤ c.omC.plen ∧ c.omH.ks = c.ctr.ks ∧ c.omC.ks = c.ctr.ks

theorem eaxOmac_wf (ks : KeySchedule) (t : Byte) (h : ks.wf) : (eaxOmac ks t).wf :=
  omacUpdate_wf _ _ (cmacInit_wf ks h)

@[simp] theorem eaxOmac_ks (ks : KeySchedule) (t : Byte) : (eaxOmac ks t).ks = ks := omacUpdate_ks _ _

/-- The tweak block is never empty, so it leaves a byte pending. -/
theorem eaxOmac_plen_pos (ks : KeySchedule) (t : Byte) : 1 ≤ (eaxOmac ks t).plen := by
  rw [eaxOmac, eaxTweak, omacUpdate, List.foldl_concat]
  exact Omac.push_plen_pos _ t

theorem eaxInit_wf (ks : KeySchedule) (nonce : Bytes) (h : ks.wf) : (eaxInit ks nonce).wf :=
  ⟨CtrState.wf_init ks _ h, eaxOmac_wf ks 1 h, eaxOmac_wf ks 2 h, eaxOmac_plen_pos ks 1, eaxOmac_plen_pos ks 2,
    eaxOmac_ks ks 1, eaxOmac_ks ks 2⟩

theorem EaxCtx.wf_header (c : EaxCtx) (data : Bytes) (h : c.wf) : (c.header data).wf := by
  obtain ⟨hctr, hH, hC, hpH, hpC, hkH, hkC⟩ := h
  exact ⟨hctr, omacUpdate_wf _ data hH, hC, omacUpdate_plen_pos _ data hpH, hpC, (omacUpdate_ks _ data).trans hkH, hkC⟩

theorem EaxCtx.wf_absorb (c : EaxCtx) (data : Bytes) (h : c.wf) : (c.absorb data).wf := by
  obtain ⟨hctr, hH, hC, hpH, hpC, hkH, hkC⟩ := h
  exact ⟨hctr, hH, omacUpdate_wf _ data hC, hpH, omacUpdate_plen_pos _ data hpC, hkH, (omacUpdate_ks _ data).trans hkC⟩

theorem EaxCtx.wf_stream (c : EaxCtx) (data : Bytes) (h : c.wf) : (c.stream data).1.wf := by
  obtain ⟨hctr, hH, hC, hpH, hpC, hkH, hkC⟩ := h
  have hks : (c.stream data).1.ctr.ks = c.ctr.ks := ctrStream_ks 16 c.ctr data
  exact ⟨ctrApply_wf _ data none 16 hctr, hH, hC, hpH, hpC, hkH.trans hks.symm, hkC.trans hks.symm⟩

theorem EaxCtx.wf_encrypt (c : EaxCtx) (data : Bytes) (h : c.wf) : (c.encrypt data).1.wf :=
  EaxCtx.wf_absorb _ _ (c.wf_stream data h)

theorem EaxCtx.wf_decrypt (c : EaxCtx) (data : Bytes) (h : c.wf) : (c.decrypt data).1.wf :=
  EaxCtx.wf_stream _ data (c.wf_absorb data h)

theorem EaxCtx.wf_close (c : EaxCtx) (h : c.wf) : c.close.wf := h

/-! ### Well-formed slots, kind by kind -/

@[simp] theorem Slot.wf_empty : Slot.empty.wf = true := rfl

@[simp] theorem Slot.wf_cipher (c : CipherCtx) :
    (Slot.cipher c).wf = true ↔ c.ks.wf ∧ validKeyLen c.keyLen = true ∧ c.ks.nr = c.keyLen / 4 + 6 := decide_eq_true_iff

@[simp] theorem Slot.wf_ctr (c : CtrState) : (Slot.ctr c).wf = true ↔ c.wf := decide_eq_true_iff

@[simp] theorem Slot.wf_cmac (c : CmacCtx) : (Slot.cmac c).wf = true ↔ c.om.wf := decide_eq_true_iff

@[simp] theorem Slot.wf_xcbc (c : XcbcCtx) : (Slot.xcbc c).wf = true ↔ c.wf := decide_eq_true_iff

@[simp] theorem Slot.wf_eax (c : EaxCtx) : (Slot.eax c).wf = true ↔ c.wf := decide_eq_true_iff

theorem Slot.wf_of_asCtr (v : Slot) (c : CtrState) (h : v.wf = true) (hc : v.asCtr = some c) : c.wf := by
  rw [Slot.asCtr_eq_some] at hc; subst hc; exact (Slot.wf_ctr c).mp h

theorem Slot.wf_of_asCmac (v : Slot) (c : CmacCtx) (h : v.wf = true) (hc : v.asCmac = some c) : c.om.wf := by
  rw [Slot.asCmac_eq_some] at hc; subst hc; exact (Slot.wf_cmac c).mp h

theorem Slot.wf_of_asXcbc (v : Slot) (c : XcbcCtx) (h : v.wf = true) (hc : v.asXcbc = some c) : c.wf := by
  rw [Slot.asXcbc_eq_some] at hc; subst hc; exact (Slot.wf_xcbc c).mp h

theorem Slot.wf_of_asEax (v : Slot) (c : EaxCtx) (h : v.wf = true) (hc : v.asEax = some c) : c.wf := by
  rw [Slot.asEax_eq_some] at hc; subst hc; exact (Slot.wf_eax c).mp h

/-! ### A rule records only well-formed slots -/

/-- The invariant's clause about the slot file (rules R43, R45). -/
abbrev State.SlotsWf (s : State) : Prop := ∀ v ∈ s.slots, v.wf = true

theorem State.Inv.slotsWf {s : State} (h : s.Inv) : s.SlotsWf := by
  obtain ⟨-, -, -, -, hslots, -⟩ := h
  exact hslots

/-- Whatever slot value a rule records is well formed. -/
def RecordsWf (r : CommandResult) : Prop := ∀ e h v, r = .ok e → e.slot = some (h, v) → v.wf = true

theorem State.SlotsWf.slot {s : State} (hs : s.SlotsWf) (h : Nat) : (s.slot h).wf = true := by
  unfold State.slot
  split
  · rfl
  · rw [List.getD_eq_getElem?_getD]
    cases hv : s.slots[h - 1]? with
    | none => rfl
    | some v => exact hs v (List.mem_of_getElem? hv)

/-- A check or an allocation records nothing itself. -/
theorem RecordsWf.bind {α : Type} (m : Except StatusCode α) (f : α → CommandResult)
    (hf : ∀ a, m = .ok a → RecordsWf (f a)) : RecordsWf (m >>= f) := by
  cases m with
  | ok a => exact hf a rfl
  | error c => intro e h v he; cases he

theorem RecordsWf.require (b : Bool) (c : StatusCode) (f : Unit → CommandResult) (hf : b = true → RecordsWf (f ())) :
    RecordsWf (Machine.require b c >>= f) :=
  .bind _ _ fun _ h => hf ((require_ok b c).mp h)

/-- The context a handle check gives has every property that well-formed slots of its kind have. -/
theorem RecordsWf.checkHandle {α : Type} {P : α → Prop} {s : State} (hs : s.SlotsWf) (h : Nat) (kind : Slot → Option α)
    (req : PhaseReq) (f : α → CommandResult) (hempty : kind .empty = none)
    (hP : ∀ v c, v.wf = true → kind v = some c → P c) (hf : ∀ c, P c → RecordsWf (f c)) :
    RecordsWf (s.checkHandle h kind req >>= f) :=
  .bind _ _ fun c hc => hf c (hP _ c (hs.slot h) ((s.checkHandle_ok h kind req c hempty).mp hc).1)

theorem RecordsWf.error (c : StatusCode) : RecordsWf (.error c) := by intro e h v he; cases he

theorem RecordsWf.noSlot (ws : List (Nat × Bytes)) : RecordsWf (.ok { writes := ws }) := by
  intro e h v he hv; cases he; cases hv

theorem RecordsWf.record (h : Nat) (v : Slot) (ws : List (Nat × Bytes)) (n : Nat) (hv : v.wf = true) :
    RecordsWf (.ok { slot := some (h, v), writes := ws, handle := n }) := by
  intro e h' v' he hv'; cases he; cases hv'; exact hv

theorem ctxCreateRule_recordsWf (dir : Dir) (mode : Nat) (s : State) : RecordsWf (ctxCreateRule dir mode s) := by
  refine .require _ _ _ fun _ => .require _ _ _ fun hlen => .bind _ _ fun _ _ => .bind _ _ fun h _ =>
    .record h _ [] h ?_
  have hkey : (s.readBuffer (keyBuffer s)).length = s.a1 := s.memRead_length _ _
  exact (Slot.wf_cipher _).mpr ⟨expandKey_memRead_wf s _ _ hlen, hlen, by rw [expandKey_nr, hkey]⟩

theorem ctxDestroyRule_recordsWf (h : Nat) (s : State) : RecordsWf (ctxDestroyRule h s) := by
  unfold ctxDestroyRule
  split
  · exact .noSlot []
  · split
    · exact .error _
    · exact .record h _ [] 0 Slot.wf_empty

theorem aesBlockRule_recordsWf (h : Nat) (dir : Dir) (s : State) : RecordsWf (aesBlockRule h dir s) :=
  .bind _ _ fun _ _ => .bind _ _ fun _ _ => .bind _ _ fun _ _ => .noSlot _

theorem blockModeRule_recordsWf (h : Nat) (dir : Dir) (s : State) : RecordsWf (blockModeRule h dir s) :=
  .bind _ _ fun _ _ => .bind _ _ fun _ _ => .bind _ _ fun _ _ => .bind _ _ fun _ _ => .noSlot _

theorem ctrCreateRule_recordsWf (s : State) : RecordsWf (ctrCreateRule s) := by
  unfold ctrCreateRule
  split
  · exact .require _ _ _ fun hlen => .bind _ _ fun _ _ => .bind _ _ fun h _ => .record h _ [] h
      ((Slot.wf_ctr _).mpr (CtrState.wf_init _ _ (expandKey_memRead_wf s _ _ hlen)))
  · exact .require _ _ _ fun hlen => .bind _ _ fun _ _ => .bind _ _ fun h _ => .record h _ [] h
      ((Slot.wf_ctr _).mpr (CtrState.wf_init _ _ (expandKey_memRead_wf s _ _ (of_decide_eq_true hlen).2)))

theorem ctrApplyRule_recordsWf (h lim : Nat) (s : State) (hs : s.SlotsWf) : RecordsWf (ctrApplyRule h lim s) :=
  .checkHandle hs _ _ _ _ rfl Slot.wf_of_asCtr fun c hc => .bind _ _ fun _ _ => .bind _ _ fun _ _ =>
    .record h _ _ 0 ((Slot.wf_ctr _).mpr (ctrApply_wf c _ _ lim hc))

theorem ccmEncryptRule_recordsWf (m l : Nat) (s : State) : RecordsWf (ccmEncryptRule m l s) :=
  .bind _ _ fun _ _ => .noSlot _

theorem ccmDecryptRule_recordsWf (m l : Nat) (s : State) : RecordsWf (ccmDecryptRule m l s) :=
  .bind _ _ fun _ _ => .bind _ _ fun _ _ => .noSlot _

theorem cmacCreateRule_recordsWf (s : State) : RecordsWf (cmacCreateRule s) :=
  .require _ _ _ fun hlen => .bind _ _ fun _ _ => .bind _ _ fun h _ => .record h _ [] h
    ((Slot.wf_cmac _).mpr (cmacInit_wf _ (expandKey_memRead_wf s _ _ hlen)))

theorem cmacUpdateRule_recordsWf (h : Nat) (s : State) (hs : s.SlotsWf) : RecordsWf (cmacUpdateRule h s) :=
  .checkHandle hs _ _ _ _ rfl Slot.wf_of_asCmac fun c hc => .bind _ _ fun _ _ =>
    .record h _ [] 0 ((Slot.wf_cmac _).mpr (omacUpdate_wf c.om _ hc))

theorem cmacFinalRule_recordsWf (h : Nat) (s : State) (hs : s.SlotsWf) : RecordsWf (cmacFinalRule h s) :=
  .checkHandle hs _ _ _ _ rfl Slot.wf_of_asCmac fun _ hc => .bind _ _ fun _ _ =>
    .record h _ _ 0 ((Slot.wf_cmac _).mpr hc)

theorem xcbcCreateRule_recordsWf (variant : XcbcVariant) (s : State) : RecordsWf (xcbcCreateRule variant s) := by
  refine .require _ _ _ fun hlen => .bind _ _ fun _ _ => .bind _ _ fun h _ => .record h _ [] h ?_
  exact (Slot.wf_xcbc _).mpr (xcbcInit_wf variant _ (by rw [State.memRead_length]; exact hlen))

theorem xcbcUpdateRule_recordsWf (h : Nat) (s : State) (hs : s.SlotsWf) : RecordsWf (xcbcUpdateRule h s) := by
  refine .checkHandle hs _ _ _ _ rfl Slot.wf_of_asXcbc fun c hc => .bind _ _ fun _ _ => .record h _ [] 0 ?_
  obtain ⟨hks, hom, hout⟩ := hc
  exact (Slot.wf_xcbc _).mpr ⟨hks, omacUpdate_wf c.om _ hom, hout⟩

theorem xcbcFinalRule_recordsWf (h : Nat) (s : State) (hs : s.SlotsWf) : RecordsWf (xcbcFinalRule h s) :=
  .checkHandle hs _ _ _ _ rfl Slot.wf_of_asXcbc fun _ hc => .bind _ _ fun _ _ =>
    .record h _ _ 0 ((Slot.wf_xcbc _).mpr hc)

theorem eaxCreateRule_recordsWf (s : State) : RecordsWf (eaxCreateRule s) :=
  .require _ _ _ fun hlen => .bind _ _ fun _ _ => .bind _ _ fun h _ => .record h _ [] h
    ((Slot.wf_eax _).mpr (eaxInit_wf _ _ (expandKey_memRead_wf s _ _ hlen)))

theorem eaxHeaderRule_recordsWf (h : Nat) (s : State) (hs : s.SlotsWf) : RecordsWf (eaxHeaderRule h s) :=
  .checkHandle hs _ _ _ _ rfl Slot.wf_of_asEax fun c hc => .bind _ _ fun _ _ =>
    .record h _ [] 0 ((Slot.wf_eax _).mpr (c.wf_header _ hc))

theorem eaxEncryptRule_recordsWf (h : Nat) (s : State) (hs : s.SlotsWf) : RecordsWf (eaxEncryptRule h s) :=
  .checkHandle hs _ _ _ _ rfl Slot.wf_of_asEax fun c hc => .bind _ _ fun _ _ =>
    .record h _ _ 0 ((Slot.wf_eax _).mpr (c.wf_encrypt _ hc))

theorem eaxDecryptRule_recordsWf (h : Nat) (s : State) (hs : s.SlotsWf) : RecordsWf (eaxDecryptRule h s) :=
  .checkHandle hs _ _ _ _ rfl Slot.wf_of_asEax fun c hc => .bind _ _ fun _ _ =>
    .record h _ _ 0 ((Slot.wf_eax _).mpr (c.wf_decrypt _ hc))

theorem eaxFinalRule_recordsWf (h t : Nat) (s : State) (hs : s.SlotsWf) : RecordsWf (eaxFinalRule h t s) :=
  .checkHandle hs _ _ _ _ rfl Slot.wf_of_asEax fun c hc => .bind _ _ fun _ _ => .bind _ _ fun _ _ =>
    .record h _ _ 0 ((Slot.wf_eax _).mpr (c.wf_close hc))

theorem eaxGentagRule_recordsWf (h t : Nat) (s : State) (hs : s.SlotsWf) : RecordsWf (eaxGentagRule h t s) :=
  .checkHandle hs _ _ _ _ rfl Slot.wf_of_asEax fun c hc => .bind _ _ fun _ _ => .bind _ _ fun _ _ =>
    .record h _ _ 0 ((Slot.wf_eax _).mpr (EaxCtx.wf_close _ (EaxCtx.wf_absorb _ _ (c.wf_header _ hc))))

theorem eaxGetptRule_recordsWf (h : Nat) (s : State) (hs : s.SlotsWf) : RecordsWf (eaxGetptRule h s) :=
  .checkHandle hs _ _ _ _ rfl Slot.wf_of_asEax fun c hc => .bind _ _ fun _ _ =>
    .record h _ _ 0 ((Slot.wf_eax _).mpr (c.wf_stream _ hc))

theorem kwWrapRule_recordsWf (s : State) : RecordsWf (kwWrapRule s) :=
  .bind _ _ fun _ _ => .bind _ _ fun _ _ => .bind _ _ fun _ _ => .noSlot _

theorem kwUnwrapRule_recordsWf (s : State) : RecordsWf (kwUnwrapRule s) :=
  .bind _ _ fun _ _ => .bind _ _ fun _ _ => .bind _ _ fun _ _ => .bind _ _ fun _ _ => .noSlot _

theorem ctCompareRule_recordsWf (s : State) : RecordsWf (ctCompareRule s) :=
  .bind _ _ fun _ _ => .bind _ _ fun _ _ => .noSlot []

/-- Every command records only well-formed slots when the slot file is well formed. -/
theorem ruleOf_recordsWf (i : Instr) (s : State) (hs : s.SlotsWf) : RecordsWf (ruleOf i s) := by
  cases i with
  | ctxCreate dir mode => exact ctxCreateRule_recordsWf dir mode s
  | ctxDestroy h => exact ctxDestroyRule_recordsWf h s
  | aesBlock h dir => exact aesBlockRule_recordsWf h dir s
  | blockMode h dir => exact blockModeRule_recordsWf h dir s
  | ctrCreate => exact ctrCreateRule_recordsWf s
  | ctrApply h lim => exact ctrApplyRule_recordsWf h lim s hs
  | ccmEncrypt m l => exact ccmEncryptRule_recordsWf m l s
  | ccmDecrypt m l => exact ccmDecryptRule_recordsWf m l s
  | cmacCreate => exact cmacCreateRule_recordsWf s
  | cmacUpdate h => exact cmacUpdateRule_recordsWf h s hs
  | cmacFinal h => exact cmacFinalRule_recordsWf h s hs
  | xcbcCreate variant => exact xcbcCreateRule_recordsWf variant s
  | xcbcUpdate h => exact xcbcUpdateRule_recordsWf h s hs
  | xcbcFinal h => exact xcbcFinalRule_recordsWf h s hs
  | eaxCreate => exact eaxCreateRule_recordsWf s
  | eaxHeader h => exact eaxHeaderRule_recordsWf h s hs
  | eaxEncrypt h => exact eaxEncryptRule_recordsWf h s hs
  | eaxDecrypt h => exact eaxDecryptRule_recordsWf h s hs
  | eaxFinal h t => exact eaxFinalRule_recordsWf h t s hs
  | eaxGentag h t => exact eaxGentagRule_recordsWf h t s hs
  | eaxGetpt h => exact eaxGetptRule_recordsWf h s hs
  | kwWrap => exact kwWrapRule_recordsWf s
  | kwUnwrap => exact kwUnwrapRule_recordsWf s
  | ctCompare => exact ctCompareRule_recordsWf s

/-! ### The effects of a command keep the invariant -/

/-- The slots after a recorded change are old ones or the recorded one. -/
theorem Effects.mem_slotsAfter (e : Effects) (slots : List Slot) (v : Slot) (hv : v ∈ e.slotsAfter slots) :
    v ∈ slots ∨ ∃ h, e.slot = some (h, v) := by
  unfold Effects.slotsAfter at hv
  split at hv
  · exact .inl hv
  · next h w hslot =>
    unfold setSlot at hv
    split at hv
    · exact .inl hv
    · rcases List.mem_or_eq_of_mem_set hv with hv | rfl
      · exact .inl hv
      · exact .inr ⟨h, hslot⟩

/-- Allowed writes end inside the data memory (rules R70, R74). -/
theorem Effects.writesAllowed_lt (i : Instr) (s : State) (e : Effects) (he : e.writesAllowed i s) (w : Nat × Bytes)
    (hw : w ∈ e.writes) (a : Nat) (ha : a < w.1 + w.2.length) (hle : w.1 ≤ a) : a < s.memBytes := by
  obtain ⟨b, -, haddr, hlen, hacc⟩ := he w hw
  simp only [State.accepts] at hacc
  omega

theorem State.ended_inv (s : State) (c : StatusCode) (v : Byte) (h : s.Inv) : (s.ended c v).Inv := by
  obtain ⟨hn, hm, hwf, hin, hslots, -⟩ := h
  exact ⟨hn, hm, hwf, hin, hslots, rfl⟩

/-- A completion with allowed writes and a well-formed slot change keeps the invariant. -/
theorem State.complete_inv (i : Instr) (s : State) (e : Effects) (h : s.Inv) (hw : e.writesAllowed i s)
    (hr : ∀ k v, e.slot = some (k, v) → v.wf = true) : (s.complete e).Inv := by
  obtain ⟨hn, hm, hwf, hin, hslots, -⟩ := h
  refine ⟨?_, hm, Memory.wf_commit _ _ hwf, fun c hc => ?_, fun v hv => ?_, rfl⟩
  · rw [State.nslot, State.complete_slots, Effects.slotsAfter_length]; exact hn
  · rcases Memory.mem_commit _ _ c hc with hc | ⟨w, hwq, hle, hlt⟩
    · exact hin c hc
    · exact Effects.writesAllowed_lt i s e hw w hwq c.1 hlt hle
  · rcases e.mem_slotsAfter _ v hv with hv | ⟨k, hk⟩
    · exact hslots v hv
    · exact hr k v hk

theorem exec_inv (i : Instr) (s t : State) (h : s.Inv) (hstep : exec i s = .next t) : t.Inv := by
  rw [exec_eq_runRule, State.runRule_next] at hstep
  rcases hstep with ⟨c, -, rfl⟩ | ⟨e, he, rfl⟩
  · exact s.ended_inv c 0 h
  · rcases ruleOf_does i s with ⟨c, hc, -⟩ | ⟨e', he', hw, -⟩
    · rw [he] at hc; cases hc
    · rw [he] at he'; cases he'
      exact s.complete_inv i e h hw fun k v => ruleOf_recordsWf i s h.slotsWf e k v he

theorem engineStep_inv (s t : State) (h : s.Inv) (hstep : engineStep s = .next t) : t.Inv := by
  unfold engineStep at hstep
  split at hstep
  · exact exec_inv _ s t h hstep
  · cases hstep; exact s.ended_inv .illegalCmd 0 h

/-! ### The actions of the host keep the invariant -/

theorem State.resetWith_inv (nslot memBytes : Nat) (hn : Config.validNslot nslot) (hm : Config.validMemBytes memBytes) :
    (State.resetWith nslot memBytes).Inv := by
  refine ⟨?_, hm, List.Pairwise.nil, by simp [State.resetWith], fun v hv => ?_, rfl⟩
  · rw [State.nslot, State.resetWith, List.length_replicate]; exact hn
  · rw [List.eq_of_mem_replicate hv]; rfl

/-- The invariant looks at the slots, the memory, MEM_BYTES and the scratch only. -/
theorem State.inv_of_eq (s t : State) (h : s.Inv) (hslots : t.slots = s.slots) (hmem : t.mem = s.mem)
    (hbytes : t.memBytes = s.memBytes) (hscratch : t.scratch = s.scratch) : t.Inv := by
  simp only [State.Inv, State.nslot, hslots, hmem, hbytes, hscratch]
  exact h

theorem State.writeReg_inv (s : State) (offset : Byte) (v : Word) (h : s.Inv) : (s.writeReg offset v).Inv := by
  unfold State.writeReg
  split <;> exact h

theorem State.memWrite_inv (s : State) (a : Nat) (v : Byte) (h : s.Inv) (ha : a < s.memBytes) :
    ({ s with mem := Memory.write s.mem a v } : State).Inv := by
  obtain ⟨hn, hm, hwf, hin, hslots, hscratch⟩ := h
  refine ⟨hn, hm, Memory.wf_write _ _ _ hwf, fun c hc => ?_, hslots, hscratch⟩
  rcases Memory.mem_write _ _ _ c hc with rfl | hc
  · exact ha
  · exact hin c hc

theorem orFault_next (f : Option Fault) (s t : State) : orFault f s = .next t ↔ f = none ∧ t = s := by
  cases f <;> simp [orFault, eq_comm]

/-- An allowed host access to data memory is below MEM_BYTES (rule R84). -/
theorem memFault_none (s : State) (a : Nat) (h : memFault s a = none) : a < s.memBytes := by
  unfold memFault at h
  split at h
  · cases h
  · split at h
    · cases h
    · omega

theorem hostAction_inv (a : HostAction) (s t : State) (h : s.Inv) (hstep : hostAction a s = .next t) : t.Inv := by
  cases a with
  | memWrite addr v =>
    obtain ⟨hf, rfl⟩ := (orFault_next _ _ _).mp hstep
    exact s.memWrite_inv _ v h (memFault_none s _ hf)
  | memRead addr => obtain ⟨-, rfl⟩ := (orFault_next _ _ _).mp hstep; exact h
  | regWrite width offset v => obtain ⟨-, rfl⟩ := (orFault_next _ _ _).mp hstep; exact s.writeReg_inv offset v h
  | regRead width offset => obtain ⟨-, rfl⟩ := (orFault_next _ _ _).mp hstep; exact h
  | wait =>
    simp only [hostAction] at hstep
    split at hstep <;> cases hstep <;> exact h
  | reset =>
    obtain ⟨hn, hm, -⟩ := h
    cases hstep
    exact State.resetWith_inv _ _ hn hm

theorem hostStep_inv (s t : State) (h : s.Inv) (hstep : hostStep s = .next t) : t.Inv := by
  unfold hostStep at hstep
  split at hstep
  · cases hstep; exact h
  · next a rest _ => exact hostAction_inv a { s with host := rest } t h hstep

theorem State.useTurn_inv (s : State) (h : s.Inv) : s.useTurn.Inv :=
  s.inv_of_eq _ h s.useTurn_slots s.useTurn_mem s.useTurn_memBytes s.useTurn_scratch

theorem step_inv (s t : State) (h : s.Inv) (hstep : step s = .next t) : t.Inv := by
  unfold step at hstep
  split at hstep
  · exact engineStep_inv _ t (s.useTurn_inv h) hstep
  · exact hostStep_inv _ t (s.useTurn_inv h) hstep

/-! ### The obligations -/

/-- Settles O58: the reset state of every NSLOT and MEM_BYTES in range, the examples' values among them. -/
theorem resetSatisfiesTheInvariant : Obligations.ResetSatisfiesTheInvariant :=
  ⟨State.resetWith_inv _ _ (by decide) (by decide), State.resetWith_inv⟩

/-- Settles O59, agent by agent: a command by its rule (`exec_inv`), the host by its action (`hostAction_inv`). -/
theorem everyStepKeepsTheInvariant : Obligations.EveryStepKeepsTheInvariant := step_inv

end Sys2Proof.Machine
end

/-! PROOFS. The word of a well-formed command decodes to the command (rules R101, R103, R106, R109). -/
section
namespace Sys2Proof

@[simp] theorem Dir.ofBit_toBit (d : Dir) : Dir.ofBit d.toBit = d := by cases d <;> rfl

theorem Dir.toBit_lt (d : Dir) : d.toBit < 2 := by cases d <;> decide

@[simp] theorem XcbcVariant.ofBit_toBit (v : XcbcVariant) : XcbcVariant.ofBit v.toBit = v := by cases v <;> rfl

theorem XcbcVariant.toBit_lt (v : XcbcVariant) : v.toBit < 2 := by cases v <;> decide

theorem acceptIf_of_true (b : Bool) (op : Nat) (i : Instr) (h : b = true) : acceptIf b op i = .ok i := by
  rw [acceptIf, if_pos h]

/-- A row's must-be-zero fields are zero in the fields of a well-formed command (rules R103, R106). -/
theorem decodeFields_fields (i : Instr) (hwf : i.wf = true) : decodeFields i.fields = .ok i := by
  cases i with
  | ctxCreate dir mode =>
    have hmode : mode < 4 := of_decide_eq_true hwf
    have hdir := dir.toBit_lt
    have hbit : (dir.toBit + 2 * mode) % 2 = dir.toBit := by omega
    have hfield : (dir.toBit + 2 * mode) / 2 = mode := by omega
    simp only [decodeFields, Instr.fields, hbit, hfield, Dir.ofBit_toBit]
    exact acceptIf_of_true _ _ _ (decide_eq_true ⟨trivial, trivial, by omega⟩)
  | aesBlock h dir =>
    simp only [decodeFields, Instr.fields, Dir.ofBit_toBit]
    exact acceptIf_of_true _ _ _ (decide_eq_true ⟨trivial, dir.toBit_lt⟩)
  | blockMode h dir =>
    simp only [decodeFields, Instr.fields, Dir.ofBit_toBit]
    exact acceptIf_of_true _ _ _ (decide_eq_true ⟨trivial, dir.toBit_lt⟩)
  | xcbcCreate variant =>
    simp only [decodeFields, Instr.fields, XcbcVariant.ofBit_toBit]
    exact acceptIf_of_true _ _ _ (decide_eq_true ⟨trivial, trivial, variant.toBit_lt⟩)
  | _ => rfl

/-- The word of a well-formed command holds the fields of its row, constructor by constructor (rules R101, R109). -/
theorem ofWord_encode (i : Instr) (hwf : i.wf = true) : CmdFields.ofWord (encode i) = i.fields := by
  revert hwf
  change Laws.FieldsRoundTrip.Statement i
  cases i with
  | ctxCreate dir mode => exact Laws.FieldsRoundTrip.ctxCreate dir mode
  | ctxDestroy h => exact Laws.FieldsRoundTrip.ctxDestroy h
  | aesBlock h dir => exact Laws.FieldsRoundTrip.aesBlock h dir
  | blockMode h dir => exact Laws.FieldsRoundTrip.blockMode h dir
  | ctrCreate => exact Laws.FieldsRoundTrip.ctrCreate
  | ctrApply h lim => exact Laws.FieldsRoundTrip.ctrApply h lim
  | ccmEncrypt m l => exact Laws.FieldsRoundTrip.ccmEncrypt m l
  | ccmDecrypt m l => exact Laws.FieldsRoundTrip.ccmDecrypt m l
  | cmacCreate => exact Laws.FieldsRoundTrip.cmacCreate
  | cmacUpdate h => exact Laws.FieldsRoundTrip.cmacUpdate h
  | cmacFinal h => exact Laws.FieldsRoundTrip.cmacFinal h
  | xcbcCreate variant => exact Laws.FieldsRoundTrip.xcbcCreate variant
  | xcbcUpdate h => exact Laws.FieldsRoundTrip.xcbcUpdate h
  | xcbcFinal h => exact Laws.FieldsRoundTrip.xcbcFinal h
  | eaxCreate => exact Laws.FieldsRoundTrip.eaxCreate
  | eaxHeader h => exact Laws.FieldsRoundTrip.eaxHeader h
  | eaxEncrypt h => exact Laws.FieldsRoundTrip.eaxEncrypt h
  | eaxDecrypt h => exact Laws.FieldsRoundTrip.eaxDecrypt h
  | eaxFinal h t => exact Laws.FieldsRoundTrip.eaxFinal h t
  | eaxGentag h t => exact Laws.FieldsRoundTrip.eaxGentag h t
  | eaxGetpt h => exact Laws.FieldsRoundTrip.eaxGetpt h
  | kwWrap => exact Laws.FieldsRoundTrip.kwWrap
  | kwUnwrap => exact Laws.FieldsRoundTrip.kwUnwrap
  | ctCompare => exact Laws.FieldsRoundTrip.ctCompare

theorem decode_encode (i : Instr) (hwf : i.wf = true) : decode (encode i) = .ok i := by
  rw [decode, ofWord_encode i hwf, decodeFields_fields i hwf]

/-- CTX_DESTROY is the one command that destroys, and H names its slot (rule R165). -/
theorem Instr.eq_ctxDestroy (i : Instr) (h : Nat) (hd : i.isDestroy = true) (hh : i.handle = some h) :
    i = .ctxDestroy h := by
  cases i with
  | ctxDestroy k => cases hh; rfl
  | _ => cases hd

end Sys2Proof
end

/-! PROOFS. The register file, the slot file and the host port (rules R31 to R37, R46, R50, R81, R436, R442, R478). -/
section
namespace Sys2Proof.Machine

/-! ### Everything a command can do to the state -/

/-- The end of a command (rule R436): a code it may report, or completion with effects its rule may give. -/
theorem exec_cases (i : Instr) (s t : State) (h : exec i s = .next t) :
    (∃ c, t = s.ended c 0 ∧ c ≠ .ok ∧ i.mayReport c = true) ∨
    (∃ e, t = s.complete e ∧ e.writesAllowed i s ∧ e.slotAllowed i s) := by
  rw [exec_next] at h
  rcases ruleOf_does i s with ⟨c, hr, hne, hmay⟩ | ⟨e, hr, hw, hs⟩ <;> rw [hr] at h
  · exact .inl ⟨c, h, hne, hmay⟩
  · exact .inr ⟨e, h, hw, hs⟩

/-- A completion changes no other slot than the recorded one. -/
theorem State.complete_slot_of_ne (s : State) (e : Effects) (h k : Nat) (v : Slot) (he : e.slot = some (h, v))
    (hk : k ≠ h) : (s.complete e).slot k = s.slot k := by
  simp only [State.slot, State.complete_slots, Effects.slotsAfter, he, setSlot]
  by_cases h0 : h = 0 ∨ k = 0
  · rcases h0 with rfl | rfl <;> simp
  · rw [if_neg (by omega), if_neg (by omega), if_neg (by omega), List.getD_eq_getElem?_getD,
      List.getElem?_set_ne (by omega), List.getD_eq_getElem?_getD]

/-- A completion records its value in a slot that exists. -/
theorem State.complete_slot_same (s : State) (e : Effects) (h : Nat) (v : Slot) (he : e.slot = some (h, v))
    (hpos : 1 ≤ h) (hle : h ≤ s.nslot) : (s.complete e).slot h = v := by
  have hslots : (s.complete e).slots = s.slots.set (h - 1) v := by
    rw [State.complete_slots, Effects.slotsAfter, he]; exact setSlot_of_pos _ _ _ hpos
  rw [slot_set s h h v hpos hle _ hslots, if_pos rfl]

/-- A completion that records no slot changes none. -/
theorem State.complete_slot_of_none (s : State) (e : Effects) (k : Nat) (he : e.slot = none) :
    (s.complete e).slot k = s.slot k := by
  simp only [State.slot, State.complete_slots, Effects.slotsAfter, he]

/-! ### The phase of a slot -/

/-- Only a filled slot is FINAL (rule R46). -/
theorem Slot.ne_empty_of_finalized (v : Slot) (h : v.phase = .finalized) : v ≠ .empty := by
  rintro rfl; cases h

/-! ### A create command without an EMPTY slot -/

section
variable {s : State} (hfull : ∀ h, 1 ≤ h → h ≤ s.nslot → s.slot h ≠ .empty)
include hfull

theorem State.alloc_of_full : s.alloc = .error .allocFail := by
  cases ha : s.alloc with
  | error c => rw [s.alloc_error c ha]
  | ok h =>
    obtain ⟨hpos, hle, hempty, -⟩ := (s.alloc_ok h).mp ha
    exact absurd hempty (hfull h hpos hle)

/-- The tail that every create rule shares ends with ALLOC_FAIL (rule R442) once its checks pass. -/
theorem createRule_of_full (b : Bool) (c : StatusCode) (bs : List Buffer) (f : Nat → CommandResult) (hb : b = true)
    (hbs : ∀ b ∈ bs, s.accepts b) :
    (do require b c; s.checkBuffers bs; let h ← s.alloc; f h) = .error .allocFail := by
  rw [hb, require_true, (s.checkBuffers_ok bs).mpr hbs, State.alloc_of_full hfull]
  rfl

theorem ctxCreateRule_of_full (dir : Dir) (mode : Nat) (hmode : mode ≤ 1) (hkey : aesKeyLen s.a1)
    (hacc : s.accepts ⟨s.a0, s.a1⟩) : ctxCreateRule dir mode s = .error .allocFail := by
  unfold ctxCreateRule
  rw [decide_eq_true hmode, require_true]
  exact createRule_of_full hfull _ _ _ _ ((validKeyLen_iff _).mpr hkey) (by simpa [keyBuffer] using hacc)

theorem ctrCreateRule_of_full_separate (h2 : s.a2 ≠ 0) (hkey : aesKeyLen s.a1) (hacc : s.accepts ⟨s.a0, s.a1⟩)
    (hctr : s.accepts ⟨s.a2, 16⟩) : ctrCreateRule s = .error .allocFail := by
  rw [ctrCreateRule, if_pos h2]
  exact createRule_of_full hfull _ _ _ _ ((validKeyLen_iff _).mpr hkey)
    (List.forall_mem_cons.mpr ⟨hacc, List.forall_mem_singleton.mpr hctr⟩)

theorem ctrCreateRule_of_full_combined (h2 : s.a2 = 0) (h16 : 16 ≤ s.a1) (hkey : aesKeyLen (s.a1 - 16))
    (hacc : s.accepts ⟨s.a0, s.a1⟩) : ctrCreateRule s = .error .allocFail := by
  rw [ctrCreateRule, if_neg (not_not.mpr h2)]
  exact createRule_of_full hfull _ _ _ _ (decide_eq_true ⟨h16, (validKeyLen_iff _).mpr hkey⟩)
    (List.forall_mem_singleton.mpr hacc)

theorem cmacCreateRule_of_full (hkey : aesKeyLen s.a1) (hacc : s.accepts ⟨s.a0, s.a1⟩) :
    cmacCreateRule s = .error .allocFail :=
  createRule_of_full hfull _ _ _ _ ((validKeyLen_iff _).mpr hkey) (List.forall_mem_singleton.mpr hacc)

theorem xcbcCreateRule_of_full (variant : XcbcVariant) (hkey : xcbcKeyLenOk variant s.a1 = true)
    (hacc : s.accepts ⟨s.a0, s.a1⟩) : xcbcCreateRule variant s = .error .allocFail :=
  createRule_of_full hfull _ _ _ _ hkey (List.forall_mem_singleton.mpr hacc)

theorem eaxCreateRule_of_full (hkey : aesKeyLen s.a1) (hacc : s.accepts ⟨s.a0, s.a1⟩)
    (hnonce : s.accepts ⟨s.a2, s.a3⟩) : eaxCreateRule s = .error .allocFail :=
  createRule_of_full hfull _ _ _ _ ((validKeyLen_iff _).mpr hkey)
    (List.forall_mem_cons.mpr ⟨hacc, List.forall_mem_singleton.mpr hnonce⟩)

end

/-- A command whose rule raises a code ends with it. -/
theorem exec_of_error (i : Instr) (s : State) (c : StatusCode) (h : ruleOf i s = .error c) :
    exec i s = .next (s.ended c 0) := by
  rw [exec_eq_runRule, h, State.runRule_error]

/-! ### RESULT at the end of a command -/

/-- A create command that ends with OK returns the slot it took (rules R37, R442). -/
theorem exec_create_ok (i : Instr) (s t : State) (hcreate : i.isCreate = true) (hn : s.nslot ≤ 255)
    (h : exec i s = .next t) (hok : t.code = .ok) :
    ∃ h, s.lowestFree h ∧ t.result.toNat = h ∧ t.slot h ≠ .empty := by
  rcases exec_cases i s t h with ⟨c, rfl, hne, -⟩ | ⟨e, rfl, -, ⟨-, k, v, hfree, hv, -, hslot, hhandle⟩ | ⟨hno, -⟩⟩
  · exact absurd hok hne
  · have ⟨hpos, hle, _⟩ := hfree
    refine ⟨k, hfree, ?_, ?_⟩
    · rw [State.complete_result, hhandle, BitVec.toNat_ofNat]; omega
    · rw [s.complete_slot_same e k v hslot hpos hle]; exact hv
  · rw [hcreate] at hno; cases hno

/-- Every other end of a command writes RESULT 0 (rules R37, R438). -/
theorem exec_result_zero (i : Instr) (s t : State) (h : exec i s = .next t) (hend : i.isCreate = false ∨ t.code ≠ .ok) :
    t.result = 0 := by
  rcases exec_cases i s t h with ⟨c, rfl, -⟩ | ⟨e, rfl, -, ⟨hcreate, -⟩ | ⟨-, hhandle, -⟩⟩
  · rfl
  · rcases hend with hno | hcode
    · rw [hcreate] at hno; cases hno
    · exact absurd (s.complete_code e) hcode
  · rw [State.complete_result, hhandle]; rfl

/-! ### Which agent moves, and how -/

theorem step_of_engine (s : State) (h : s.nextMover = .engine) : step s = engineStep s.useTurn := by
  rw [step, h]

theorem step_of_host (s : State) (h : s.nextMover = .host) : step s = hostStep s.useTurn := by
  rw [step, h]

theorem engineStep_of_decode (s : State) (i : Instr) (h : decode s.cmd = .ok i) : engineStep s = exec i s := by
  rw [engineStep, h]

/-- While BUSY = 0 only the host can move (rule R31). -/
theorem State.nextMover_of_idle (s : State) (h : s.busy = false) : s.nextMover = .host := by
  simp [State.nextMover, h]

/-- A host with an action does it. -/
theorem hostStep_cons (s : State) (a : HostAction) (rest : List HostAction) (h : s.host = a :: rest) :
    hostStep s = hostAction a { s with host := rest } := by
  rw [hostStep, h]

/-- While BUSY = 0 the step is the host's next action. -/
theorem step_of_idle (s : State) (a : HostAction) (rest : List HostAction) (hidle : s.busy = false)
    (h : s.host = a :: rest) : step s = hostAction a { s with host := rest } := by
  rw [step_of_host s (s.nextMover_of_idle hidle), s.useTurn_of_idle hidle, hostStep_cons s a rest h]

/-! ### The register file as the host reads and writes it -/

/-- STATUS as a number: CODE in bits 7:0, BUSY in bit 8 (rule R36). -/
theorem State.statusWord_toNat (s : State) :
    s.statusWord.toNat = s.code.toByte.toNat + if s.busy then 256 else 0 := by
  unfold State.statusWord
  cases s.code <;> cases s.busy <;> rfl

/-- RESULT as a number: HANDLE in bits 7:0 (rule R37). -/
theorem State.resultWord_toNat (s : State) : s.resultWord.toNat = s.result.toNat := by
  rw [State.resultWord, BitVec.toNat_append]; simp

/-- A reserved offset reads 0 (rule R32). -/
theorem State.readReg_reserved (s : State) (offset : Byte) (h : offset = 0x0C ∨ 0x30 ≤ offset.toNat) :
    s.readReg offset = 0 := by
  rcases h with rfl | h
  · rfl
  · unfold State.readReg
    split
    case h_12 => rfl
    all_goals omega

/-- A write of STATUS, of RESULT or of a reserved offset is ignored (rule R81). -/
theorem State.writeReg_ignored (s : State) (offset : Byte) (v : Word)
    (h : offset = 0x04 ∨ offset = 0x08 ∨ offset = 0x0C ∨ 0x30 ≤ offset.toNat) : s.writeReg offset v = s := by
  rcases h with rfl | rfl | rfl | h
  · rfl
  · rfl
  · rfl
  · unfold State.writeReg
    split
    case h_10 => rfl
    all_goals omega

/-- An aligned 32-bit read has an allowed form (rule R80). -/
theorem registerFormOk_of_aligned (offset : Byte) (h : offset.toNat % 4 = 0) : registerFormOk .word32 offset = true :=
  decide_eq_true ⟨rfl, h⟩

theorem regReadFault_of_idle (s : State) (offset : Byte) (hidle : s.busy = false) (h : offset.toNat % 4 = 0) :
    regReadFault s .word32 offset = none := by
  simp [regReadFault, registerFormOk_of_aligned offset h, hidle]

theorem regWriteFault_of_idle (s : State) (offset : Byte) (hidle : s.busy = false) (h : offset.toNat % 4 = 0) :
    regWriteFault s .word32 offset = none := by
  simp [regWriteFault, registerFormOk_of_aligned offset h, hidle]

/-- A read of STATUS is allowed at any time (rule R478). -/
theorem regReadFault_status (s : State) : regReadFault s .word32 statusOffset = none := by
  simp [regReadFault, registerFormOk_of_aligned statusOffset (by decide)]

/-- An allowed register read while BUSY = 0 returns the register and changes nothing else. -/
theorem step_regRead_of_idle (s : State) (offset : Byte) (rest : List HostAction) (hidle : s.busy = false)
    (halign : offset.toNat % 4 = 0) (h : s.host = .regRead .word32 offset :: rest) :
    step s = .next { s with host := rest, returned := some (s.readReg offset) } := by
  rw [step_of_idle s _ rest hidle h]
  exact (orFault_next _ _ _).mpr ⟨regReadFault_of_idle { s with host := rest } offset hidle halign, rfl⟩

/-- An allowed register write while BUSY = 0. -/
theorem step_regWrite_of_idle (s : State) (offset : Byte) (v : Word) (rest : List HostAction) (hidle : s.busy = false)
    (halign : offset.toNat % 4 = 0) (h : s.host = .regWrite .word32 offset v :: rest) :
    step s = .next (State.writeReg { s with host := rest } offset v) := by
  rw [step_of_idle s _ rest hidle h]
  exact (orFault_next _ _ _).mpr ⟨regWriteFault_of_idle { s with host := rest } offset hidle halign, rfl⟩

/-- A read of STATUS when the host moves, at any time. -/
theorem step_regRead_status (s : State) (rest : List HostAction) (hmove : s.nextMover = .host)
    (h : s.host = .regRead .word32 statusOffset :: rest) :
    step s = .next { s.useTurn with host := rest, returned := some s.useTurn.statusWord } := by
  rw [step_of_host s hmove, hostStep_cons s.useTurn _ rest (by rw [State.useTurn_host, h])]
  exact (orFault_next _ _ _).mpr ⟨regReadFault_status _, rfl⟩

/-! ### The host while BUSY = 1 -/

theorem memFault_of_busy (s : State) (a : Nat) (h : s.busy = true) : memFault s a ≠ none := by
  simp [memFault, h]

theorem regWriteFault_of_busy (s : State) (width : AccessWidth) (offset : Byte) (h : s.busy = true) :
    regWriteFault s width offset ≠ none := by
  cases hform : registerFormOk width offset <;> simp [regWriteFault, hform, h]

/-- While BUSY = 1 an allowed action but the reset is a read of STATUS, which changes nothing of the core (rule R478). -/
theorem hostAction_of_busy (a : HostAction) (s t : State) (hbusy : s.busy = true) (ha : a ≠ .reset)
    (h : hostAction a s = .next t) : ∃ host returned, t = { s with host := host, returned := returned } := by
  cases a with
  | memWrite addr v => exact absurd ((orFault_next _ _ _).mp h).1 (memFault_of_busy s _ hbusy)
  | memRead addr => exact absurd ((orFault_next _ _ _).mp h).1 (memFault_of_busy s _ hbusy)
  | regWrite width offset v => exact absurd ((orFault_next _ _ _).mp h).1 (regWriteFault_of_busy s _ _ hbusy)
  | regRead width offset => exact ⟨s.host, _, ((orFault_next _ _ _).mp h).2⟩
  | wait =>
    rw [hostAction, if_pos hbusy] at h
    cases h
    exact ⟨_, _, rfl⟩
  | reset => exact absurd rfl ha

/-- While BUSY = 1 an allowed host step but the reset changes only what the host does next and what it has read. -/
theorem hostStep_of_busy (s t : State) (hbusy : s.busy = true) (hreset : s.host.head? ≠ some .reset)
    (h : hostStep s = .next t) : ∃ host returned, t = { s with host := host, returned := returned } := by
  cases hhost : s.host with
  | nil =>
    rw [hostStep, hhost] at h
    cases h
    exact ⟨s.host, s.returned, rfl⟩
  | cons a rest =>
    rw [hostStep_cons s a rest hhost] at h
    exact hostAction_of_busy a { s with host := rest } t hbusy (by simpa [hhost] using hreset) h

/-! ### The reset state -/

/-- A slot file of EMPTY slots reads as EMPTY at every number. -/
theorem State.slot_of_replicate (s : State) (n h : Nat) (hslots : s.slots = List.replicate n .empty) :
    s.slot h = .empty := by
  unfold State.slot
  rw [hslots]
  split
  · rfl
  · rw [List.getD_eq_getElem?_getD]
    exact List.getElem?_getD_replicate_default_eq Slot.empty n _

theorem State.resetWith_slot (nslot memBytes h : Nat) : (State.resetWith nslot memBytes).slot h = .empty :=
  State.slot_of_replicate _ nslot h rfl

theorem State.resetWith_statusWord (nslot memBytes : Nat) : (State.resetWith nslot memBytes).statusWord = 0 :=
  BitVec.eq_of_toNat_eq (State.statusWord_toNat _)

theorem State.resetWith_resultWord (nslot memBytes : Nat) : (State.resetWith nslot memBytes).resultWord = 0 :=
  BitVec.eq_of_toNat_eq (State.resultWord_toNat _)

theorem State.resetWith_readReg (nslot memBytes : Nat) (offset : Byte) :
    (State.resetWith nslot memBytes).readReg offset = 0 := by
  unfold State.readReg
  split
  case h_2 => exact State.resetWith_statusWord nslot memBytes
  case h_3 => exact State.resetWith_resultWord nslot memBytes
  all_goals rfl

/-! ### The obligations -/

/-- Settles O13: the allowed actions are reads of STATUS (`hostStep_of_busy`), and a used turn is no state of the core. -/
theorem hostStepsWhileBusyChangeNothing : Obligations.HostStepsWhileBusyChangeNothing := by
  intro s t hbusy hmove hreset h
  rw [step_of_host s hmove] at h
  obtain ⟨host, returned, rfl⟩ := hostStep_of_busy s.useTurn t (s.useTurn_busy.trans hbusy)
    (by rwa [State.useTurn_host]) h
  exact ⟨s.useTurn_cmd, s.useTurn_code, s.useTurn_busy.trans hbusy, s.useTurn_result, s.useTurn_args, s.useTurn_slots,
    s.useTurn_scratch, s.useTurn_memBytes, s.useTurn_mem, s.useTurn_epoch, s.useTurn_readByte⟩

/-- Settles O15: both ends of a rule, a raised code and completion, keep the fields. -/
theorem everyCommandEndsAndKeepsTheRegisters : Obligations.EveryCommandEndsAndKeepsTheRegisters := by
  intro i s
  refine ⟨_, exec_eq_runRule i s, ?_⟩
  cases ruleOf i s with
  | error c => simp [State.finish, State.nslot]
  | ok e => simp [State.finish, State.nslot]

/-- Settles O18: the two clauses about RESULT by `exec_cases`, the last because each create rule ends in `Alloc`. -/
theorem resultIsTheLowestEmptySlotOfACreate : Obligations.ResultIsTheLowestEmptySlotOfACreate := by
  refine ⟨exec_create_ok, exec_result_zero, fun s hfull hacc => ⟨?_, ?_, ?_, ?_, ?_, ?_, ?_⟩⟩
  · exact fun dir mode hmode hkey => exec_of_error _ s _ (ctxCreateRule_of_full hfull dir mode hmode hkey hacc)
  · exact fun h2 hkey hctr => exec_of_error _ s _ (ctrCreateRule_of_full_separate hfull h2 hkey hacc hctr)
  · exact fun h2 h16 hkey => exec_of_error _ s _ (ctrCreateRule_of_full_combined hfull h2 h16 hkey hacc)
  · exact fun hkey => exec_of_error _ s _ (cmacCreateRule_of_full hfull hkey hacc)
  · exact fun h16 => exec_of_error _ s _ (xcbcCreateRule_of_full hfull .mac96 (decide_eq_true h16) hacc)
  · exact exec_of_error _ s _ (xcbcCreateRule_of_full hfull .prf128 rfl hacc)
  · exact fun hkey hnonce => exec_of_error _ s _ (eaxCreateRule_of_full hfull hkey hacc hnonce)

/-- Settles O60, by the slot change that each kind of command records. -/
theorem finalSlotsStayFinalUntilDestroyed : Obligations.FinalSlotsStayFinalUntilDestroyed := by
  intro i s t k h hfinal
  have hne := Slot.ne_empty_of_finalized _ hfinal
  obtain ⟨hpos, hle⟩ := s.slot_range k hne
  rcases exec_cases i s t h with
    ⟨c, rfl, -⟩ | ⟨e, rfl, -, ⟨-, j, v, ⟨-, -, hempty, -⟩, -, -, hslot, -⟩ | ⟨-, -, hnone | ⟨j, v, hh, hslot, hv⟩⟩⟩
  · exact .inl hfinal
  · have hkj : k ≠ j := fun hkj => hne (hkj ▸ hempty)
    rw [s.complete_slot_of_ne e j k v hslot hkj]
    exact .inl hfinal
  · rw [s.complete_slot_of_none e k hnone]
    exact .inl hfinal
  · by_cases hkj : k = j
    · subst hkj
      rw [s.complete_slot_same e k v hslot hpos hle]
      rcases hv with ⟨hdestroy, hempty⟩ | ⟨-, -, -, hkeep⟩
      · exact .inr ⟨i.eq_ctxDestroy k hdestroy hh, hempty⟩
      · exact .inl (hkeep hfinal)
    · rw [s.complete_slot_of_ne e j k v hslot hkj]
      exact .inl hfinal

/-- Settles O6; the second half by decoding the encoded word. -/
theorem stepRunsTheDecodedCommand : Obligations.StepRunsTheDecodedCommand := by
  have hrun : ∀ (s : State) (i : Instr), s.nextMover = .engine → decode s.cmd = .ok i → step s = exec i s.useTurn :=
    fun s i hmove hdecode => by
      rw [step_of_engine s hmove, engineStep_of_decode _ i (by rw [State.useTurn_cmd, hdecode])]
  refine ⟨hrun, fun s i hwf => ?_⟩
  have hdecode : decode (s.withFetchWord 32 (encode i).toNat).cmd = .ok i := by
    rw [State.withFetchWord_cmd, BitVec.ofNat_toNat, BitVec.setWidth_eq, decode_encode i hwf]
  rw [hrun _ i (s.nextMover_withFetchWord _ _) hdecode, State.useTurn_withFetchWord]

/-- Settles O8: the step returns `readReg` of the offset, then each offset by its register. -/
theorem registerReadsReturnTheRegisters : Obligations.RegisterReadsReturnTheRegisters := by
  refine ⟨fun s offset rest hidle halign h => ?_, fun s rest hbusy hmove h => ?_⟩
  · refine ⟨s.readReg offset, step_regRead_of_idle s offset rest hidle halign h, ?_, ?_, ?_, ?_, ?_, ?_, ?_, ?_, ?_, ?_,
      ?_, s.readReg_reserved offset⟩ <;> rintro rfl
    case refine_2 => exact s.statusWord_toNat.trans (by simp [hidle])
    case refine_3 => exact s.resultWord_toNat
    all_goals rfl
  · refine ⟨_, step_regRead_status s rest hmove h, ?_⟩
    rw [State.statusWord_toNat]
    simp [hbusy]

/-- Settles O9: the step is `writeReg` at the offset, then each offset by its register. -/
theorem registerWritesSetTheRegisters : Obligations.RegisterWritesSetTheRegisters := by
  intro s offset v rest hidle halign h
  rw [step_regWrite_of_idle s offset v rest hidle halign h]
  refine ⟨?_, ?_, ?_, ?_, ?_, ?_, ?_, ?_, ?_, fun hign => by rw [State.writeReg_ignored _ offset v hign]⟩ <;>
    (rintro rfl; rfl)

/-- Settles O11. STATUS and RESULT are 0 as numbers, so every register offset reads 0. -/
theorem resetStateIsZeroAndEmpty : Obligations.ResetStateIsZeroAndEmpty := fun nslot memBytes =>
  ⟨rfl, State.resetWith_statusWord nslot memBytes, State.resetWith_resultWord nslot memBytes, rfl, rfl, rfl, rfl,
    State.resetWith_readReg nslot memBytes, List.length_replicate, State.resetWith_slot nslot memBytes, rfl, fun _ => rfl⟩

end Sys2Proof.Machine
end

/-! PROOFS. The data memory: reads after writes, the memory frame of a command, and the buffer checks (rules R72 to R76, R84,
R85, R437, R440, R441). -/
section
namespace Sys2Proof.Machine

/-! ### Reads after writes -/

/-- A read after a write of one byte. -/
theorem State.readByte_write (s : State) (m : Memory) (a : Nat) (v : Byte) (x : Nat) :
    State.readByte { s with mem := Memory.write m a v } x = if x = a then v else State.readByte { s with mem := m } x := by
  simp only [State.readByte, Memory.find_write, eq_comm (a := a)]
  split <;> rfl

/-- A read after a write of a byte string (rule R74). -/
theorem State.readByte_writeBytes (s : State) (m : Memory) (a : Nat) (bs : Bytes) (x : Nat) :
    State.readByte { s with mem := Memory.writeBytes m a bs } x =
      if a ≤ x ∧ x < a + bs.length then bs.getD (x - a) 0 else State.readByte { s with mem := m } x := by
  simp only [State.readByte, Memory.find_writeBytes]
  split
  · have hx : x - a < bs.length := by omega
    rw [List.getD_eq_getElem?_getD, List.getElem?_eq_getElem hx, Option.getD_some, Option.getD_some]
  · rfl

/-! ### The host's accesses to data memory -/

theorem memFault_of_idle (s : State) (a : Nat) (hidle : s.busy = false) (ha : a < s.memBytes) : memFault s a = none := by
  simp [memFault, hidle, ha]

/-- An allowed host write of data memory. -/
theorem step_memWrite_of_idle (s : State) (addr : Word) (v : Byte) (rest : List HostAction) (hidle : s.busy = false)
    (ha : addr.toNat < s.memBytes) (h : s.host = .memWrite addr v :: rest) :
    step s = .next { s with host := rest, mem := Memory.write s.mem addr.toNat v } := by
  rw [step_of_idle s _ rest hidle h]
  exact (orFault_next _ _ _).mpr ⟨memFault_of_idle { s with host := rest } _ hidle ha, rfl⟩

/-- An allowed host read of data memory. -/
theorem step_memRead_of_idle (s : State) (addr : Word) (rest : List HostAction) (hidle : s.busy = false)
    (ha : addr.toNat < s.memBytes) (h : s.host = .memRead addr :: rest) :
    step s = .next { s with host := rest, returned := some ((s.readByte addr.toNat).zeroExtend 32) } := by
  rw [step_of_idle s _ rest hidle h]
  exact (orFault_next _ _ _).mpr ⟨memFault_of_idle { s with host := rest } _ hidle ha, rfl⟩

/-! ### The memory frame of a command -/

/-- A completion leaves every byte outside the buffers its allowed writes go to. -/
theorem State.complete_readByte_of_outside (i : Instr) (s : State) (e : Effects) (he : e.writesAllowed i s) (a : Nat)
    (ha : ∀ b ∈ i.stores s, ¬ b.holds a) : (s.complete e).readByte a = s.readByte a := by
  have hout : ∀ w ∈ e.writes, ¬ (w.1 ≤ a ∧ a < w.1 + w.2.length) := by
    rintro w hw ⟨hle, hlt⟩
    obtain ⟨b, hb, haddr, hlen, -⟩ := he w hw
    exact ha b hb ⟨by omega, by omega⟩
  rw [State.readByte, State.complete_mem, State.complete_epoch, Memory.find_commit_of_outside _ _ _ hout, State.readByte]

/-- No command changes a byte outside the buffers it stores to. -/
theorem exec_readByte_of_outside (i : Instr) (s t : State) (h : exec i s = .next t) (a : Nat)
    (ha : ∀ b ∈ i.stores s, ¬ b.holds a) : t.readByte a = s.readByte a := by
  rcases exec_cases i s t h with ⟨c, rfl, -⟩ | ⟨e, rfl, he, -⟩
  · exact s.ended_readByte c 0 a
  · exact s.complete_readByte_of_outside i e he a ha

theorem stores_of_isCreate (i : Instr) (s : State) (h : i.isCreate = true) : i.stores s = [] := by
  cases i with
  | ctxCreate _ _ | ctrCreate | cmacCreate | xcbcCreate _ | eaxCreate => rfl
  | _ => cases h

/-! ### The buffer checks -/

theorem Buffer.notNull_iff (b : Buffer) : b.notNull = true ↔ (0 < b.len → b.addr ≠ 0) := by
  simp only [Buffer.notNull, decide_eq_true_eq]
  omega

theorem Buffer.not_inRange_iff (b : Buffer) (memBytes : Nat) :
    ¬ b.inRange memBytes = true ↔ 0 < b.len ∧ b.addr + b.len > memBytes := by
  simp only [Buffer.inRange, decide_eq_true_eq]
  omega

/-- A rule goes on after a check that passes. -/
theorem bind_eq_of_ok {α β : Type} {m : Except StatusCode α} {a : α} {f : α → Except StatusCode β}
    {r : Except StatusCode β} (hm : m = .ok a) (hf : f a = r) : (m >>= f) = r := by
  rw [hm]; exact hf

/-- A rule ends at a check that raises a code. -/
theorem bind_eq_of_error {α β : Type} {m : Except StatusCode α} {c : StatusCode} {f : α → Except StatusCode β}
    (hm : m = .error c) : (m >>= f) = .error c := by
  rw [hm]; rfl

theorem require_bind_eq {β : Type} {b : Bool} {c : StatusCode} {f : Unit → Except StatusCode β} {r : Except StatusCode β}
    (hb : b = true) (hf : f () = r) : (require b c >>= f) = r :=
  bind_eq_of_ok ((require_ok b c).mpr hb) hf

/-- `CheckBuffers` raises NULL_REF for a buffer at the null address, whatever the ranges are (rules R73, R441). -/
theorem State.checkBuffers_nullRef (s : State) (bs : List Buffer) (h : ∃ b ∈ bs, 0 < b.len ∧ b.addr = 0) :
    s.checkBuffers bs = .error .nullRef := by
  obtain ⟨b, hb, hlen, haddr⟩ := h
  have hnull : ¬ b.notNull = true := fun hn => b.notNull_iff.mp hn hlen haddr
  exact bind_eq_of_error ((require_error _ _ _).mpr ⟨List.all_eq_false.mpr ⟨b, hb, hnull⟩, rfl⟩)

/-- `CheckBuffers` raises ADDR_ERROR for a buffer that runs past MEM_BYTES where no buffer is null (rules R74, R441). -/
theorem State.checkBuffers_addrError (s : State) (bs : List Buffer) (hnull : ∀ b ∈ bs, 0 < b.len → b.addr ≠ 0)
    (h : ∃ b ∈ bs, 0 < b.len ∧ b.addr + b.len > s.memBytes) : s.checkBuffers bs = .error .addrError := by
  obtain ⟨b, hb, hout⟩ := h
  have hrange := (b.not_inRange_iff s.memBytes).mpr hout
  exact require_bind_eq (List.all_eq_true.mpr fun b hb => b.notNull_iff.mpr (hnull b hb))
    ((require_error _ _ _).mpr ⟨List.all_eq_false.mpr ⟨b, hb, hrange⟩, rfl⟩)

/-! ### A command whose earlier checks pass reaches its buffer checks -/

/-- A rule goes on after the handle check of a command that accepts the slot H names. -/
theorem checkHandle_bind_eq {α : Type} {s : State} {h : Nat} {kind : Slot → Option α} {req : PhaseReq}
    {f : α → CommandResult} {r : CommandResult} (i : Instr) (hpass : i.handlePasses s h)
    (hkind : ∀ v, i.kindOk v = (kind v).isSome) (hempty : kind .empty = none)
    (hreq : req = .mustBeOpen → i.needsOpen = true) (hf : ∀ c, kind (s.slot h) = some c → f c = r) :
    (s.checkHandle h kind req >>= f) = r := by
  obtain ⟨hok, hopen⟩ := hpass
  obtain ⟨c, hc⟩ := Option.isSome_iff_exists.mp (hkind _ ▸ hok)
  have hphase : ¬ (req = .mustBeOpen ∧ (s.slot h).phase = .finalized) := by
    rintro ⟨hr, hfinal⟩
    rw [hopen (hreq hr)] at hfinal
    cases hfinal
  exact bind_eq_of_ok ((s.checkHandle_ok h kind req c hempty).mpr ⟨hc, hphase⟩) (hf c hc)

/-- The handle check of the block commands gives the context of the CIPHER slot H names. -/
theorem State.checkHandle_of_cipher (s : State) (h : Nat) (c : CipherCtx) (hslot : s.slot h = .cipher c) :
    s.checkHandle h Slot.asCipher .anyPhase = .ok c :=
  (s.checkHandle_ok h _ _ c rfl).mpr ⟨(Slot.asCipher_eq_some _ c).mpr hslot, by simp⟩

theorem buffers_blockMode (s : State) (h : Nat) (dir : Dir) (c : CipherCtx) (hslot : s.slot h = .cipher c) :
    (Instr.blockMode h dir).buffers s = blockModeBuffers c.mode s := by
  simp only [Instr.buffers, hslot]
  cases c.mode <;> rfl

theorem buffers_xcbcFinal (s : State) (h : Nat) (c : XcbcCtx) (hslot : s.slot h = .xcbc c) :
    (Instr.xcbcFinal h).buffers s = [⟨s.a0, c.outLen⟩] := by
  simp only [Instr.buffers, hslot]

/-- The checks that both CCM commands share (rules R251, R264); their earlier checks are the same. -/
theorem ccmChecks_of_error (m l : Nat) (s : State) (c : StatusCode) (hpass : (Instr.ccmEncrypt m l).earlierChecksPass s)
    (hb : s.checkBuffers (ccmBuffers m l s) = .error c) : ccmChecks m l s = .error c := by
  obtain ⟨heven, hm4, hm16, hl2, hl8, hlen, hkey⟩ := hpass
  exact require_bind_eq (decide_eq_true ⟨heven, hm4, hm16, hl2, hl8⟩) (require_bind_eq (decide_eq_true hlen)
    (require_bind_eq ((validKeyLen_iff _).mpr hkey) hb))

theorem ctrCreateRule_of_error (s : State) (c : StatusCode) (hpass : Instr.ctrCreate.earlierChecksPass s)
    (hb : s.checkBuffers (Instr.ctrCreate.buffers s) = .error c) : ctrCreateRule s = .error c := by
  rw [Instr.buffers] at hb
  rcases hpass with ⟨h2, hkey⟩ | ⟨h2, h16, hkey⟩
  · rw [if_pos h2] at hb
    rw [ctrCreateRule, if_pos h2]
    exact require_bind_eq ((validKeyLen_iff _).mpr hkey) (bind_eq_of_error hb)
  · rw [if_neg (not_not.mpr h2)] at hb
    rw [ctrCreateRule, if_neg (not_not.mpr h2)]
    exact require_bind_eq (decide_eq_true ⟨h16, (validKeyLen_iff _).mpr hkey⟩) (bind_eq_of_error hb)

/-- A command whose checks of steps 2 to 5 pass raises what the check of its buffers raises (rules R437, R441). -/
theorem ruleOf_of_checkBuffers_error (i : Instr) (s : State) (c : StatusCode) (hpass : i.earlierChecksPass s)
    (hb : s.checkBuffers (i.buffers s) = .error c) : ruleOf i s = .error c := by
  cases i with
  | ctxCreate dir mode =>
    obtain ⟨hmode, hkey⟩ := hpass
    exact require_bind_eq (decide_eq_true hmode) (require_bind_eq ((validKeyLen_iff _).mpr hkey) (bind_eq_of_error hb))
  | ctxDestroy h => cases hb
  | aesBlock h dir =>
    obtain ⟨ctx, hslot, hdir⟩ := hpass
    exact bind_eq_of_ok (s.checkHandle_of_cipher h ctx hslot)
      (require_bind_eq (decide_eq_true hdir) (bind_eq_of_error hb))
  | blockMode h dir =>
    obtain ⟨ctx, hslot, hdir, hlen⟩ := hpass
    rw [buffers_blockMode s h dir ctx hslot] at hb
    exact bind_eq_of_ok (s.checkHandle_of_cipher h ctx hslot)
      (require_bind_eq (decide_eq_true hdir) (require_bind_eq (decide_eq_true hlen) (bind_eq_of_error hb)))
  | ctrCreate => exact ctrCreateRule_of_error s c hpass hb
  | ctrApply h lim =>
    obtain ⟨hhandle, hlim⟩ := hpass
    exact checkHandle_bind_eq _ hhandle (fun v => by cases v <;> rfl) rfl nofun fun _ _ =>
      require_bind_eq (decide_eq_true hlim) (bind_eq_of_error hb)
  | ccmEncrypt m l => exact bind_eq_of_error (ccmChecks_of_error m l s c hpass hb)
  | ccmDecrypt m l => exact bind_eq_of_error (ccmChecks_of_error m l s c hpass hb)
  | cmacCreate => exact require_bind_eq ((validKeyLen_iff _).mpr hpass) (bind_eq_of_error hb)
  | xcbcCreate v =>
    have hkey : xcbcKeyLenOk v s.a1 = true := by
      cases v with
      | mac96 => exact decide_eq_true (hpass rfl)
      | prf128 => rfl
    exact require_bind_eq hkey (bind_eq_of_error hb)
  | xcbcFinal h =>
    refine checkHandle_bind_eq _ hpass (fun v => by cases v <;> rfl) rfl (fun _ => rfl) fun ctx hctx => ?_
    rw [buffers_xcbcFinal s h ctx ((Slot.asXcbc_eq_some _ ctx).mp hctx)] at hb
    exact bind_eq_of_error hb
  | eaxCreate => exact require_bind_eq ((validKeyLen_iff _).mpr hpass) (bind_eq_of_error hb)
  | eaxFinal h t | eaxGentag h t =>
    obtain ⟨hhandle, ht⟩ := hpass
    exact checkHandle_bind_eq _ hhandle (fun v => by cases v <;> rfl) rfl (fun _ => rfl) fun _ _ =>
      require_bind_eq (decide_eq_true ht) (bind_eq_of_error hb)
  | cmacUpdate h | cmacFinal h | xcbcUpdate h | eaxHeader h | eaxEncrypt h | eaxDecrypt h =>
    exact checkHandle_bind_eq _ hpass (fun v => by cases v <;> rfl) rfl (fun _ => rfl) fun _ _ => bind_eq_of_error hb
  | eaxGetpt h =>
    exact checkHandle_bind_eq _ hpass (fun v => by cases v <;> rfl) rfl nofun fun _ _ => bind_eq_of_error hb
  | kwWrap | kwUnwrap =>
    obtain ⟨h8, hmin, hkey⟩ := hpass
    exact require_bind_eq (decide_eq_true ⟨h8, hmin⟩)
      (require_bind_eq ((validKeyLen_iff _).mpr hkey) (bind_eq_of_error hb))
  | ctCompare => exact bind_eq_of_error hb

/-! ### The obligations -/

/-- Settles O10: the step is one `Memory.write`, read back by `State.readByte_write`, or the read of the byte. -/
theorem hostMemoryAccessesReadAndWriteOneByte : Obligations.HostMemoryAccessesReadAndWriteOneByte := by
  refine ⟨fun s addr v rest hidle ha h => ?_, fun s addr rest hidle ha h => ?_⟩
  · exact ⟨_, step_memWrite_of_idle s addr v rest hidle ha h, State.readByte_write { s with host := rest } s.mem _ v⟩
  · refine ⟨_, step_memRead_of_idle s addr rest hidle ha h, ?_⟩
    exact BitVec.toNat_setWidth_of_le (by decide)

/-- Settles O21: queued writes lie in the store buffers (`exec_cases`), and the commands of the second half have none. -/
theorem storesStayInTheNamedBuffers : Obligations.StoresStayInTheNamedBuffers := by
  intro i s t h
  have hframe := exec_readByte_of_outside i s t h
  refine ⟨hframe, fun hi a => hframe a ?_⟩
  have hnone : i.stores s = [] := by
    rcases hi with hcreate | rfl | ⟨h, rfl | rfl | rfl | rfl⟩
    · exact stores_of_isCreate i s hcreate
    all_goals rfl
  simp [hnone]

/-- Settles O24: the list check by its two passes, and every command by the step at which it checks its buffers. -/
theorem nullChecksComeBeforeRangeChecks : Obligations.NullChecksComeBeforeRangeChecks := by
  refine ⟨fun s bs => ⟨s.checkBuffers_nullRef bs, s.checkBuffers_addrError bs, (s.checkBuffers_ok bs).mpr⟩,
    fun i s hpass => ?_⟩
  have hend := fun c hb => exec_of_error i s c (ruleOf_of_checkBuffers_error i s c hpass hb)
  exact ⟨fun h => hend _ (s.checkBuffers_nullRef _ h), fun hnull h => hend _ (s.checkBuffers_addrError _ hnull h)⟩

/-- Settles O27: the second write is read back first (`State.readByte_writeBytes`), then the first. -/
theorem committedWritesReadBackInIssueOrder : Obligations.CommittedWritesReadBackInIssueOrder := by
  intro s a₁ a₂ v₁ v₂ a
  rw [Memory.commit_two, State.readByte_writeBytes, State.readByte_writeBytes]

end Sys2Proof.Machine
end

/-! PROOFS. Everything the decoder can do (rules R101 to R109), its agreement with the opcode table, the end of a
word that is no command (rules R105, R106, R437), and the argument registers a command reads (rules R102, R103). -/
section
namespace Sys2Proof

/-! ### The fields of a word -/

/-- Every field is an 8-bit integer (rule R101). -/
structure CmdFields.Bounded (f : CmdFields) : Prop where
  op : f.op < 256
  h : f.h < 256
  p : f.p < 256
  q : f.q < 256

theorem CmdFields.ofWord_bounded (w : Word) : (CmdFields.ofWord w).Bounded := by
  constructor <;> exact Nat.mod_lt _ (by decide)

/-- The fields of a word assemble to the word: they hold every bit of it (rules R101, R109). -/
theorem CmdFields.toWord_ofWord (w : Word) : (CmdFields.ofWord w).toWord = w := by
  have hw := w.isLt
  refine BitVec.eq_of_toNat_eq ?_
  simp only [CmdFields.toWord, CmdFields.ofWord, BitVec.toNat_ofNat]
  omega

theorem CmdFields.ofWord_injective : Function.Injective CmdFields.ofWord :=
  Function.LeftInverse.injective CmdFields.toWord_ofWord

/-- The bitwise AND, field by field. -/
def CmdFields.and (f g : CmdFields) : CmdFields := ⟨f.op &&& g.op, f.h &&& g.h, f.p &&& g.p, f.q &&& g.q⟩

/-- The AND of two words is the AND of their fields. -/
theorem CmdFields.ofWord_and (w m : Word) :
    CmdFields.ofWord (w &&& m) = (CmdFields.ofWord w).and (CmdFields.ofWord m) := by
  have hdiv : ∀ a b k : Nat, (a &&& b) / 2 ^ k = a / 2 ^ k &&& b / 2 ^ k := fun a b k => Nat.and_div_two_pow
  have hmod : ∀ a b : Nat, (a &&& b) % 2 ^ 8 = a % 2 ^ 8 &&& b % 2 ^ 8 := fun a b => Nat.and_mod_two_pow
  simp only [CmdFields.ofWord, CmdFields.and, BitVec.toNat_and, CmdFields.mk.injEq]
  refine ⟨hmod _ _, ?_, ?_, ?_⟩
  · exact (congrArg (· % 256) (hdiv _ _ 8)).trans (hmod _ _)
  · exact (congrArg (· % 256) (hdiv _ _ 16)).trans (hmod _ _)
  · exact (congrArg (· % 256) (hdiv _ _ 24)).trans (hmod _ _)

/-! ### The rows of the opcode table, field by field -/

/-- The row's `(word AND mask) = match`, read on the fields of the word (rule R108). -/
def OpcodeRow.takes (r : OpcodeRow) (f : CmdFields) : Bool :=
  f.and (CmdFields.ofWord r.mask) = CmdFields.ofWord r.matchBits

theorem OpcodeRow.hits_eq_takes (r : OpcodeRow) (w : Word) : r.hits w = r.takes (CmdFields.ofWord w) := by
  rw [OpcodeRow.hits, OpcodeRow.takes, decide_eq_decide, ← CmdFields.ofWord_and]
  exact CmdFields.ofWord_injective.eq_iff.symm

/-- The OP of a row. -/
def OpcodeRow.op (r : OpcodeRow) : Nat := (CmdFields.ofWord r.matchBits).op

/-- The rows of the opcode table with an OP. -/
def rowsWithOp (op : Nat) : List OpcodeRow := opcodeTable.filter fun r => r.op = op

/-- The mask of every row keeps OP whole, so only the row of the word's own OP can take it. -/
theorem op_of_takes (f : CmdFields) (hop : f.op < 256) (r : OpcodeRow) (hr : r ∈ opcodeTable)
    (htakes : r.takes f = true) : r.op = f.op := by
  have hmask : ∀ r ∈ opcodeTable, (CmdFields.ofWord r.mask).op = 2 ^ 8 - 1 := by decide
  have hand : f.op &&& (CmdFields.ofWord r.mask).op = r.op := congrArg CmdFields.op (of_decide_eq_true htakes)
  rw [← hand, hmask r hr, Nat.and_two_pow_sub_one_of_lt_two_pow hop]

/-- Of the rows that hit a word, all have the word's OP. -/
theorem filter_hits_eq_filter_takes (w : Word) :
    (opcodeTable.filter fun r => r.hits w) =
      (rowsWithOp (CmdFields.ofWord w).op).filter fun r => r.takes (CmdFields.ofWord w) := by
  rw [rowsWithOp, List.filter_filter]
  refine List.filter_congr fun r hr => ?_
  rw [r.hits_eq_takes]
  cases ht : r.takes (CmdFields.ofWord w) with
  | true => simp [op_of_takes _ (CmdFields.ofWord_bounded w).op r hr ht]
  | false => simp

theorem not_reservedOp_of_mem (r : OpcodeRow) (hr : r ∈ opcodeTable) : ¬ reservedOp r.op := by
  have : ∀ r ∈ opcodeTable, ¬ reservedOp r.op := by decide
  exact this r hr

/-- A mask whose k low bits are zero, the others one, asks a field to be below 2^k (rules R102, R106). -/
theorem and_mask_eq_zero_iff (k m x : Nat) (hk : k ≤ 8) (hhigh : m / 2 ^ k = 2 ^ (8 - k) - 1) (hlow : m % 2 ^ k = 0)
    (hx : x < 2 ^ 8) : x &&& m = 0 ↔ x < 2 ^ k := by
  have hdiv : (x &&& m) / 2 ^ k = x / 2 ^ k := by
    rw [Nat.and_div_two_pow, hhigh, Nat.and_two_pow_sub_one_of_lt_two_pow]
    rwa [Nat.div_lt_iff_lt_mul (Nat.two_pow_pos k), ← Nat.pow_add, Nat.sub_add_cancel hk]
  have hmod : (x &&& m) % 2 ^ k = 0 := by rw [Nat.and_mod_two_pow, hlow, Nat.and_zero]
  rw [← Nat.div_eq_zero_iff_lt (Nat.two_pow_pos k), ← hdiv, Nat.div_eq_zero_iff_lt (Nat.two_pow_pos k)]
  exact ⟨fun h => h ▸ Nat.two_pow_pos k, fun h => (Nat.mod_eq_of_lt h).symm.trans hmod⟩

/-- A mask byte of ones asks for a zero field. -/
theorem and_ff_eq_zero_iff (x : Nat) (hx : x < 256) : x &&& 0xFF = 0 ↔ x = 0 :=
  (and_mask_eq_zero_iff 0 _ x (by decide) rfl rfl hx).trans Nat.lt_one_iff

/-- The mask byte of Q[7:1], which leaves a direction or a variant free. -/
theorem and_fe_eq_zero_iff (x : Nat) (hx : x < 256) : x &&& 0xFE = 0 ↔ x < 2 :=
  and_mask_eq_zero_iff 1 _ x (by decide) rfl rfl hx

/-- The mask byte of Q[7:3], which leaves the direction and the mode of CTX_CREATE free. -/
theorem and_f8_eq_zero_iff (x : Nat) (hx : x < 256) : x &&& 0xF8 = 0 ↔ x < 8 :=
  and_mask_eq_zero_iff 3 _ x (by decide) rfl rfl hx

/-- A row takes the fields with its OP whose masked H, P and Q are zero. -/
theorem OpcodeRow.takes_of_op (r : OpcodeRow) (f : CmdFields) (mh mp mq : Nat) (hop : f.op < 256)
    (hmask : CmdFields.ofWord r.mask = ⟨0xFF, mh, mp, mq⟩) (hmatch : CmdFields.ofWord r.matchBits = ⟨f.op, 0, 0, 0⟩) :
    r.takes f = decide (f.h &&& mh = 0 ∧ f.p &&& mp = 0 ∧ f.q &&& mq = 0) := by
  have hkeep : f.op &&& 0xFF = f.op := Nat.and_two_pow_sub_one_of_lt_two_pow (n := 8) hop
  simp [OpcodeRow.takes, CmdFields.and, hmask, hmatch, hkeep]

/-! ### Everything the decoder can do -/

theorem Dir.toBit_ofBit (b : Nat) (hb : b < 2) : (Dir.ofBit b).toBit = b := by
  obtain rfl | rfl : b = 0 ∨ b = 1 := by omega
  all_goals rfl

theorem XcbcVariant.toBit_ofBit (b : Nat) (hb : b < 2) : (XcbcVariant.ofBit b).toBit = b := by
  obtain rfl | rfl : b = 0 ∨ b = 1 := by omega
  all_goals rfl

/-- The row of a defined OP and what it stands for: `zeroFieldsOk` is the decoder's test of the must-be-zero fields and
`i` the command the row decodes to (rules R103, R106, R108). -/
structure RowDecodes (f : CmdFields) (zeroFieldsOk : Bool) (i : Instr) (row : OpcodeRow) : Prop where
  only : rowsWithOp f.op = [row]
  mnemonic : row.mnemonic = i.mnemonic
  takes : row.takes f = zeroFieldsOk
  fields : zeroFieldsOk = true → i.wf = true ∧ i.fields = f

/-- The decoder accepts or rejects the fields by the one row of their OP, or their OP is reserved (rules R103, R105, R106). -/
theorem decodeFields_cases (f : CmdFields) (hf : f.Bounded) :
    (∃ zeroFieldsOk i row, decodeFields f = acceptIf zeroFieldsOk f.op i ∧ RowDecodes f zeroFieldsOk i row) ∨
    (reservedOp f.op ∧ decodeFields f = .error (.reservedOpcode f.op)) := by
  obtain ⟨op, h, p, q⟩ := f
  obtain ⟨hop, hh, hp, hq⟩ := hf
  simp only at hop hh hp hq
  simp only [decodeFields]
  split
  case h_25 =>
    refine .inr ⟨?_, rfl⟩
    simp only [imp_false] at *
    simp only [reservedOp]
    omega
  all_goals
    refine .inl ⟨_, _, _, rfl, rfl, rfl, (OpcodeRow.takes_of_op _ _ _ _ _ hop rfl rfl).trans ?_, fun hzero => ?_⟩
    · simp [and_ff_eq_zero_iff, and_fe_eq_zero_iff, and_f8_eq_zero_iff, hh, hp, hq]
    rw [decide_eq_true_eq] at hzero
  case h_1 => -- CTX_CREATE
    obtain ⟨rfl, rfl, hq8⟩ := hzero
    have hdir : (Dir.ofBit (q % 2)).toBit = q % 2 := Dir.toBit_ofBit _ (by omega)
    refine ⟨decide_eq_true (by omega), ?_⟩
    rw [Instr.fields, hdir, Nat.mod_add_div]
  case h_3 | h_4 => -- AES_BLOCK, BLOCK_MODE
    obtain ⟨rfl, hq2⟩ := hzero
    exact ⟨decide_eq_true hh, by rw [Instr.fields, Dir.toBit_ofBit q hq2]⟩
  case h_12 => -- XCBC_CREATE
    obtain ⟨rfl, rfl, hq2⟩ := hzero
    exact ⟨rfl, by rw [Instr.fields, XcbcVariant.toBit_ofBit q hq2]⟩
  all_goals simp [Instr.wf, Instr.fields, hzero, hh, hp, hq]

theorem acceptIf_eq_ok (b : Bool) (op : Nat) (i j : Instr) : acceptIf b op i = .ok j ↔ b = true ∧ i = j := by
  cases b <;> simp [acceptIf]

theorem acceptIf_eq_error (b : Bool) (op : Nat) (i : Instr) (e : DecodeError) :
    acceptIf b op i = .error e ↔ b = false ∧ .fieldNotZero op = e := by
  cases b <;> simp [acceptIf]

/-- A word that decodes to a command is taken by the one row of its OP, and holds the command's fields. -/
theorem decode_eq_ok (w : Word) (i : Instr) (h : decode w = .ok i) :
    ∃ row, RowDecodes (CmdFields.ofWord w) true i row := by
  rcases decodeFields_cases _ (CmdFields.ofWord_bounded w) with ⟨b, j, row, hd, hrow⟩ | ⟨-, hd⟩ <;>
    rw [decode, hd] at h
  · obtain ⟨rfl, rfl⟩ := (acceptIf_eq_ok _ _ _ _).mp h
    exact ⟨row, hrow⟩
  · cases h

/-- A word that decodes to no command has a must-be-zero field that is not zero, or a reserved OP (rules R105, R106). -/
theorem decode_eq_error (w : Word) (e : DecodeError) (h : decode w = .error e) :
    (∃ i row, RowDecodes (CmdFields.ofWord w) false i row ∧ e = .fieldNotZero (w.toNat % 256)) ∨
    (reservedOp (w.toNat % 256) ∧ e = .reservedOpcode (w.toNat % 256)) := by
  rcases decodeFields_cases _ (CmdFields.ofWord_bounded w) with ⟨b, j, row, hd, hrow⟩ | ⟨hres, hd⟩ <;>
    rw [decode, hd] at h
  · obtain ⟨rfl, rfl⟩ := (acceptIf_eq_error _ _ _ _).mp h
    exact .inl ⟨j, row, hrow, rfl⟩
  · cases h
    exact .inr ⟨hres, rfl⟩

/-! ### The reserved OP values -/

/-- A defined OP is not reserved. -/
theorem RowDecodes.not_reservedOp {f : CmdFields} {b : Bool} {i : Instr} {row : OpcodeRow} (h : RowDecodes f b i row) :
    ¬ reservedOp f.op := by
  have hmem : row ∈ rowsWithOp f.op := by rw [h.only]; exact List.mem_singleton_self row
  obtain ⟨htable, hop⟩ := List.mem_filter.mp hmem
  exact of_decide_eq_true hop ▸ not_reservedOp_of_mem row htable

/-- The reserved OP values are the listed ranges (rule R105). -/
theorem decode_reservedOpcode_iff (w : Word) :
    (∃ op, decode w = .error (.reservedOpcode op)) ↔ reservedOp (w.toNat % 256) := by
  constructor
  · rintro ⟨op, h⟩
    rcases decode_eq_error w _ h with ⟨i, row, -, he⟩ | ⟨hres, -⟩
    · cases he
    · exact hres
  · intro hres
    rcases decodeFields_cases _ (CmdFields.ofWord_bounded w) with ⟨b, i, row, -, hrow⟩ | ⟨-, hd⟩
    · exact absurd hres hrow.not_reservedOp
    · exact ⟨_, hd⟩

/-! ### The rows that hit a word -/

/-- Only the row of the word's OP can hit it, and it does exactly when the decoder accepts the fields. -/
theorem RowDecodes.filter_hits {w : Word} {b : Bool} {i : Instr} {row : OpcodeRow}
    (h : RowDecodes (CmdFields.ofWord w) b i row) :
    (opcodeTable.filter fun r => r.hits w) = bif b then [row] else [] := by
  rw [filter_hits_eq_filter_takes, h.only, List.filter_singleton, h.takes]

/-- No row hits a word with a reserved OP (rules R105, R108). -/
theorem filter_hits_of_reservedOp (w : Word) (h : reservedOp (w.toNat % 256)) :
    (opcodeTable.filter fun r => r.hits w) = [] := by
  rw [filter_hits_eq_filter_takes, List.filter_eq_nil_iff]
  intro r hr
  obtain ⟨htable, hop⟩ := List.mem_filter.mp hr
  have hop : r.op = w.toNat % 256 := of_decide_eq_true hop
  exact absurd (hop ▸ h) (not_reservedOp_of_mem r htable)

/-! ### The obligations about words -/

/-- Settles O1, by `decode_encode`: the word holds the row's fields, and the row decodes them. -/
theorem decodeOfEncodeIsTheCommand : Obligations.DecodeOfEncodeIsTheCommand := decode_encode

/-- Settles O2: the word is assembled from its own fields, and they are the command's. -/
theorem encodeOfDecodeIsTheWord : Obligations.EncodeOfDecodeIsTheWord := by
  intro w i h
  obtain ⟨row, hrow⟩ := decode_eq_ok w i h
  obtain ⟨hwf, hfields⟩ := hrow.fields rfl
  exact ⟨hwf, by rw [encode, hfields, CmdFields.toWord_ofWord]⟩

/-- Settles O3: the rows that hit the word are the row of its OP or none, as the decoder accepts its fields or not. -/
theorem decodeIsTheOpcodeTable : Obligations.DecodeIsTheOpcodeTable := by
  intro w
  cases hd : decode w with
  | ok i =>
    obtain ⟨row, hrow⟩ := decode_eq_ok w i hd
    obtain ⟨-, hfields⟩ := hrow.fields rfl
    simp [hrow.filter_hits, hrow.mnemonic, hfields]
  | error e =>
    rcases decode_eq_error w e hd with ⟨i, row, hrow, -⟩ | ⟨hres, -⟩
    · exact hrow.filter_hits
    · exact filter_hits_of_reservedOp w hres

/-- Settles O4: each word is the word of its command, decoded by computation. -/
theorem sampleWordsDecodeToTheirCommands : Obligations.SampleWordsDecodeToTheirCommands := by
  unfold Obligations.SampleWordsDecodeToTheirCommands
  decide

end Sys2Proof

namespace Sys2Proof.Machine

/-! ### A word that is no command -/

theorem engineStep_of_decode_error (s : State) (e : DecodeError) (h : decode s.cmd = .error e) :
    engineStep s = .next (s.ended .illegalCmd 0) := by
  rw [engineStep, h]
  rfl

/-! ### The argument registers a command reads -/

/-- A rule reads no argument register but those of its row (rules R102, R103): with the registers it reads put in place, it
computes the same in both states. -/
theorem ruleOf_withArgs (i : Instr) (s : State) (args : ArgRegs) (h : ArgRegs.agree i.argCount s.args args) :
    ruleOf i { s with args := args } = ruleOf i s := by
  obtain ⟨b0, b1, b2, b3, b4, b5, b6, b7⟩ := args
  cases i with
  | ctxDestroy => rfl
  | cmacFinal | xcbcFinal | eaxFinal =>
    obtain rfl : s.args.a0 = b0 := by simpa [ArgRegs.agree, Instr.argCount] using h
    rfl
  | ctxCreate | aesBlock | cmacCreate | cmacUpdate | xcbcCreate | xcbcUpdate | eaxHeader | eaxEncrypt | eaxDecrypt
  | eaxGetpt =>
    obtain ⟨rfl, rfl⟩ : s.args.a0 = b0 ∧ s.args.a1 = b1 := by simpa [ArgRegs.agree, Instr.argCount] using h
    rfl
  | blockMode | ctrCreate | ctrApply | ctCompare =>
    obtain ⟨rfl, rfl, rfl⟩ : s.args.a0 = b0 ∧ s.args.a1 = b1 ∧ s.args.a2 = b2 := by
      simpa [ArgRegs.agree, Instr.argCount] using h
    rfl
  | eaxCreate =>
    obtain ⟨rfl, rfl, rfl, rfl⟩ : s.args.a0 = b0 ∧ s.args.a1 = b1 ∧ s.args.a2 = b2 ∧ s.args.a3 = b3 := by
      simpa [ArgRegs.agree, Instr.argCount] using h
    rfl
  | eaxGentag | kwWrap | kwUnwrap =>
    obtain ⟨rfl, rfl, rfl, rfl, rfl⟩ :
        s.args.a0 = b0 ∧ s.args.a1 = b1 ∧ s.args.a2 = b2 ∧ s.args.a3 = b3 ∧ s.args.a4 = b4 := by
      simpa [ArgRegs.agree, Instr.argCount] using h
    rfl
  | ccmEncrypt | ccmDecrypt =>
    obtain ⟨rfl, rfl, rfl, rfl, rfl, rfl, rfl, rfl⟩ : s.args.a0 = b0 ∧ s.args.a1 = b1 ∧ s.args.a2 = b2 ∧
        s.args.a3 = b3 ∧ s.args.a4 = b4 ∧ s.args.a5 = b5 ∧ s.args.a6 = b6 ∧ s.args.a7 = b7 := by
      simpa [ArgRegs.agree, Instr.argCount] using h
    rfl

/-- The end of a command does not look at the argument registers. -/
theorem State.finish_withArgs (s : State) (args : ArgRegs) (r : CommandResult) :
    State.finish { s with args := args } r = { s.finish r with args := args } := by
  cases r with
  | error c => rfl
  | ok e => rfl

/-! ### The obligations about steps -/

/-- Settles O5: the reserved OP values by `decode_reservedOpcode_iff`, the step by the engine's answer to a decoding error. -/
theorem illegalWordsEndWithIllegalCmd : Obligations.IllegalWordsEndWithIllegalCmd := by
  refine ⟨decode_reservedOpcode_iff, fun s e hmove hdecode => ?_⟩
  rw [step_of_engine s hmove]
  exact engineStep_of_decode_error s.useTurn e (by rw [State.useTurn_cmd, hdecode])

/-- Settles O20: the rule gives the same (`ruleOf_withArgs`), and the end of the command leaves A0 to A7 as they are. -/
theorem unusedArgumentsAreNotRead : Obligations.UnusedArgumentsAreNotRead := by
  intro i s t args hagree h
  rw [exec_next] at h ⊢
  subst h
  rw [ruleOf_withArgs i s args hagree, State.finish_withArgs s args]

end Sys2Proof.Machine
end

/-! PROOFS. The slot frame of a command (rule R442), the errors of steps 3 to 5 (rule R437), and the context and block
commands (rules R160 to R170). -/
section
namespace Sys2Proof.Machine

/-! ### The slot frame of a command -/

/-- A completion that does not record slot k leaves it as it was. -/
theorem State.complete_slot_of_not_recorded (s : State) (e : Effects) (k : Nat) (hk : ∀ v, e.slot ≠ some (k, v)) :
    (s.complete e).slot k = s.slot k := by
  cases he : e.slot with
  | none => exact s.complete_slot_of_none e k he
  | some p =>
    obtain ⟨h, v⟩ := p
    exact s.complete_slot_of_ne e h k v he fun hkh => hk v (hkh ▸ he)

/-- A command changes a slot only where H names it or where a create command takes it (rules R437, R442). -/
theorem exec_slot_of_ne (i : Instr) (s t : State) (k : Nat) (h : exec i s = .next t) (hk : i.handle ≠ some k)
    (hcreate : i.isCreate = false ∨ s.slot k ≠ .empty ∨ (s.nslot ≤ 255 ∧ k ≠ t.result.toNat)) :
    t.slot k = s.slot k := by
  rcases exec_cases i s t h with ⟨c, rfl, -⟩ | ⟨e, rfl, -, hslot⟩
  · exact s.ended_slot c 0 k
  refine s.complete_slot_of_not_recorded e k fun v hv => ?_
  rcases hslot with ⟨hi, j, w, ⟨-, hle, hempty, -⟩, -, -, hj, hhandle⟩ | ⟨-, -, hnone | ⟨j, w, hh, hj, -⟩⟩
  · obtain ⟨rfl, rfl⟩ : j = k ∧ w = v := by simpa [hj] using hv
    rcases hcreate with hno | hfull | ⟨hn, hne⟩
    · rw [hi] at hno; cases hno
    · exact hfull hempty
    · rw [State.complete_result, hhandle, BitVec.toNat_ofNat] at hne
      omega
  · rw [hnone] at hv; cases hv
  · obtain ⟨rfl, rfl⟩ : j = k ∧ w = v := by simpa [hj] using hv
    exact hk hh

/-- The rule records no slot change. -/
def RecordsNoSlot (r : CommandResult) : Prop := ∀ e, r = .ok e → e.slot = none

theorem RecordsNoSlot.bind {α : Type} (m : Except StatusCode α) (f : α → CommandResult)
    (hf : ∀ a, RecordsNoSlot (f a)) : RecordsNoSlot (m >>= f) := by
  cases m with
  | ok a => exact hf a
  | error c => intro e he; cases he

theorem RecordsNoSlot.writes (ws : List (Nat × Bytes)) : RecordsNoSlot (.ok { writes := ws }) := by
  intro e he; cases he; rfl

/-- A command whose rule records no slot change leaves the slot file as it was. -/
theorem exec_slots_of_recordsNoSlot (i : Instr) (s t : State) (hr : RecordsNoSlot (ruleOf i s))
    (h : exec i s = .next t) : t.slots = s.slots := by
  rw [exec_eq_runRule, State.runRule_next] at h
  rcases h with ⟨c, -, rfl⟩ | ⟨e, he, rfl⟩
  · rfl
  · rw [State.complete_slots, Effects.slotsAfter, hr e he]

/-- Settles O22: a command records at most the slot H names or, for a create, the lowest EMPTY one (`exec_cases`); the rules of
the stateless and the block commands end in writes alone. -/
theorem otherSlotsAreUnchanged : Obligations.OtherSlotsAreUnchanged := by
  refine ⟨exec_slot_of_ne, fun i s t hi h => exec_slots_of_recordsNoSlot i s t ?_ h⟩
  rcases hi with rfl | rfl | rfl | ⟨m, l, rfl⟩ | ⟨m, l, rfl⟩ | ⟨k, d, rfl⟩ | ⟨k, d, rfl⟩
  · exact .bind _ _ fun _ => .bind _ _ fun _ => .bind _ _ fun _ => .writes _
  · exact .bind _ _ fun _ => .bind _ _ fun _ => .bind _ _ fun _ => .bind _ _ fun _ => .writes _
  · exact .bind _ _ fun _ => .bind _ _ fun _ => .writes []
  · exact .bind _ _ fun _ => .writes _
  · exact .bind _ _ fun _ => .bind _ _ fun _ => .writes _
  · exact .bind _ _ fun _ => .bind _ _ fun _ => .bind _ _ fun _ => .writes _
  · exact .bind _ _ fun _ => .bind _ _ fun _ => .bind _ _ fun _ => .bind _ _ fun _ => .writes _

/-! ### The parameter and length checks -/

/-- A rule ends at a check that does not hold. -/
theorem require_bind_error {β : Type} {b : Bool} {c : StatusCode} {f : Unit → Except StatusCode β} (hb : b = false) :
    (require b c >>= f) = .error c :=
  bind_eq_of_error ((require_error b c c).mpr ⟨hb, rfl⟩)

theorem State.checkHandle_of_ctr (s : State) (h : Nat) (c : CtrState) (hslot : s.slot h = .ctr c) :
    s.checkHandle h Slot.asCtr .anyPhase = .ok c :=
  (s.checkHandle_ok h _ _ c rfl).mpr ⟨(Slot.asCtr_eq_some _ c).mpr hslot, by simp⟩

theorem State.checkHandle_of_eax (s : State) (h : Nat) (c : EaxCtx) (req : PhaseReq) (hslot : s.slot h = .eax c)
    (hphase : c.phase = .opened) : s.checkHandle h Slot.asEax req = .ok c :=
  (s.checkHandle_ok h _ _ c rfl).mpr ⟨(Slot.asEax_eq_some _ c).mpr hslot, by simp [hslot, Slot.phase, hphase]⟩

theorem validKeyLen_eq_false (n : Nat) (h : ¬ aesKeyLen n) : validKeyLen n = false := decide_eq_false h

/-- An illegal M or L, or a length that L bytes cannot hold, ends both CCM commands with one code (rules R251, R253). -/
theorem ccmChecks_invalidArg (m l : Nat) (s : State)
    (h : m % 2 ≠ 0 ∨ m < 4 ∨ 16 < m ∨ l < 2 ∨ 8 < l ∨ 2 ^ (8 * l) ≤ s.a4) : ccmChecks m l s = .error .invalidArg := by
  cases hok : ccmParamsOk m l with
  | false => exact require_bind_error hok
  | true =>
    have hml := of_decide_eq_true hok
    exact require_bind_eq hok (require_bind_error (decide_eq_false (by omega)))

theorem ccmChecks_invalidKeyLen (m l : Nat) (s : State) (hok : ccmParamsOk m l = true) (hlen : s.a4 < 2 ^ (8 * l))
    (hkey : ¬ aesKeyLen s.a1) : ccmChecks m l s = .error .invalidKeyLen :=
  require_bind_eq hok (require_bind_eq (decide_eq_true hlen) (require_bind_error (validKeyLen_eq_false _ hkey)))

/-- Settles O25: each rule ends at its step 3 check, which follows the handle check only. -/
theorem parameterErrorsAreInvalidArg : Obligations.ParameterErrorsAreInvalidArg := by
  refine ⟨fun s dir mode hmode => exec_of_error _ s _ (require_bind_error (decide_eq_false (by omega))),
    fun s h dir c hslot hdir => ⟨exec_of_error _ s _ ?_, exec_of_error _ s _ ?_⟩,
    fun s h lim c hslot hlim => exec_of_error _ s _ ?_,
    fun s m l hml => ⟨exec_of_error _ s _ ?_, exec_of_error _ s _ ?_⟩,
    fun s h t c hslot hphase ht => ⟨exec_of_error _ s _ ?_, exec_of_error _ s _ ?_⟩⟩
  · exact bind_eq_of_ok (s.checkHandle_of_cipher h c hslot) (require_bind_error (decide_eq_false hdir))
  · exact bind_eq_of_ok (s.checkHandle_of_cipher h c hslot) (require_bind_error (decide_eq_false hdir))
  · exact bind_eq_of_ok (s.checkHandle_of_ctr h c hslot) (require_bind_error (decide_eq_false (by omega)))
  · exact bind_eq_of_error (ccmChecks_invalidArg m l s hml)
  · exact bind_eq_of_error (ccmChecks_invalidArg m l s hml)
  · exact bind_eq_of_ok (s.checkHandle_of_eax h c _ hslot hphase) (require_bind_error (decide_eq_false (by omega)))
  · exact bind_eq_of_ok (s.checkHandle_of_eax h c _ hslot hphase) (require_bind_error (decide_eq_false (by omega)))

/-- The key length of the combined layout of CTR_CREATE is the length less 16 (rule R231). -/
theorem ctrCreateRule_combined_invalidKeyLen (s : State) (h2 : s.a2 = 0) (hkey : s.a1 < 16 ∨ ¬ aesKeyLen (s.a1 - 16)) :
    ctrCreateRule s = .error .invalidKeyLen := by
  rw [ctrCreateRule, if_neg (not_not.mpr h2)]
  refine require_bind_error (decide_eq_false ?_)
  rw [validKeyLen_iff]
  rintro ⟨hle, hlen⟩
  exact hkey.elim (Nat.not_lt.mpr hle) (absurd hlen)

/-- Settles O26: each rule ends at its length check (step 4) or, that passed, at its key length check (step 5). -/
theorem lengthErrorsComeBeforeTheBuffers : Obligations.LengthErrorsComeBeforeTheBuffers := by
  refine ⟨fun s h c hslot hlen => exec_of_error _ s _ ?_, fun s hlen => exec_of_error _ s _ ?_,
    fun s hlen => exec_of_error _ s _ ?_, fun s hkey => ?_,
    fun s h2 hkey => exec_of_error _ s _ (ctrCreateRule_combined_invalidKeyLen s h2 hkey),
    fun s h16 => exec_of_error _ s _ (require_bind_error (decide_eq_false h16))⟩
  · exact bind_eq_of_ok (s.checkHandle_of_cipher h c hslot)
      (require_bind_eq (decide_eq_true rfl) (require_bind_error (decide_eq_false hlen)))
  · exact require_bind_error (decide_eq_false (by omega))
  · exact require_bind_error (decide_eq_false (by omega))
  have hkey' := validKeyLen_eq_false _ hkey
  refine ⟨fun dir mode hmode => exec_of_error _ s _ ?_, exec_of_error _ s _ (require_bind_error hkey'),
    exec_of_error _ s _ (require_bind_error hkey'), fun h2 => exec_of_error _ s _ ?_,
    fun m l hml hlen => ⟨exec_of_error _ s _ ?_, exec_of_error _ s _ ?_⟩, fun h8 hmin => exec_of_error _ s _ ?_,
    fun h8 hmin => exec_of_error _ s _ ?_⟩
  · exact require_bind_eq (decide_eq_true hmode) (require_bind_error hkey')
  · exact (if_pos h2).trans (require_bind_error hkey')
  · exact bind_eq_of_error (ccmChecks_invalidKeyLen m l s hml hlen hkey)
  · exact bind_eq_of_error (ccmChecks_invalidKeyLen m l s hml hlen hkey)
  · exact require_bind_eq (decide_eq_true ⟨h8, hmin⟩) (require_bind_error hkey')
  · exact require_bind_eq (decide_eq_true ⟨h8, hmin⟩) (require_bind_error hkey')

/-! ### The context and block commands -/

/-- A command whose rule ends with OK completes with the rule's effects. -/
theorem exec_of_ok (i : Instr) (s : State) (e : Effects) (h : ruleOf i s = .ok e) : exec i s = .next (s.complete e) := by
  rw [exec_eq_runRule, h, State.runRule_ok]

/-- The completion that records a slot change at a handle (rules R436, R440). -/
theorem State.complete_of_slot (s : State) (h : Nat) (v : Slot) (ws : List (Nat × Bytes)) (n : Nat) (hpos : 1 ≤ h) :
    s.complete { slot := some (h, v), writes := ws, handle := n } =
      { s.ended .ok (BitVec.ofNat 8 n) with slots := s.slots.set (h - 1) v, mem := Memory.commit s.mem ws } := by
  rw [← setSlot_of_pos _ _ _ hpos]
  rfl

/-- Settles O28: every check of the rule passes, and `Alloc` gives the lowest EMPTY slot. -/
theorem ctxCreateFillsACipherSlot : Obligations.CtxCreateFillsACipherSlot := by
  intro s dir mode h hmode hkey hacc hfree
  have hrule : ruleOf (.ctxCreate dir mode) s = .ok
      { slot := some (h, .cipher ⟨dir, CipherMode.ofField mode, s.a1, expandKey (s.memRead s.a0 s.a1)⟩), handle := h } :=
    require_bind_eq (decide_eq_true hmode) (require_bind_eq ((validKeyLen_iff _).mpr hkey)
      (bind_eq_of_ok ((s.checkBuffers_ok _).mpr (List.forall_mem_singleton.mpr hacc))
        (bind_eq_of_ok ((s.alloc_ok h).mpr hfree) rfl)))
  obtain ⟨hpos, -⟩ := hfree
  rw [exec_of_ok _ s _ hrule, s.complete_of_slot h _ _ _ hpos]
  rfl

/-- The end of CTX_DESTROY on a handle that names a slot (rule R166). -/
theorem exec_ctxDestroy (s : State) (h : Nat) (hpos : 1 ≤ h) (hle : h ≤ s.nslot) :
    exec (.ctxDestroy h) s = .next { s.ended .ok 0 with slots := s.slots.set (h - 1) .empty } := by
  have hrule : ruleOf (.ctxDestroy h) s = .ok { slot := some (h, .empty) } := by
    rw [ruleOf, ctxDestroyRule, if_neg (by omega), if_neg (by omega)]
  rw [exec_of_ok _ s _ hrule, s.complete_of_slot h _ _ _ hpos]
  rfl

/-- Settles O29. The last clause holds because a second update of one slot hides the first. -/
theorem ctxDestroyEmptiesTheSlot : Obligations.CtxDestroyEmptiesTheSlot := by
  refine ⟨fun s => exec_of_ok _ s {} rfl, fun s h hgt => exec_of_error _ s _ ?_, exec_ctxDestroy, fun s h v hpos hle => ?_⟩
  · rw [ruleOf, ctxDestroyRule, if_neg (by omega), if_pos hgt]
  · rw [exec_ctxDestroy s h hpos hle,
      exec_ctxDestroy { s with slots := s.slots.set (h - 1) v } h hpos (by simpa [State.nslot] using hle)]
    simp [State.ended]

/-- The rule of AES_BLOCK where every check passes (rule R170). -/
theorem aesBlockRule_ok (s : State) (h : Nat) (c : CipherCtx) (hslot : s.slot h = .cipher c)
    (hsrc : s.accepts ⟨s.a0, 16⟩) (hdst : s.accepts ⟨s.a1, 16⟩) :
    aesBlockRule h c.dir s =
      .ok { writes := [(s.a1, blockBytes (c.block (blockOfBytes (s.memRead s.a0 16))))] } := by
  have hbuffers : ∀ b ∈ [⟨s.a0, 16⟩, ⟨s.a1, 16⟩], s.accepts b :=
    List.forall_mem_cons.mpr ⟨hsrc, List.forall_mem_singleton.mpr hdst⟩
  exact bind_eq_of_ok (s.checkHandle_of_cipher h c hslot) (require_bind_eq (decide_eq_true rfl)
    (bind_eq_of_ok ((s.checkBuffers_ok _).mpr hbuffers) rfl))

/-- Settles O30: the rule ends in its one write, of the block through E or D as the slot's direction says. -/
theorem aesBlockWritesOneBlock : Obligations.AesBlockWritesOneBlock := by
  intro s h c hslot hsrc hdst
  have hexec := exec_of_ok (.aesBlock h c.dir) s _ (aesBlockRule_ok s h c hslot hsrc hdst)
  rw [hexec, State.complete_eq_ended, Memory.commit_one, CipherCtx.block]
  cases c.dir <;> rfl

end Sys2Proof.Machine
end

/-! PROOFS. Key expansion follows the recurrence (rules R146, R147). -/
section
namespace Sys2Proof.Machine

/-! ### The words of the expansion loop -/

/-- Word j of the words made so far, which stand last word first (rule R147). -/
def wordOf (ws : List Word) (j : Nat) : Word := ws.reverse.getD j 0

/-- The loop adds a word at the end, and the words before it stay. -/
theorem wordOf_cons_of_lt (w : Word) (ws : List Word) (j : Nat) (hj : j < ws.length) :
    wordOf (w :: ws) j = wordOf ws j := by
  rw [wordOf, List.reverse_cons, List.getD_append _ _ _ _ (by simpa using hj), wordOf]

theorem wordOf_cons_length (w : Word) (ws : List Word) : wordOf (w :: ws) ws.length = w := by
  simp [wordOf]

/-- The place of a word counted from the last one. -/
theorem getD_eq_wordOf (ws : List Word) (k : Nat) (hk : k < ws.length) : ws.getD k 0 = wordOf ws (ws.length - 1 - k) := by
  simp only [wordOf, List.getD_eq_getElem?_getD]
  rw [List.getElem?_reverse (by omega), show ws.length - 1 - (ws.length - 1 - k) = k by omega]

/-- Every word from nk on is the word nk places before it XOR the temp value of the word before it (rule R147). -/
def FollowsRecurrence (nk : Nat) (ws : List Word) : Prop :=
  ∀ j, nk ≤ j → j < ws.length → wordOf ws j = wordOf ws (j - nk) ^^^ expandTemp nk j (wordOf ws (j - 1))

/-- One round of the loop adds the next word of the recurrence. -/
theorem FollowsRecurrence.cons {nk : Nat} {ws : List Word} (h : FollowsRecurrence nk ws) (hnk : 0 < nk)
    (hle : nk ≤ ws.length) :
    FollowsRecurrence nk ((ws.getD (nk - 1) 0 ^^^ expandTemp nk ws.length (ws.getD 0 0)) :: ws) := by
  intro j hj hlt
  rw [List.length_cons] at hlt
  rcases Nat.lt_or_eq_of_le (Nat.le_of_lt_succ hlt) with hlt | rfl
  · rw [wordOf_cons_of_lt _ _ _ hlt, wordOf_cons_of_lt _ _ _ (by omega), wordOf_cons_of_lt _ _ _ (by omega)]
    exact h j hj hlt
  · rw [wordOf_cons_length, wordOf_cons_of_lt _ _ _ (by omega), wordOf_cons_of_lt _ _ _ (by omega),
      getD_eq_wordOf _ _ (by omega), getD_eq_wordOf _ _ (by omega)]
    congr 2
    omega

/-- The loop keeps the recurrence. -/
theorem FollowsRecurrence.expandLoop {nk : Nat} {ws : List Word} (h : FollowsRecurrence nk ws) (hnk : 0 < nk)
    (hle : nk ≤ ws.length) (n : Nat) : FollowsRecurrence nk (expandLoop nk n ws.length ws) := by
  induction n generalizing ws with
  | zero => exact h
  | succ n ih => exact ih (h.cons hnk hle) (Nat.le_succ_of_le hle)

/-- The loop leaves the words it starts from. -/
theorem wordOf_expandLoop_of_lt (nk n i : Nat) (ws : List Word) (j : Nat) (hj : j < ws.length) :
    wordOf (expandLoop nk n i ws) j = wordOf ws j := by
  induction n generalizing i ws with
  | zero => rfl
  | succ n ih =>
    rw [expandLoop, ih _ _ (by rw [List.length_cons]; omega), wordOf_cons_of_lt _ _ _ hj]

/-! ### The words of the key -/

/-- The words the loop starts from: those of the key, last word first (rule R147). -/
def keyWords (key : Bytes) : List Word := ((List.range (key.length / 4)).map (keyWord key)).reverse

@[simp] theorem keyWords_length (key : Bytes) : (keyWords key).length = key.length / 4 := by simp [keyWords]

theorem wordOf_keyWords (key : Bytes) (i : Nat) (hi : i < key.length / 4) : wordOf (keyWords key) i = keyWord key i := by
  simp [wordOf, keyWords, hi]

/-- Word i of the key is its bytes 4i to 4i + 3. -/
theorem keyWord_eq (key : Bytes) (i : Nat) (hi : i < key.length / 4) :
    keyWord key i = BitVec.ofNat 32 (intBE ((key.drop (4 * i)).take 4)) := by
  have hbytes : (List.range 4).map (fun j => key.getD (4 * i + j) 0) = (key.drop (4 * i)).take 4 := by
    refine List.ext_getElem (by simp; omega) fun j hj _ => ?_
    have hj : j < 4 := by simpa using hj
    have hin : 4 * i + j < key.length := by omega
    simp [hin]
  rw [keyWord, hbytes]

theorem expandKey_word (key : Bytes) (i : Nat) :
    (expandKey key).word i =
      wordOf (expandLoop (key.length / 4) (4 * (key.length / 4 + 6 + 1) - key.length / 4) (key.length / 4)
        (keyWords key)) i := rfl

/-- Settles O57: the loop starts from the key's words, leaves them, and keeps the recurrence. -/
theorem expandKeyFollowsTheRecurrence : Obligations.ExpandKeyFollowsTheRecurrence := by
  intro key hkey
  have hnk : 0 < key.length / 4 := by simp only [aesKeyLen] at hkey; omega
  refine ⟨rfl, expandKey_w_length key, fun i hi => ?_, fun i hle hlt => ?_⟩
  · rw [expandKey_word, wordOf_expandLoop_of_lt _ _ _ _ _ (by rwa [keyWords_length]), wordOf_keyWords key i hi,
      keyWord_eq key i hi]
  · have hstart : FollowsRecurrence (key.length / 4) (keyWords key) := fun j hj hlt => by
      rw [keyWords_length] at hlt; omega
    have hloop := hstart.expandLoop hnk (by rw [keyWords_length]) (4 * (key.length / 4 + 6 + 1) - key.length / 4)
    rw [keyWords_length] at hloop
    refine hloop i hle ?_
    rw [expandLoop_length, keyWords_length]
    rw [expandKey_nr] at hlt
    omega

end Sys2Proof.Machine
end

/-! PROOFS. D undoes E and E undoes D (rules R141 to R152). -/
section
namespace Sys2Proof.Machine

/-! ### A block is its 16 bytes -/

/-- The n-byte encoding of a number gives the number back, up to what n bytes hold (rule R14). -/
theorem intBE_beBytes (n x : Nat) : intBE (beBytes n x) = x % 256 ^ n := by
  induction n generalizing x with
  | zero => simp [beBytes, intBE, Nat.mod_one]
  | succ n ih =>
    have hsplit : beBytes (n + 1) x = beBytes n (x / 256) ++ [BitVec.ofNat 8 x] := by
      simp only [beBytes, List.range_succ, List.map_append, List.map_cons, List.map_nil]
      congr 1
      · refine List.map_congr_left fun i hi => ?_
        have hi : i < n := List.mem_range.mp hi
        rw [Nat.div_div_eq_div_mul, ← pow_succ', show n - 1 - i + 1 = n + 1 - 1 - i by omega]
      · simp
    rw [hsplit, intBE_concat, ih, BitVec.toNat_ofNat, pow_succ' 256 n, Nat.mod_mul]
    omega

theorem blockOfFn_blockByte (b : Block) : blockOfFn (blockByte b) = b := by
  have hbytes : (List.range 16).map (blockByte b) = beBytes 16 b.toNat := rfl
  have hlt : b.toNat < 256 ^ 16 := b.isLt
  rw [blockOfFn, hbytes, intBE_beBytes, Nat.mod_eq_of_lt hlt, BitVec.ofNat_toNat, BitVec.setWidth_eq]

/-- The block made of bytes f is b when f gives the bytes of b. -/
theorem blockOfFn_eq (f : Nat → Byte) (b : Block) (h : ∀ i < 16, f i = blockByte b i) : blockOfFn f = b := by
  have hbytes : (List.range 16).map f = (List.range 16).map (blockByte b) :=
    List.map_congr_left fun i hi => h i (List.mem_range.mp hi)
  rw [blockOfFn, hbytes, ← blockOfFn, blockOfFn_blockByte]

/-! ### The S-boxes and the row shifts -/

theorem invSbox_sbox (x : Byte) : invSbox (sbox x) = x := by
  revert x
  decide

theorem invSubBytes_subBytes (s : Block) : invSubBytes (subBytes s) = s :=
  blockOfFn_eq _ _ fun i hi => by rw [subBytes, blockByte_blockOfFn _ i hi, invSbox_sbox]

/-- Shifting row r right by r takes back the shift left by r (rule R145). -/
theorem invShiftRows_shiftRows (s : Block) : invShiftRows (shiftRows s) = s :=
  blockOfFn_eq _ _ fun i hi => by
    rw [shiftRows, blockByte_blockOfFn _ _ (by omega)]
    congr 1
    omega

/-! ### The columns -/

/-- xtime is linear over XOR (rule R142). -/
theorem xtime_xor (a b : Byte) : xtime (a ^^^ b) = xtime a ^^^ xtime b := by
  have hcarry : ∀ p q : Bool,
      (if p ^^ q then (0x1b : Byte) else 0) = (if p then 0x1b else 0) ^^^ (if q then 0x1b else 0) := by decide
  rw [xtime, BitVec.shiftLeft_xor_distrib, BitVec.getLsbD_xor, hcarry, xtime, xtime]
  ac_rfl

theorem gmulGo_xor (n : Nat) (a b c acc acc' : Byte) :
    gmulGo n (a ^^^ b) c (acc ^^^ acc') = gmulGo n a c acc ^^^ gmulGo n b c acc' := by
  induction n generalizing a b c acc acc' with
  | zero => rfl
  | succ n ih =>
    simp only [gmulGo, xtime_xor]
    split
    · rw [show acc ^^^ acc' ^^^ (a ^^^ b) = acc ^^^ a ^^^ (acc' ^^^ b) by ac_rfl, ih]
    · exact ih _ _ _ _ _

/-- The product of the field distributes over XOR (rule R142). -/
theorem gmul_xor (a b c : Byte) : gmul (a ^^^ b) c = gmul a c ^^^ gmul b c := gmulGo_xor 8 a b c 0 0

/-- Byte k of a column counts around the four rows. -/
theorem columnByte_add_four (s : Block) (i k : Nat) : columnByte s i (k + 4) = columnByte s i k := by
  simp only [columnByte, ← Nat.add_assoc, Nat.add_mod_right]

theorem columnByte_zero (s : Block) (i : Nat) : columnByte s i 0 = blockByte s i := by
  rw [columnByte]
  congr 1
  omega

/-- A column of `MixColumns` from the column before it (rule R145). -/
theorem columnByte_mixColumns (s : Block) (i k : Nat) (hi : i < 16) :
    columnByte (mixColumns s) i k = gmul (columnByte s i k) 0x02 ^^^ gmul (columnByte s i (k + 1)) 0x03 ^^^
      columnByte s i (k + 2) ^^^ columnByte s i (k + 3) := by
  have hplace : ∀ j, columnByte s (4 * (i / 4) + (i % 4 + k) % 4) j = columnByte s i (k + j) := fun j => by
    simp only [columnByte]
    congr 1
    omega
  rw [columnByte, mixColumns, blockByte_blockOfFn _ _ (by omega)]
  simp only [hplace, Nat.add_zero]

/-! Row 0 of the inverse matrix times the matrix is row 0 of the identity: what each of the four bytes of a column adds to
the sum of the products (rule R145), on all 256 values of the byte. -/

theorem invColumn_byte0 (a : Byte) :
    gmul (gmul a 0x02) 0x0e ^^^ gmul a 0x0b ^^^ gmul a 0x0d ^^^ gmul (gmul a 0x03) 0x09 = a := by
  revert a
  decide

theorem invColumn_byte1 (b : Byte) :
    gmul (gmul b 0x03) 0x0e ^^^ gmul (gmul b 0x02) 0x0b ^^^ gmul b 0x0d ^^^ gmul b 0x09 = 0 := by
  revert b
  decide

theorem invColumn_byte2 (c : Byte) :
    gmul c 0x0e ^^^ gmul (gmul c 0x03) 0x0b ^^^ gmul (gmul c 0x02) 0x0d ^^^ gmul c 0x09 = 0 := by
  revert c
  decide

theorem invColumn_byte3 (d : Byte) :
    gmul d 0x0e ^^^ gmul d 0x0b ^^^ gmul (gmul d 0x03) 0x0d ^^^ gmul (gmul d 0x02) 0x09 = 0 := by
  revert d
  decide

/-- The inverse column transformation gives back the first byte of a column: the sum of the products, byte by byte. -/
theorem invColumn_column (a b c d : Byte) :
    gmul (gmul a 0x02 ^^^ gmul b 0x03 ^^^ c ^^^ d) 0x0e ^^^ gmul (gmul b 0x02 ^^^ gmul c 0x03 ^^^ d ^^^ a) 0x0b ^^^
      gmul (gmul c 0x02 ^^^ gmul d 0x03 ^^^ a ^^^ b) 0x0d ^^^ gmul (gmul d 0x02 ^^^ gmul a 0x03 ^^^ b ^^^ c) 0x09 = a := by
  simp only [gmul_xor]
  calc
    _ = (gmul (gmul a 0x02) 0x0e ^^^ gmul a 0x0b ^^^ gmul a 0x0d ^^^ gmul (gmul a 0x03) 0x09) ^^^
        (gmul (gmul b 0x03) 0x0e ^^^ gmul (gmul b 0x02) 0x0b ^^^ gmul b 0x0d ^^^ gmul b 0x09) ^^^
        (gmul c 0x0e ^^^ gmul (gmul c 0x03) 0x0b ^^^ gmul (gmul c 0x02) 0x0d ^^^ gmul c 0x09) ^^^
        (gmul d 0x0e ^^^ gmul d 0x0b ^^^ gmul (gmul d 0x03) 0x0d ^^^ gmul (gmul d 0x02) 0x09) := by ac_rfl
    _ = a ^^^ 0 ^^^ 0 ^^^ 0 := by rw [invColumn_byte0, invColumn_byte1, invColumn_byte2, invColumn_byte3]
    _ = a := by simp

theorem invMixColumns_mixColumns (s : Block) : invMixColumns (mixColumns s) = s :=
  blockOfFn_eq _ _ fun i hi => by
    simp only [columnByte_mixColumns s i _ hi, Nat.reduceAdd, Nat.zero_add]
    rw [columnByte_add_four s i 0, columnByte_add_four s i 1, columnByte_add_four s i 2, invColumn_column,
      columnByte_zero]

/-! ### The rounds -/

theorem addRoundKey_addRoundKey (ks : KeySchedule) (rnd : Nat) (s : Block) :
    addRoundKey ks rnd (addRoundKey ks rnd s) = s := by
  rw [addRoundKey, addRoundKey, BitVec.xor_assoc, BitVec.xor_self, BitVec.xor_zero]

/-- The substitution and the row shift that both ciphers have between two round keys. -/
theorem invSubBytes_invShiftRows_cancel (s : Block) : invSubBytes (invShiftRows (shiftRows (subBytes s))) = s := by
  rw [invShiftRows_shiftRows, invSubBytes_subBytes]

/-- An inverse round takes back the forward round of its number, seen before the next row shift (rules R150, R151). -/
theorem decRound_encRound (ks : KeySchedule) (rnd : Nat) (s : Block) :
    decRound ks rnd (shiftRows (subBytes (encRound ks rnd s))) = shiftRows (subBytes s) := by
  rw [decRound, invSubBytes_invShiftRows_cancel, encRound, addRoundKey_addRoundKey, invMixColumns_mixColumns]

/-- The inverse rounds in falling order take back the forward rounds in rising order. -/
theorem decRounds_encRounds (ks : KeySchedule) (rounds : List Nat) (s : Block) :
    rounds.foldr (fun i s => decRound ks (i + 1) s)
      (shiftRows (subBytes (rounds.foldl (fun s i => encRound ks (i + 1) s) s))) = shiftRows (subBytes s) := by
  induction rounds generalizing s with
  | nil => rfl
  | cons i rounds ih => rw [List.foldl_cons, List.foldr_cons, ih, decRound_encRound]

/-- The inverse cipher undoes the forward cipher (rule R152). -/
theorem aesD_aesE (ks : KeySchedule) (x : Block) : aesD ks (aesE ks x) = x := by
  simp only [aesD, aesE, addRoundKey_addRoundKey, decRounds_encRounds, invSubBytes_invShiftRows_cancel]

theorem block_finite : Finite Block := Finite.of_injective BitVec.toFin fun _ _ h => BitVec.toFin_inj.mp h

/-- The forward cipher undoes the inverse cipher: E is one-to-one on the finite set of blocks, so every block is an E of
some block (rule R152). -/
theorem aesE_aesD (ks : KeySchedule) (x : Block) : aesE ks (aesD ks x) = x := by
  have hinj : Function.Injective (aesE ks) := Function.LeftInverse.injective (aesD_aesE ks)
  have := block_finite
  obtain ⟨y, rfl⟩ := Finite.surjective_of_injective hinj x
  rw [aesD_aesE]

/-- Settles O56: the rounds of D undo those of E one by one, and E is onto. -/
theorem aesCiphersAreInverse : Obligations.AesCiphersAreInverse := fun ks x => ⟨aesD_aesE ks x, aesE_aesD ks x⟩

end Sys2Proof.Machine
end

/-! PROOFS. The ECB/CBC block-mode engine (rules R202 to R206): CBC chaining on block lists, and the end of BLOCK_MODE. -/
section
namespace Sys2Proof.Machine

/-! ### CBC on block lists -/

@[simp] theorem cbcEncrypt_nil (ks : KeySchedule) (v : Block) : cbcEncrypt ks v [] = ([], v) := rfl

/-- Encryption of one block, which is the chaining block of the next. -/
@[simp] theorem cbcEncrypt_cons (ks : KeySchedule) (v x : Block) (xs : List Block) :
    cbcEncrypt ks v (x :: xs) =
      (aesE ks (x ^^^ v) :: (cbcEncrypt ks (aesE ks (x ^^^ v)) xs).1, (cbcEncrypt ks (aesE ks (x ^^^ v)) xs).2) := rfl

@[simp] theorem cbcDecrypt_nil (ks : KeySchedule) (v : Block) : cbcDecrypt ks v [] = ([], v) := rfl

/-- Decryption of one block, whose ciphertext is the chaining block of the next. -/
@[simp] theorem cbcDecrypt_cons (ks : KeySchedule) (v x : Block) (xs : List Block) :
    cbcDecrypt ks v (x :: xs) = ((aesD ks x ^^^ v) :: (cbcDecrypt ks x xs).1, (cbcDecrypt ks x xs).2) := rfl

theorem cbcEncrypt_length (ks : KeySchedule) (v : Block) (xs : List Block) :
    (cbcEncrypt ks v xs).1.length = xs.length := cbcBlocks_length ⟨.enc, .cbc, 16, ks⟩ v xs

theorem cbcDecrypt_length (ks : KeySchedule) (v : Block) (xs : List Block) :
    (cbcDecrypt ks v xs).1.length = xs.length := cbcBlocks_length ⟨.dec, .cbc, 16, ks⟩ v xs

/-- C_i = E(P_i XOR C_(i-1)), with C_0 the IV (rule R203). -/
theorem cbcEncrypt_getD (ks : KeySchedule) (v : Block) (xs : List Block) (i : Nat) (hi : i < xs.length) :
    (cbcEncrypt ks v xs).1.getD i 0 = aesE ks (xs.getD i 0 ^^^ (v :: (cbcEncrypt ks v xs).1).getD i 0) := by
  induction xs generalizing v i with
  | nil => exact absurd hi (Nat.not_lt_zero i)
  | cons x xs ih =>
    cases i with
    | zero => rfl
    | succ i => exact ih _ i (Nat.lt_of_succ_lt_succ hi)

/-- P_i = D(C_i) XOR C_(i-1), with C_0 the IV (rule R203). -/
theorem cbcDecrypt_getD (ks : KeySchedule) (v : Block) (xs : List Block) (i : Nat) (hi : i < xs.length) :
    (cbcDecrypt ks v xs).1.getD i 0 = aesD ks (xs.getD i 0) ^^^ (v :: xs).getD i 0 := by
  induction xs generalizing v i with
  | nil => exact absurd hi (Nat.not_lt_zero i)
  | cons x xs ih =>
    cases i with
    | zero => rfl
    | succ i => exact ih x i (Nat.lt_of_succ_lt_succ hi)

/-- The chaining block after encryption is the last output block, the IV where there is none (rule R203). -/
theorem cbcEncrypt_snd (ks : KeySchedule) (v : Block) (xs : List Block) :
    (cbcEncrypt ks v xs).2 = (cbcEncrypt ks v xs).1.getLastD v := by
  induction xs generalizing v with
  | nil => rfl
  | cons x xs ih => rw [cbcEncrypt_cons, List.getLastD_cons, ih]

/-- The chaining block after decryption is the last input block, the IV where there is none (rule R203). -/
theorem cbcDecrypt_snd (ks : KeySchedule) (v : Block) (xs : List Block) : (cbcDecrypt ks v xs).2 = xs.getLastD v := by
  induction xs generalizing v with
  | nil => rfl
  | cons x xs ih => rw [cbcDecrypt_cons, List.getLastD_cons, ih]

/-- CBC decryption from the same IV undoes encryption and ends with the same chaining block (rule R205). -/
theorem cbcDecrypt_cbcEncrypt (ks : KeySchedule) (v : Block) (xs : List Block) :
    cbcDecrypt ks v (cbcEncrypt ks v xs).1 = (xs, (cbcEncrypt ks v xs).2) := by
  induction xs generalizing v with
  | nil => rfl
  | cons x xs ih =>
    rw [cbcEncrypt_cons, cbcDecrypt_cons, ih, aesD_aesE, BitVec.xor_assoc, BitVec.xor_self, BitVec.xor_zero]

/-- A CBC stream goes on from the chaining block that its first part left (rule R206). -/
theorem cbcEncrypt_append (ks : KeySchedule) (v : Block) (xs ys : List Block) :
    cbcEncrypt ks v (xs ++ ys) =
      ((cbcEncrypt ks v xs).1 ++ (cbcEncrypt ks (cbcEncrypt ks v xs).2 ys).1,
        (cbcEncrypt ks (cbcEncrypt ks v xs).2 ys).2) := by
  induction xs generalizing v with
  | nil => rfl
  | cons x xs ih => rw [List.cons_append, cbcEncrypt_cons, ih, cbcEncrypt_cons, List.cons_append]

/-- Settles O33, equation by equation, each by induction on the blocks. -/
theorem cbcEquationsHold : Obligations.CbcEquationsHold := by
  intro ks iv xs
  refine ⟨cbcEncrypt_length ks iv xs, cbcDecrypt_length ks iv xs, cbcEncrypt_getD ks iv xs, cbcDecrypt_getD ks iv xs,
    ?_, ?_⟩
  · rw [List.getLastD_cons, cbcEncrypt_snd]
  · rw [List.getLastD_cons, cbcDecrypt_snd]

/-- Settles O34: D undoes E on each block, along the chain in CBC, and a stream is split at its chaining block. -/
theorem blockModesRoundTripAndSplit : Obligations.BlockModesRoundTripAndSplit := by
  intro ks iv xs ys
  have hecb : aesD ks ∘ aesE ks = id := funext (aesD_aesE ks)
  refine ⟨?_, ?_, ?_, ?_⟩
  · rw [List.map_map, hecb, List.map_id]
  · rw [cbcDecrypt_cbcEncrypt]
  · rw [cbcDecrypt_cbcEncrypt]
  · rw [cbcEncrypt_append]

/-! ### BLOCK_MODE -/

/-- The end of BLOCK_MODE where every check passes: its queued writes are committed and nothing else changes (rule R204). -/
theorem exec_blockMode_of_accepts (s : State) (h : Nat) (c : CipherCtx) (hslot : s.slot h = .cipher c)
    (hlen : s.a1 % 16 = 0) (hbuffers : ∀ b ∈ blockModeBuffers c.mode s, s.accepts b) :
    exec (.blockMode h c.dir) s = .next { s.ended .ok 0 with mem := Memory.commit s.mem (blockModeWrites c s) } := by
  have hrule : ruleOf (.blockMode h c.dir) s = .ok { writes := blockModeWrites c s } :=
    bind_eq_of_ok (s.checkHandle_of_cipher h c hslot) (require_bind_eq (decide_eq_true rfl)
      (require_bind_eq (decide_eq_true hlen) (bind_eq_of_ok ((s.checkBuffers_ok _).mpr hbuffers) rfl)))
  rw [exec_of_ok _ s _ hrule, State.complete_eq_ended]
  rfl

/-- The memory after BLOCK_MODE on an ECB slot; with no block the data it writes back is empty (rules R202, R204). -/
theorem commit_blockModeWrites_of_ecb (s : State) (c : CipherCtx) (hmode : c.mode = .ecb) :
    Memory.commit s.mem (blockModeWrites c s) =
      Memory.writeBytes s.mem s.a0 (bytesOfBlocks (ecbBlocks c (wholeBlocks (s.memRead s.a0 s.a1)))) := by
  by_cases hzero : s.a1 = 0
  · have hnone : wholeBlocks (s.memRead s.a0 0) = [] := by
      rw [wholeBlocks, State.memRead_length, Nat.zero_div, blocksFrom]
    rw [blockModeWrites, if_pos hzero, hzero, hnone]
    rfl
  · rw [blockModeWrites, if_neg hzero, hmode, Memory.commit_one]

/-- The memory after BLOCK_MODE on a CBC slot: the chained data and then the IV, with no block neither (rules R203, R204). -/
theorem commit_blockModeWrites_of_cbc (s : State) (c : CipherCtx) (hmode : c.mode = .cbc) (r : List Block × Block)
    (hr : cbcBlocks c (blockOfBytes (s.memRead s.a2 16)) (wholeBlocks (s.memRead s.a0 s.a1)) = r) :
    Memory.commit s.mem (blockModeWrites c s) =
      if s.a1 = 0 then s.mem
      else Memory.writeBytes (Memory.writeBytes s.mem s.a0 (bytesOfBlocks r.1)) s.a2 (blockBytes r.2) := by
  by_cases hzero : s.a1 = 0
  · rw [blockModeWrites, if_pos hzero, if_pos hzero, Memory.commit_nil]
  · rw [blockModeWrites, if_neg hzero, if_neg hzero, hmode, ← hr, Memory.commit_two]

/-- Settles O31: one write of each block by itself, through E or D as the slot's direction says. -/
theorem ecbTransformsEachBlockInPlace : Obligations.EcbTransformsEachBlockInPlace := by
  intro s h c hslot hmode hlen hdata
  have hbuffers : ∀ b ∈ blockModeBuffers c.mode s, s.accepts b := by
    rw [hmode]
    exact List.forall_mem_singleton.mpr hdata
  rw [exec_blockMode_of_accepts s h c hslot hlen hbuffers, commit_blockModeWrites_of_ecb s c hmode, ecbBlocks]
  obtain ⟨dir, mode, keyLen, ks⟩ := c
  cases dir with
  | enc => rfl
  | dec => rfl

/-- Settles O32: `cbcBlocks` is CBC in the slot's direction, and its two writes are committed in issue order. -/
theorem cbcChainsAndWritesTheIvBack : Obligations.CbcChainsAndWritesTheIvBack := by
  intro s h c hslot hmode hlen hdata hiv xs iv r
  have hbuffers : ∀ b ∈ blockModeBuffers c.mode s, s.accepts b := by
    rw [hmode]
    exact List.forall_mem_cons.mpr ⟨hdata, List.forall_mem_singleton.mpr hiv⟩
  have hr : cbcBlocks c iv xs = r := rfl
  rw [exec_blockMode_of_accepts s h c hslot hlen hbuffers, commit_blockModeWrites_of_cbc s c hmode r hr]

end Sys2Proof.Machine
end

/-! PROOFS. The CTR engine with keystream cache (rules R220 to R235): Inc, the stream and its chunks, CTR_CREATE and
CTR_APPLY. -/
section
namespace Sys2Proof.Machine

/-! ### Inc -/

/-- The last n bytes of a block encode its value modulo 256^n (rules R13, R14). -/
theorem blockBytes_drop (b : Block) (n : Nat) (hn : n ≤ 16) : (blockBytes b).drop (16 - n) = beBytes n b.toNat := by
  refine List.ext_getElem (by simp [beBytes]; omega) fun i hi _ => ?_
  have hi : i < n := by simp at hi; omega
  simp only [blockBytes, beBytes, List.getElem_drop, List.getElem_map, List.getElem_range, blockByte]
  rw [show 15 - (16 - n + i) = n - 1 - i by omega]

theorem intBE_blockBytes_drop (b : Block) (n : Nat) (hn : n ≤ 16) :
    intBE ((blockBytes b).drop (16 - n)) = b.toNat % 256 ^ n := by
  rw [blockBytes_drop b n hn, intBE_beBytes]

/-- The bytes before the last n are those of the quotient by 256^n (rule R13). -/
theorem blockByte_of_lt (b : Block) (n i : Nat) (hi : i < 16 - n) :
    blockByte b i = BitVec.ofNat 8 (b.toNat / 256 ^ n / 256 ^ (15 - i - n)) := by
  rw [blockByte, Nat.div_div_eq_div_mul, ← pow_add, Nat.add_sub_cancel' (by omega)]

theorem two_pow_eight_mul (n : Nat) : 2 ^ (8 * n) = 256 ^ n := pow_mul 2 8 n

/-- Inc as a number: a multiple of 256^lim stays, and the rest is counted up modulo 256^lim (rule R224). -/
theorem ctrInc_toNat (ctr : Block) (lim : Nat) (hlim : lim ≤ 16) :
    (ctrInc ctr lim).toNat = 256 ^ lim * (ctr.toNat / 256 ^ lim) + (ctr.toNat % 256 ^ lim + 1) % 256 ^ lim := by
  have hpos : 0 < 256 ^ lim := by positivity
  have hsplit : 256 ^ (16 - lim) * 256 ^ lim = 2 ^ 128 := by
    rw [← pow_add, Nat.sub_add_cancel hlim]
    rfl
  have hhigh : ctr.toNat / 256 ^ lim < 256 ^ (16 - lim) :=
    Nat.div_lt_of_lt_mul (by rw [Nat.mul_comm, hsplit]; exact ctr.isLt)
  have hlow : (ctr.toNat % 256 ^ lim + 1) % 256 ^ lim < 256 ^ lim := Nat.mod_lt _ hpos
  have hfits : 256 ^ lim * (ctr.toNat / 256 ^ lim) + (ctr.toNat % 256 ^ lim + 1) % 256 ^ lim < 2 ^ 128 := by
    rw [← hsplit]
    refine Nat.lt_mul_of_div_lt ?_ hpos
    rwa [Nat.mul_add_div hpos, Nat.div_eq_of_lt hlow, Nat.add_zero]
  rw [ctrInc, BitVec.toNat_ofNat, two_pow_eight_mul, Nat.mul_comm (ctr.toNat / _), Nat.mod_eq_of_lt hfits]

theorem ctrInc_div (ctr : Block) (lim : Nat) (hlim : lim ≤ 16) :
    (ctrInc ctr lim).toNat / 256 ^ lim = ctr.toNat / 256 ^ lim := by
  have hpos : 0 < 256 ^ lim := by positivity
  rw [ctrInc_toNat ctr lim hlim, Nat.mul_add_div hpos, Nat.div_eq_of_lt (Nat.mod_lt _ hpos), Nat.add_zero]

theorem ctrInc_mod (ctr : Block) (lim : Nat) (hlim : lim ≤ 16) :
    (ctrInc ctr lim).toNat % 256 ^ lim = (ctr.toNat % 256 ^ lim + 1) % 256 ^ lim := by
  rw [ctrInc_toNat ctr lim hlim, Nat.mul_add_mod, Nat.mod_mod]

/-- Settles O39: the bytes before the last lim read the quotient by 256^lim, the last lim bytes the remainder. -/
theorem incrementTouchesOnlyTheLastBytes : Obligations.IncrementTouchesOnlyTheLastBytes := by
  refine fun ctr lim hlim => ⟨fun i hi => ?_, ?_⟩
  · rw [blockByte_of_lt _ lim i hi, blockByte_of_lt _ lim i hi, ctrInc_div ctr lim hlim]
  · rw [intBE_blockBytes_drop _ _ hlim, intBE_blockBytes_drop _ _ hlim, ctrInc_mod ctr lim hlim,
      two_pow_eight_mul]

/-! ### The stream -/

@[simp] theorem ctrStream_nil (lim : Nat) (c : CtrState) : ctrStream lim c [] = (c, []) := rfl

@[simp] theorem ctrStream_cons (lim : Nat) (c : CtrState) (d : Byte) (ds : Bytes) :
    ctrStream lim c (d :: ds) =
      ((ctrStream lim (c.nextByte lim).1 ds).1, (d ^^^ (c.nextByte lim).2) :: (ctrStream lim (c.nextByte lim).1 ds).2) :=
  rfl

/-- A stream goes on from the state that its first part left (rule R229). -/
theorem ctrStream_append (lim : Nat) (c : CtrState) (xs ys : Bytes) :
    ctrStream lim c (xs ++ ys) =
      ((ctrStream lim (ctrStream lim c xs).1 ys).1,
        (ctrStream lim c xs).2 ++ (ctrStream lim (ctrStream lim c xs).1 ys).2) := by
  induction xs generalizing c with
  | nil => rfl
  | cons d ds ih => rw [List.cons_append, ctrStream_cons, ih, ctrStream_cons, List.cons_append]

/-- The keystream does not depend on the data, so a second pass from the same state takes it off again (rule R229). -/
theorem ctrStream_involutive (lim : Nat) (c : CtrState) (x : Bytes) :
    (ctrStream lim c (ctrStream lim c x).2).2 = x := by
  induction x generalizing c with
  | nil => rfl
  | cons d ds ih => rw [ctrStream_cons, ctrStream_cons, ih, BitVec.xor_assoc, BitVec.xor_self, BitVec.xor_zero]

/-- Successive calls with no IV are one stream (rule R229). -/
theorem ctrCalls_eq_ctrStream (lim : Nat) (c : CtrState) (ds : List Bytes) :
    ctrCalls lim c ds = ctrStream lim c ds.flatten := by
  induction ds generalizing c with
  | nil => rfl
  | cons d ds ih =>
    rw [List.flatten_cons, ctrStream_append, ← ih]
    rfl

/-! ### The keystream of one block -/

/-- With a keystream byte cached, it is the next one (rule R221). -/
theorem CtrState.nextByte_of_cached (c : CtrState) (lim : Nat) (h : c.offset ≠ 0) :
    c.nextByte lim = ({ c with offset := (c.offset + 1) % 16 }, blockByte c.encBlock c.offset) := by
  rw [CtrState.nextByte, if_neg h]

/-- With none cached, the next one is byte 0 of a fresh keystream block (rule R222). -/
theorem CtrState.nextByte_of_uncached (c : CtrState) (lim : Nat) (h : c.offset = 0) :
    c.nextByte lim = ({ c.fresh lim with offset := 1 }, blockByte (c.fresh lim).encBlock 0) := by
  rw [CtrState.nextByte, if_pos h, h]

/-- The bytes of a block from byte k on. -/
theorem blockBytes_drop_eq_cons (b : Block) (k : Nat) (hk : k < 16) :
    (blockBytes b).drop k = blockByte b k :: (blockBytes b).drop (k + 1) := by
  rw [List.drop_eq_getElem_cons (by simpa using hk)]
  simp [blockBytes]

/-- Within one keystream block, from its byte k on, the stream is the XOR with the bytes of the block (rule R221). -/
theorem ctrStream_of_cachedBlock (lim : Nat) (c : CtrState) (data : Bytes) (k : Nat) (hk : 0 < k)
    (hlen : k + data.length ≤ 16) :
    ctrStream lim { c with offset := k % 16 } data =
      ({ c with offset := (k + data.length) % 16 }, xorBytes data ((blockBytes c.encBlock).drop k)) := by
  induction data generalizing k with
  | nil => rfl
  | cons d ds ih =>
    rw [List.length_cons] at hlen ⊢
    have hmod : k % 16 = k := Nat.mod_eq_of_lt (by omega)
    rw [ctrStream_cons, CtrState.nextByte_of_cached _ _ (by simp only [hmod]; omega), blockBytes_drop_eq_cons _ k (by omega)]
    simp only [hmod]
    rw [ih (k + 1) (Nat.succ_pos k) (by omega), show k + 1 + ds.length = k + (ds.length + 1) by omega]
    rfl

/-- With no keystream cached, 1 to 16 bytes take one fresh keystream block (rules R222, R227). -/
theorem ctrStream_of_freshBlock (lim : Nat) (c : CtrState) (data : Bytes) (hoff : c.offset = 0) (hpos : 0 < data.length)
    (hlen : data.length ≤ 16) :
    ctrStream lim c data =
      ({ c.fresh lim with offset := data.length % 16 }, xorBytes data (blockBytes (c.fresh lim).encBlock)) := by
  cases data with
  | nil => exact absurd hpos (Nat.lt_irrefl 0)
  | cons d ds =>
    rw [List.length_cons] at hlen ⊢
    have htail := ctrStream_of_cachedBlock lim (c.fresh lim) ds 1 Nat.one_pos (by omega)
    have hbytes := blockBytes_drop_eq_cons (c.fresh lim).encBlock 0 (by omega)
    rw [List.drop_zero] at hbytes
    rw [ctrStream_cons, c.nextByte_of_uncached lim hoff, hbytes, Nat.add_comm]
    simp only [Nat.one_mod] at htail
    rw [htail]
    rfl

/-! ### The three loops of rule R228 -/

/-- The stream after a loop of rule R228: it goes on with the data left, and its output stands after the loop's. -/
def ctrThenStream (lim : Nat) (r : CtrState × Bytes × Bytes) : CtrState × Bytes :=
  ((ctrStream lim r.1 r.2.2).1, r.2.1 ++ (ctrStream lim r.1 r.2.2).2)

theorem ctrThenStream_cached (lim : Nat) (c : CtrState) (data : Bytes) :
    ctrThenStream lim (ctrCached c data) = ctrStream lim c data := by
  induction data generalizing c with
  | nil => rfl
  | cons d ds ih =>
    by_cases h : c.offset = 0
    · rw [ctrCached, if_pos h]
      rfl
    · rw [ctrCached, if_neg h, ctrStream_cons, c.nextByte_of_cached lim h, ← ih]
      rfl

/-- The first loop ends when no keystream is cached or no data is left. -/
theorem ctrCached_done (c : CtrState) (data : Bytes) :
    (ctrCached c data).1.offset = 0 ∨ (ctrCached c data).2.2 = [] := by
  induction data generalizing c with
  | nil => exact .inr rfl
  | cons d ds ih =>
    by_cases h : c.offset = 0
    · rw [ctrCached, if_pos h]
      exact .inl h
    · rw [ctrCached, if_neg h]
      exact ih _

/-- One full chunk of the second loop. -/
theorem ctrStream_of_fullChunk (lim : Nat) (c : CtrState) (data : Bytes) (hoff : c.offset = 0) (hlen : 16 ≤ data.length) :
    ctrStream lim c data =
      ((ctrStream lim (c.fresh lim) (data.drop 16)).1,
        xorBytes (data.take 16) (blockBytes (c.fresh lim).encBlock) ++ (ctrStream lim (c.fresh lim) (data.drop 16)).2) := by
  have htake : (data.take 16).length = 16 := List.length_take_of_le hlen
  have hfresh : { c.fresh lim with offset := 0 } = c.fresh lim := by rw [CtrState.fresh, hoff]
  have hchunk := ctrStream_of_freshBlock lim c (data.take 16) hoff (by omega) (by omega)
  rw [htake, Nat.mod_self, hfresh] at hchunk
  conv_lhs => rw [← List.take_append_drop 16 data, ctrStream_append, hchunk]

/-- What the second loop leaves: no keystream cached, and the data after k chunks. -/
theorem ctrFullChunks_done (lim k : Nat) (c : CtrState) (data : Bytes) :
    (ctrFullChunks lim k c data).1.offset = c.offset ∧ (ctrFullChunks lim k c data).2.2 = data.drop (16 * k) := by
  induction k generalizing c data with
  | zero => exact ⟨rfl, rfl⟩
  | succ k ih =>
    obtain ⟨hoff, hrest⟩ := ih (c.fresh lim) (data.drop 16)
    exact ⟨hoff, hrest.trans (by rw [List.drop_drop, Nat.mul_succ, Nat.add_comm])⟩

theorem ctrThenStream_fullChunks (lim k : Nat) (c : CtrState) (data : Bytes) (hoff : c.offset = 0)
    (hlen : 16 * k ≤ data.length) : ctrThenStream lim (ctrFullChunks lim k c data) = ctrStream lim c data := by
  induction k generalizing c data with
  | zero => rfl
  | succ k ih =>
    rw [ctrStream_of_fullChunk lim c data hoff (by omega), ← ih (c.fresh lim) (data.drop 16) hoff (by simp; omega)]
    simp only [ctrThenStream, ctrFullChunks, List.append_assoc]

/-- A XOR takes of its second string only what the first is long. -/
theorem xorBytes_take (a b : Bytes) : xorBytes a (b.take a.length) = xorBytes a b := by
  induction a generalizing b with
  | nil => rfl
  | cons x xs ih =>
    cases b with
    | nil => rfl
    | cons y ys => exact congrArg ((x ^^^ y) :: ·) (ih ys)

theorem ctrPartialChunk_eq_ctrStream (lim : Nat) (c : CtrState) (data : Bytes) (hoff : c.offset = 0)
    (hlen : data.length < 16) : ctrPartialChunk lim c data = ctrStream lim c data := by
  by_cases hnil : data = []
  · rw [hnil]
    rfl
  have hpos := List.length_pos_iff.mpr hnil
  rw [ctrPartialChunk, if_neg hpos.ne', ctrStream_of_freshBlock lim c data hoff hpos hlen.le, Nat.mod_eq_of_lt hlen]
  simp only [xorBytes_take]

/-- The second loop and the final partial chunk, from where the first loop ends. -/
theorem ctrChunks_eq_ctrStream (lim : Nat) (c : CtrState) (data : Bytes) (h : c.offset = 0 ∨ data = []) :
    let b := ctrFullChunks lim (data.length / 16) c data
    ((ctrPartialChunk lim b.1 b.2.2).1, b.2.1 ++ (ctrPartialChunk lim b.1 b.2.2).2) = ctrStream lim c data := by
  intro b
  obtain ⟨hoff, hrest⟩ : b.1.offset = c.offset ∧ b.2.2 = data.drop (16 * (data.length / 16)) :=
    ctrFullChunks_done lim (data.length / 16) c data
  have hlen : b.2.2.length < 16 := by rw [hrest, List.length_drop]; omega
  rcases h with h | rfl
  · rw [ctrPartialChunk_eq_ctrStream lim b.1 b.2.2 (hoff.trans h) hlen]
    exact ctrThenStream_fullChunks lim (data.length / 16) c data h (Nat.mul_div_le _ _)
  · rfl

/-- Settles O37: each loop is the stream over the bytes it takes. -/
theorem ctrApplyIsTheChunkedRule : Obligations.CtrApplyIsTheChunkedRule := by
  intro c data iv lim
  rw [ctrApply, ← ctrThenStream_cached, ctrThenStream, ← ctrChunks_eq_ctrStream _ _ _ (ctrCached_done _ _)]
  simp only [ctrByChunks, List.append_assoc]

/-! ### The keystream -/

/-- `Nat.repeat` may do the first of its rounds first. -/
theorem natRepeat_succ {α : Type} (f : α → α) (n : Nat) (a : α) : Nat.repeat f (n + 1) a = Nat.repeat f n (f a) := by
  induction n with
  | zero => rfl
  | succ n ih => exact congrArg f ih

theorem xorBytes_getD (a b : Bytes) (i : Nat) (ha : i < a.length) (hb : i < b.length) :
    (xorBytes a b).getD i 0 = a.getD i 0 ^^^ b.getD i 0 := by
  simp [xorBytes, ha, hb]

theorem blockBytes_getD (b : Block) (i : Nat) (hi : i < 16) : (blockBytes b).getD i 0 = blockByte b i := by
  simp [blockBytes, hi]

/-- With no keystream cached, block q of the keystream is E of the counter after q rounds of Inc (rule R229). -/
theorem ctrStream_getD (lim : Nat) (c : CtrState) (x : Bytes) (q j : Nat) (hoff : c.offset = 0) (hj : j < 16)
    (hlen : 16 * q + j < x.length) :
    (ctrStream lim c x).2.getD (16 * q + j) 0 =
      x.getD (16 * q + j) 0 ^^^ blockByte (aesE c.ks (Nat.repeat (fun b => ctrInc b lim) q c.counter)) j := by
  induction q generalizing c x with
  | zero =>
    rw [Nat.mul_zero, Nat.zero_add] at hlen ⊢
    have hlt : j < (x.take 16).length := by rw [List.length_take]; omega
    have htake : (x.take 16).getD j 0 = x.getD j 0 := by simp [hj]
    conv_lhs => rw [← List.take_append_drop 16 x, ctrStream_append]
    rw [List.getD_append _ _ _ _ (by rwa [ctrStream_length]), ctrStream_of_freshBlock lim c _ hoff (by omega) (by simp),
      xorBytes_getD _ _ _ hlt (by rwa [blockBytes_length]), htake, blockBytes_getD _ _ hj]
    rfl
  | succ q ih =>
    have hchunk : (xorBytes (x.take 16) (blockBytes (c.fresh lim).encBlock)).length = 16 := by
      rw [xorBytes, List.length_zipWith, List.length_take, blockBytes_length]; omega
    have hindex : 16 * (q + 1) + j = 16 + (16 * q + j) := by omega
    have hdrop : (x.drop 16).getD (16 * q + j) 0 = x.getD (16 * (q + 1) + j) 0 := by simp [hindex]
    have hrest := ih (c.fresh lim) (x.drop 16) hoff (by rw [List.length_drop]; omega)
    rw [hdrop] at hrest
    rw [ctrStream_of_fullChunk lim c x hoff (by omega), natRepeat_succ, List.getD_append_right _ _ _ _ (by omega), hchunk,
      hindex, Nat.add_sub_cancel_left, ← hindex, hrest]
    rfl

/-- Settles O38, property by property, each by induction on the stream. -/
theorem ctrStreamProperties : Obligations.CtrStreamProperties := by
  intro c iv lim x ds
  refine ⟨ctrStream_length lim _ x, ctrStream_involutive lim _ x, ?_, fun hoff i hi => ?_⟩
  · simp only [ctrApply, ctrStream_append, ctrCalls_eq_ctrStream]
  · have hkey := ctrStream_getD lim c x (i / 16) (i % 16) hoff (Nat.mod_lt i (by decide))
    rw [Nat.div_add_mod] at hkey
    exact hkey hi

/-! ### CTR_CREATE and CTR_APPLY -/

/-- The tail that every create rule shares gives `Alloc`'s slot number to the rest once its checks pass (rules R437, R442). -/
theorem createRule_of_lowestFree (s : State) (h : Nat) (b : Bool) (c : StatusCode) (bs : List Buffer)
    (f : Nat → CommandResult) (hb : b = true) (hbs : ∀ b ∈ bs, s.accepts b) (hfree : s.lowestFree h) :
    (do require b c; s.checkBuffers bs; let h ← s.alloc; f h) = f h :=
  require_bind_eq hb (bind_eq_of_ok ((s.checkBuffers_ok bs).mpr hbs) (bind_eq_of_ok ((s.alloc_ok h).mpr hfree) rfl))

/-- The end of a create command that fills the lowest EMPTY slot (rules R436, R442). -/
theorem exec_of_fill (i : Instr) (s : State) (h : Nat) (v : Slot) (hfree : s.lowestFree h)
    (hrule : ruleOf i s = .ok { slot := some (h, v), handle := h }) :
    exec i s = .next { s.ended .ok (BitVec.ofNat 8 h) with slots := s.slots.set (h - 1) v } := by
  obtain ⟨hpos, -⟩ := hfree
  rw [exec_of_ok i s _ hrule, s.complete_of_slot h _ _ _ hpos]
  rfl

/-- The rule of CTR_CREATE with a separate counter where every check passes (rules R230, R232). -/
theorem ctrCreateRule_of_lowestFree_separate (s : State) (h : Nat) (h2 : s.a2 ≠ 0) (hkey : aesKeyLen s.a1)
    (hacc : s.accepts ⟨s.a0, s.a1⟩) (hctr : s.accepts ⟨s.a2, 16⟩) (hfree : s.lowestFree h) :
    ctrCreateRule s = .ok {
      slot := some (h, .ctr (CtrState.init (expandKey (s.memRead s.a0 s.a1)) (blockOfBytes (s.memRead s.a2 16))))
      handle := h } := by
  rw [ctrCreateRule, if_pos h2]
  exact createRule_of_lowestFree s h _ _ _ _ ((validKeyLen_iff _).mpr hkey)
    (List.forall_mem_cons.mpr ⟨hacc, List.forall_mem_singleton.mpr hctr⟩) hfree

/-- The rule of CTR_CREATE with the combined layout where every check passes (rules R230, R231). -/
theorem ctrCreateRule_of_lowestFree_combined (s : State) (h kl : Nat) (h2 : s.a2 = 0) (hkey : aesKeyLen kl)
    (hlen : s.a1 = kl + 16) (hacc : s.accepts ⟨s.a0, s.a1⟩) (hfree : s.lowestFree h) :
    ctrCreateRule s = .ok {
      slot := some (h, .ctr (CtrState.init (expandKey (s.memRead s.a0 kl)) (blockOfBytes (s.memRead (s.a0 + kl) 16))))
      handle := h } := by
  have hkl : s.a1 - 16 = kl := by omega
  rw [← hkl] at hkey ⊢
  rw [ctrCreateRule, if_neg (not_not.mpr h2)]
  exact createRule_of_lowestFree s h _ _ _ _ (decide_eq_true ⟨by omega, (validKeyLen_iff _).mpr hkey⟩)
    (List.forall_mem_singleton.mpr hacc) hfree

/-- Settles O35: in each layout every check of the rule passes, and `Alloc` gives the lowest EMPTY slot. -/
theorem ctrCreateFillsACtrSlot : Obligations.CtrCreateFillsACtrSlot :=
  ⟨fun s h h2 hkey hacc hctr hfree =>
      exec_of_fill _ s h _ hfree (ctrCreateRule_of_lowestFree_separate s h h2 hkey hacc hctr hfree),
    fun s h kl h2 hkey hlen hacc hfree =>
      exec_of_fill _ s h _ hfree (ctrCreateRule_of_lowestFree_combined s h kl h2 hkey hlen hacc hfree)⟩

/-- Settles O36: every check of the rule passes, and it records the CTR state and queues the one write. -/
theorem ctrApplyTransformsInPlace : Obligations.CtrApplyTransformsInPlace := by
  intro s h lim c hslot hlim hacc hiv iv r
  have hbuffers : ∀ b ∈ ctrApplyBuffers s, s.accepts b := by
    unfold ctrApplyBuffers
    split
    · next h2 => exact List.forall_mem_cons.mpr ⟨hacc, List.forall_mem_singleton.mpr (hiv h2)⟩
    · exact List.forall_mem_singleton.mpr hacc
  have hiv : ctrApplyIv s = iv := ite_not ..
  have hrule : ruleOf (.ctrApply h lim) s = .ok { slot := some (h, .ctr r.1), writes := [(s.a0, r.2)] } :=
    bind_eq_of_ok (s.checkHandle_of_ctr h c hslot) (require_bind_eq (decide_eq_true hlim)
      (bind_eq_of_ok ((s.checkBuffers_ok _).mpr hbuffers) (by rw [hiv])))
  obtain ⟨hpos, -⟩ := s.slot_range h (by rw [hslot]; nofun)
  rw [exec_of_ok _ s _ hrule, s.complete_of_slot h _ _ _ hpos, Memory.commit_one]
  rfl

end Sys2Proof.Machine
end

/-! PROOFS. The CCM compositor (rules R250 to R270): the sections of the CBC-MAC, the counter blocks, the comparison over
M bytes, CCM_ENCRYPT and CCM_DECRYPT. -/
section
namespace Sys2Proof.Machine

/-! ### The blocks of padded byte strings -/

/-- A block reads only the first 16 bytes of its string. -/
theorem blockOfBytes_congr (a b : Bytes) (h : ∀ i < 16, a.getD i 0 = b.getD i 0) : blockOfBytes a = blockOfBytes b :=
  blockOfFn_eq _ _ fun i hi => (h i hi).trans (blockByte_blockOfFn (b.getD · 0) i hi).symm

/-- The first n blocks read only the first 16·n bytes. -/
theorem blocksFrom_congr (n : Nat) (a b : Bytes) (h : ∀ i < 16 * n, a.getD i 0 = b.getD i 0) :
    blocksFrom n a = blocksFrom n b := by
  induction n generalizing a b with
  | zero => rfl
  | succ n ih =>
    have htail : ∀ i < 16 * n, (a.drop 16).getD i 0 = (b.drop 16).getD i 0 := fun i hi => by
      simpa using h (16 + i) (by omega)
    rw [blocksFrom, blocksFrom, blockOfBytes_congr a b fun i hi => h i (by omega), ih _ _ htail]

/-- The blocks of two strings one after the other, where the first fills its n blocks. -/
theorem blocksFrom_append (n k : Nat) (a b : Bytes) (ha : a.length = 16 * n) :
    blocksFrom (n + k) (a ++ b) = blocksFrom n a ++ blocksFrom k b := by
  induction n generalizing a with
  | zero => rw [List.eq_nil_of_length_eq_zero ha, Nat.zero_add]; rfl
  | succ n ih =>
    have hhead : blockOfBytes (a ++ b) = blockOfBytes a :=
      blockOfBytes_congr _ _ fun i hi => List.getD_append _ _ _ _ (by omega)
    have hdrop : (a ++ b).drop 16 = a.drop 16 ++ b := List.drop_append_of_le_length (by omega)
    rw [Nat.succ_add, blocksFrom, blocksFrom, hhead, hdrop, ih _ (by rw [List.length_drop]; omega), List.cons_append]

/-- Zero bytes after the end of a string read as what stands past its end. -/
theorem getD_append_zeros (b : Bytes) (k i : Nat) : (b ++ zeros k).getD i 0 = b.getD i 0 := by
  rcases Nat.lt_or_ge i b.length with hi | hi
  · exact List.getD_append _ _ _ _ hi
  · rw [List.getD_append_right _ _ _ _ hi, List.getD_eq_default _ _ hi, zeros]
    by_cases hk : i - b.length < k
    · exact List.getD_replicate 0 hk
    · exact List.getD_eq_default _ _ (by simpa using hk)

theorem pad16_length (b : Bytes) : (pad16 b).length = 16 * ((b.length + 15) / 16) := by
  rw [pad16, List.length_append, zeros, List.length_replicate]
  omega

/-- `paddedBlocks` gives the blocks of `Pad16` (rule R258). -/
theorem blocksFrom_pad16 (n : Nat) (b : Bytes) : blocksFrom n (pad16 b) = blocksFrom n b :=
  blocksFrom_congr n _ _ fun i _ => getD_append_zeros b _ i

/-- Two sections, each padded by itself (rule R258). -/
theorem wholeBlocks_pad16_append (a b : Bytes) : wholeBlocks (pad16 a ++ pad16 b) = paddedBlocks a ++ paddedBlocks b := by
  have hcount : (pad16 a ++ pad16 b).length / 16 = (a.length + 15) / 16 + (b.length + 15) / 16 := by
    rw [List.length_append, pad16_length, pad16_length]
    omega
  rw [wholeBlocks, hcount, blocksFrom_append _ _ _ _ (pad16_length a), blocksFrom_pad16, blocksFrom_pad16]
  rfl

/-- The MAC of CCM is the CBC-MAC chain over B0 and the padded sections: 0^16 XOR B0 is B0 (rules R258, R299). -/
theorem ccmCbcMac_eq_chain (ks : KeySchedule) (b0 : Block) (aadSection p : Bytes) :
    ccmCbcMac ks b0 aadSection p = cbcMacChain ks (b0 :: wholeBlocks (pad16 aadSection ++ pad16 p)) := by
  rw [wholeBlocks_pad16_append, cbcMacChain, List.foldl_cons, show 0 ^^^ b0 = b0 from BitVec.zero_xor, ccmCbcMac]

/-! ### The counter blocks -/

@[simp] theorem beBytes_length (n x : Nat) : (beBytes n x).length = n := by simp [beBytes]

/-- The number of two strings one after the other (rule R14). -/
theorem intBE_append (a b : Bytes) : intBE (a ++ b) = intBE a * 256 ^ b.length + intBE b := by
  induction b using List.reverseRecOn with
  | nil => simp [intBE]
  | append_singleton b x ih =>
    rw [← List.append_assoc, intBE_concat, intBE_concat, ih, List.length_append, List.length_singleton, pow_succ]
    ring

/-- A block as a number is its 16 bytes as a number (rule R14). -/
theorem blockOfBytes_toNat (b : Bytes) (hlen : b.length = 16) : (blockOfBytes b).toNat = intBE b := by
  have hbytes : (List.range 16).map (fun i => b.getD i 0) = b :=
    List.ext_getElem (by simp [hlen]) fun i _ hi => by simp [hi]
  have hlt : intBE b < 2 ^ 128 := by simpa [hlen] using intBE_lt b
  rw [blockOfBytes, blockOfFn, hbytes, BitVec.toNat_ofNat, Nat.mod_eq_of_lt hlt]

/-- A counter block as a number: its flags and nonce bytes, then the counter value (rule R259). -/
theorem ccmCounterBlock_toNat (l : Nat) (nonce : Bytes) (i : Nat) (hnonce : nonce.length + l = 15) (hi : i < 256 ^ l) :
    (ccmCounterBlock l nonce i).toNat = intBE (BitVec.ofNat 8 (l - 1) :: nonce) * 256 ^ l + i := by
  have hlen : (BitVec.ofNat 8 (l - 1) :: (nonce ++ beBytes l i)).length = 16 := by simp; omega
  rw [ccmCounterBlock, blockOfBytes_toNat _ hlen, ← List.cons_append, intBE_append, beBytes_length, intBE_beBytes,
    Nat.mod_eq_of_lt hi]

/-- `Inc(ctr, 16)` counts the whole block (rule R224). -/
theorem ctrInc_sixteen_toNat (b : Block) : (ctrInc b 16).toNat = (b.toNat + 1) % 256 ^ 16 := by
  have hlt : b.toNat < 256 ^ 16 := b.isLt
  rw [ctrInc_toNat b 16 le_rfl, Nat.div_eq_of_lt hlt, Nat.mod_eq_of_lt hlt, Nat.mul_zero, Nat.zero_add]

/-- `Inc(A_i, 16) = A_(i+1)` while the L counter bytes hold i + 1 (rule R261). -/
theorem ctrInc_ccmCounterBlock (l : Nat) (nonce : Bytes) (i : Nat) (hnonce : nonce.length + l = 15)
    (hi : i + 1 < 256 ^ l) : ctrInc (ccmCounterBlock l nonce i) 16 = ccmCounterBlock l nonce (i + 1) := by
  have hlt : (ccmCounterBlock l nonce (i + 1)).toNat < 256 ^ 16 := BitVec.isLt _
  have hnext := ccmCounterBlock_toNat l nonce (i + 1) hnonce hi
  have hprev := ccmCounterBlock_toNat l nonce i hnonce (by omega)
  refine BitVec.eq_of_toNat_eq ?_
  rw [ctrInc_sixteen_toNat, hprev, Nat.add_assoc, ← hnext, Nat.mod_eq_of_lt hlt]

/-- The counter of the data transform, A_1, is A_(q+1) after q increments (rule R261). -/
theorem repeat_ctrInc_ccmCtr (ks : KeySchedule) (l : Nat) (nonce : Bytes) (q : Nat) (hnonce : nonce.length + l = 15)
    (hq : q + 1 < 256 ^ l) :
    Nat.repeat (fun b => ctrInc b 16) q (ccmCtr ks l nonce).counter = ccmCounterBlock l nonce (q + 1) := by
  induction q with
  | zero => exact ctrInc_ccmCounterBlock l nonce 0 hnonce hq
  | succ q ih => rw [Nat.repeat, ih (by omega), ctrInc_ccmCounterBlock l nonce (q + 1) hnonce hq]

/-! ### CcmSeal -/

@[simp] theorem ccmSeal_fst_length (ks : KeySchedule) (m l : Nat) (nonce p aad : Bytes) :
    (ccmSeal ks m l nonce p aad).1.length = p.length := ctrStream_length 16 _ p

@[simp] theorem ccmTag_length (ks : KeySchedule) (m l : Nat) (nonce p aad : Bytes) (hm : m ≤ 16) :
    (ccmTag ks m l nonce p aad).length = m := by
  rw [ccmTag, List.length_take, blockBytes_length, Nat.min_eq_left hm]

/-- Byte i of the ciphertext is byte i of the plaintext XOR its byte of `E(A_1) || E(A_2) || …` (rule R261). -/
theorem ccmSeal_fst_getD (ks : KeySchedule) (m l : Nat) (nonce p aad : Bytes) (hnonce : nonce.length + l = 15)
    (hp : p.length < 256 ^ l) (i : Nat) (hi : i < p.length) :
    (ccmSeal ks m l nonce p aad).1.getD i 0 =
      p.getD i 0 ^^^ blockByte (aesE ks (ccmCounterBlock l nonce (i / 16 + 1))) (i % 16) := by
  have hkey := ctrStream_getD 16 (ccmCtr ks l nonce) p (i / 16) (i % 16) rfl (Nat.mod_lt i (by decide))
  rw [Nat.div_add_mod, repeat_ctrInc_ccmCtr ks l nonce _ hnonce (by omega)] at hkey
  exact hkey hi

/-- The flags byte of B0 with Adata as a number (rule R256). -/
theorem ccmFlags_eq (m l aadLen : Nat) :
    ccmFlags m l aadLen = 64 * (if 0 < aadLen then 1 else 0) + 8 * ((m - 2) / 2) + (l - 1) := by
  rw [ccmFlags, mul_ite]

/-- The AAD section, with the two forms of its prefix written out (rule R257). -/
theorem ccmAadSection_eq (aad : Bytes) :
    ccmAadSection aad =
      if aad.length = 0 then []
      else if aad.length < 0xFF00 then beBytes 2 aad.length ++ aad
      else [0xFF, 0xFE] ++ beBytes 4 aad.length ++ aad := by
  rw [ccmAadSection, ccmAadPrefix]
  split
  · rfl
  · split <;> rfl

/-- What CcmSeal gives satisfies rules R256 to R261. -/
theorem ccmSeal_equations (ks : KeySchedule) (m l : Nat) (nonce p aad : Bytes) (hnonce : nonce.length + l = 15)
    (hp : p.length < 2 ^ (8 * l)) :
    ccmEquations ks m l nonce p aad (ccmSeal ks m l nonce p aad).1 (ccmSeal ks m l nonce p aad).2 := by
  rw [two_pow_eight_mul] at hp
  refine ⟨fun i hi => ctrInc_ccmCounterBlock l nonce i hnonce (by rwa [two_pow_eight_mul] at hi),
    ccmSeal_fst_length ks m l nonce p aad, ccmSeal_fst_getD ks m l nonce p aad hnonce hp, ?_⟩
  rw [ccmSeal, ccmTag, ccmCbcMac_eq_chain, ccmB0, ccmFlags_eq, ccmAadSection_eq]
  rfl

/-! ### The comparison over M bytes -/

/-- The OR of the differences is zero exactly when each of them is (rule R421). -/
theorem foldl_or_eq_zero_iff (f : Nat → Byte) (is : List Nat) (d : Byte) :
    is.foldl (fun d i => d ||| f i) d = 0 ↔ d = 0 ∧ ∀ i ∈ is, f i = 0 := by
  induction is generalizing d with
  | nil => simp
  | cons i is ih =>
    have hor : d ||| f i = 0 ↔ d = 0 ∧ f i = 0 := BitVec.or_eq_zero_iff
    rw [List.foldl_cons, ih, hor, List.forall_mem_cons, and_assoc]

theorem ctEqual_iff_getD (a b : Bytes) (n : Nat) : ctEqual a b n = true ↔ ∀ i < n, a.getD i 0 = b.getD i 0 := by
  rw [ctEqual, decide_eq_true_iff, foldl_or_eq_zero_iff]
  simp

/-- `CtEqual` is true exactly when the first n bytes are equal (rule R421). -/
theorem ctEqual_iff_take (a b : Bytes) (n : Nat) (ha : n ≤ a.length) (hb : n ≤ b.length) :
    ctEqual a b n = true ↔ a.take n = b.take n := by
  rw [ctEqual_iff_getD]
  constructor
  · intro h
    refine List.ext_getElem (by simp; omega) fun i hi _ => ?_
    have hi : i < n := by simp at hi; omega
    simpa [show i < a.length by omega, show i < b.length by omega] using h i hi
  · intro h i hi
    have hget := congrArg (·.getD i 0) h
    simpa [hi] using hget

/-- Of two strings of n bytes, `CtEqual` over n bytes tells whether they are one (rule R421). -/
theorem ctEqual_iff_eq (a b : Bytes) (n : Nat) (ha : a.length = n) (hb : b.length = n) : ctEqual a b n = true ↔ a = b := by
  rw [ctEqual_iff_take a b n ha.ge hb.ge, List.take_of_length_le ha.le, List.take_of_length_le hb.le]

/-! ### CcmOpen -/

/-- CcmOpen on a sealed ciphertext compares the received tag with the produced one, and gives the plaintext: the keystream
is the same, so a second pass takes it off again (rule R262). -/
theorem ccmOpen_ccmSeal (ks : KeySchedule) (m l : Nat) (nonce p aad u : Bytes) :
    ccmOpen ks m l nonce (ccmSeal ks m l nonce p aad).1 aad u = (ctEqual (ccmSeal ks m l nonce p aad).2 u m, p) := by
  have hplain : (ctrApply (ccmCtr ks l nonce) (ccmSeal ks m l nonce p aad).1 none 16).2 = p :=
    ctrStream_involutive 16 (ccmCtr ks l nonce) p
  rw [ccmOpen, hplain]
  rfl

/-- Settles O42: opening recomputes the produced tag, and the comparison over its M bytes is equality. -/
theorem ccmOpenUndoesSeal : Obligations.CcmOpenUndoesSeal := by
  intro ks m l nonce p aad u hm r
  have htag : r.2.length = m := ccmTag_length ks m l nonce p aad hm
  rw [ccmOpen_ccmSeal, ccmOpen_ccmSeal]
  refine ⟨by rw [(ctEqual_iff_eq r.2 r.2 m htag htag).mpr rfl], fun hu hne => ?_⟩
  exact Bool.eq_false_iff.mpr fun heq => hne ((ctEqual_iff_eq r.2 u m htag hu).mp heq).symm

/-! ### CCM_ENCRYPT and CCM_DECRYPT -/

/-- Both CCM commands pass every check under the conditions of rules R251, R253, R254 and R264. -/
theorem ccmChecks_ok (m l : Nat) (s : State) (h : ccmAccepted m l s) : ccmChecks m l s = .ok () := by
  obtain ⟨heven, hm4, hm16, hl2, hl8, hlen, hkeyLen, hkey, hnonce, hdata, haad, htag⟩ := h
  have hbuffers : ∀ b ∈ ccmBuffers m l s, s.accepts b := by
    simp only [ccmBuffers, List.forall_mem_cons]
    exact ⟨hkey, hnonce, hdata, haad, htag, nofun⟩
  exact require_bind_eq (decide_eq_true ⟨heven, hm4, hm16, hl2, hl8⟩) (require_bind_eq (decide_eq_true hlen)
    (require_bind_eq ((validKeyLen_iff _).mpr hkeyLen) ((s.checkBuffers_ok _).mpr hbuffers)))

/-- A command whose rule queues writes and nothing else (rule R436). -/
theorem exec_of_writes (i : Instr) (s : State) (ws : List (Nat × Bytes)) (h : ruleOf i s = .ok { writes := ws }) :
    exec i s = .next { s.ended .ok 0 with mem := Memory.commit s.mem ws } := by
  rw [exec_of_ok i s _ h, State.complete_eq_ended]
  rfl

/-- Settles O40: every check passes, the rule queues ciphertext and tag, and both satisfy the CCM equations. -/
theorem ccmEncryptWritesCiphertextAndTag : Obligations.CcmEncryptWritesCiphertextAndTag := by
  intro s m l hacc r
  have hrule : ruleOf (.ccmEncrypt m l) s = .ok { writes := [(s.a3, r.1), (s.a7, r.2)] } :=
    bind_eq_of_ok (ccmChecks_ok m l s hacc) rfl
  obtain ⟨-, -, -, -, hl8, hlen, -⟩ := hacc
  refine ⟨exec_of_writes _ s _ hrule, ccmSeal_equations _ m l _ _ _ ?_ ?_⟩
  · rw [State.memRead_length]; omega
  · rwa [State.memRead_length]

/-- Settles O41: every check passes, so the rule ends by the comparison of the tags. -/
theorem ccmDecryptWritesOnlyVerifiedPlaintext : Obligations.CcmDecryptWritesOnlyVerifiedPlaintext := by
  intro s m l hacc r
  have hchecks := ccmChecks_ok m l s hacc
  refine ⟨fun hverified => exec_of_writes _ s [(s.a3, r.2)] ?_, fun hfailed => exec_of_error _ s _ ?_⟩
  · exact bind_eq_of_ok hchecks (require_bind_eq hverified rfl)
  · exact bind_eq_of_ok hchecks (require_bind_error hfailed)

end Sys2Proof.Machine
end

/-! PROOFS. CMAC and the OMAC state that XCBC and EAX share (rules R290 to R308): the closed form of the streamed state, and
the commands that create, feed and close it. -/
section
namespace Sys2Proof.Machine

/-! ### The pending block -/

/-- The last of the first n + 1 blocks starts at byte 16·n. -/
theorem blocksFrom_succ (n : Nat) (b : Bytes) :
    blocksFrom (n + 1) b = blocksFrom n b ++ [blockOfBytes (b.drop (16 * n))] := by
  induction n generalizing b with
  | zero => rfl
  | succ n ih => rw [blocksFrom, ih, List.drop_drop, Nat.mul_succ, Nat.add_comm (16 * n)]; rfl

/-- Setting the byte after the end of a string appends it. -/
theorem blockSetByte_blockOfBytes (t : Bytes) (b : Byte) :
    blockSetByte (blockOfBytes t) t.length b = blockOfBytes (t ++ [b]) := by
  refine blockOfFn_eq _ _ fun i hi => ?_
  have hconcat : blockByte (blockOfBytes (t ++ [b])) i = (t ++ [b]).getD i 0 := blockByte_blockOfFn _ i hi
  have hbyte : blockByte (blockOfBytes t) i = t.getD i 0 := blockByte_blockOfFn _ i hi
  rw [hconcat, hbyte]
  rcases Nat.lt_trichotomy i t.length with hlt | heq | hgt
  · rw [if_neg hlt.ne, List.getD_append _ _ _ _ hlt]
  · rw [if_pos heq, heq, List.getD_append_right _ _ _ _ le_rfl, Nat.sub_self]; rfl
  · rw [if_neg hgt.ne', List.getD_eq_default _ _ hgt.le, List.getD_eq_default _ _ (by simpa using hgt)]

/-- A string of at most 16 bytes is read back from its block. -/
theorem blockBytes_blockOfBytes_take (t : Bytes) (ht : t.length ≤ 16) :
    (blockBytes (blockOfBytes t)).take t.length = t := by
  refine List.ext_getElem (by simpa using ht) fun i hi hit => ?_
  have hbyte : blockByte (blockOfBytes t) i = t.getD i 0 := blockByte_blockOfFn _ i (by omega)
  simp [blockBytes, hbyte, hit]

/-- The last block of a MAC with pending bytes t: t itself with ka where it is full, else t, 0x80 and zeros with kb (rule R296). -/
theorem Omac.lastBlock_of_pending (ks : KeySchedule) (ka kb x : Block) (t : Bytes) (ht : t.length ≤ 16) :
    (Omac.mk ks ka kb x (blockOfBytes t) t.length).lastBlock =
      if t.length = 16 then blockOfBytes t ^^^ ka else blockOfBytes (t ++ [0x80]) ^^^ kb := by
  have hpad (k : Nat) : blockOfBytes (t ++ 0x80 :: zeros k) = blockOfBytes (t ++ [0x80]) := by
    rw [List.append_cons]
    exact blockOfBytes_congr _ _ fun i _ => getD_append_zeros _ k i
  rw [Omac.lastBlock, blockBytes_blockOfBytes_take t ht, hpad]

/-! ### The closed form of the OMAC state -/

/-- The OMAC state that has chained the first n blocks of the message m and holds the rest as pending bytes (rule R295). -/
def Omac.chained (ks : KeySchedule) (ka kb : Block) (n : Nat) (m : Bytes) : Omac :=
  ⟨ks, ka, kb, cbcMacChain ks (blocksFrom n m), blockOfBytes (m.drop (16 * n)), (m.drop (16 * n)).length⟩

section
variable (ks : KeySchedule) (ka kb : Block)

/-- Before a further byte goes in, every full block is chained (rule R294). -/
theorem Omac.chain_chained (m : Bytes) :
    (Omac.chained ks ka kb ((m.length - 1) / 16) m).chain = Omac.chained ks ka kb (m.length / 16) m := by
  have hplen : (Omac.chained ks ka kb ((m.length - 1) / 16) m).plen = m.length - 16 * ((m.length - 1) / 16) :=
    List.length_drop
  rw [Omac.chain, hplen]
  split
  · next hfull =>
    have hcount : m.length / 16 = (m.length - 1) / 16 + 1 := by omega
    have hempty : m.drop (16 * (m.length / 16)) = [] := List.drop_eq_nil_of_le (by omega)
    rw [Omac.chained, Omac.chained, hempty, hcount, blocksFrom_succ, cbcMacChain, cbcMacChain, List.foldl_append]
    rfl
  · rw [show m.length / 16 = (m.length - 1) / 16 by omega]

/-- A byte after every full block is chained joins the pending ones (rule R294). -/
theorem Omac.push_chained (m : Bytes) (b : Byte) :
    (Omac.chained ks ka kb ((m.length - 1) / 16) m).push b = Omac.chained ks ka kb (m.length / 16) (m ++ [b]) := by
  have hle : 16 * (m.length / 16) ≤ m.length := Nat.mul_div_le _ _
  have hblocks : blocksFrom (m.length / 16) (m ++ [b]) = blocksFrom (m.length / 16) m :=
    blocksFrom_congr _ _ _ fun i hi => List.getD_append _ _ _ _ (hi.trans_le hle)
  rw [Omac.push, Omac.chain_chained, Omac.chained, Omac.chained, hblocks, List.drop_append_of_le_length hle,
    List.length_append, ← blockSetByte_blockOfBytes]
  rfl

/-- A new OMAC state updated with a message has chained all blocks but the last (rules R294, R295). -/
theorem omacUpdate_omacInit (m : Bytes) :
    omacUpdate (omacInit ks ka kb) m = Omac.chained ks ka kb ((m.length - 1) / 16) m := by
  induction m using List.reverseRecOn with
  | nil => exact congrArg (Omac.mk ks ka kb 0 · 0) (by decide)
  | append_singleton m b ih =>
    have hpush : omacUpdate (omacInit ks ka kb) (m ++ [b]) = (omacUpdate (omacInit ks ka kb) m).push b :=
      List.foldl_concat ..
    rw [hpush, ih, Omac.push_chained, List.length_append, List.length_singleton, Nat.add_sub_cancel]

end

/-- Updates with the pieces of a message are one update with the message (rule R294). -/
theorem foldl_omacUpdate (o : Omac) (pieces : List Bytes) : pieces.foldl omacUpdate o = omacUpdate o pieces.flatten :=
  List.foldl_flatten.symm

/-- Settles O48: the pieces are one update, the update gives the closed form, and its pending bytes are a full block exactly
when the message is not empty and fills its blocks. -/
theorem omacIsTheChainedMac : Obligations.OmacIsTheChainedMac := by
  intro ks ka kb pieces
  simp only [foldl_omacUpdate, omacUpdate_omacInit]
  generalize pieces.flatten = m
  have hlast : (m.drop (16 * ((m.length - 1) / 16))).length = m.length - 16 * ((m.length - 1) / 16) := List.length_drop
  have hpos : m ≠ [] ↔ 0 < m.length := List.length_pos_iff.symm
  refine ⟨fun hm => hlast.trans (by rw [hpos] at hm; omega), rfl, ?_⟩
  have hfull : (m.drop (16 * ((m.length - 1) / 16))).length = 16 ↔ m ≠ [] ∧ m.length % 16 = 0 := by
    rw [hlast, hpos]; omega
  rw [omacFinal, Omac.chained, Omac.lastBlock_of_pending _ _ _ _ _ (by omega), apply_ite (_ ^^^ ·), apply_ite (aesE ks)]
  simp only [hfull]

/-! ### The MAC commands -/

theorem State.checkHandle_of_cmac (s : State) (h : Nat) (c : CmacCtx) (req : PhaseReq) (hslot : s.slot h = .cmac c)
    (hphase : c.phase = .opened) : s.checkHandle h Slot.asCmac req = .ok c :=
  (s.checkHandle_ok h _ _ c rfl).mpr ⟨(Slot.asCmac_eq_some _ c).mpr hslot, by simp [hslot, Slot.phase, hphase]⟩

theorem State.checkHandle_of_xcbc (s : State) (h : Nat) (c : XcbcCtx) (req : PhaseReq) (hslot : s.slot h = .xcbc c)
    (hphase : c.phase = .opened) : s.checkHandle h Slot.asXcbc req = .ok c :=
  (s.checkHandle_ok h _ _ c rfl).mpr ⟨(Slot.asXcbc_eq_some _ c).mpr hslot, by simp [hslot, Slot.phase, hphase]⟩

/-- A rule whose two checks are those of its handle and of one buffer goes on with the slot's context (rules R437, R441). -/
theorem handleRule_of_accepts {α : Type} {s : State} {h : Nat} {kind : Slot → Option α} {req : PhaseReq} {c : α}
    {b : α → Buffer} (f : α → CommandResult) (hc : s.checkHandle h kind req = .ok c) (hb : s.accepts (b c)) :
    (do let c ← s.checkHandle h kind req; s.checkBuffers [b c]; f c) = f c :=
  bind_eq_of_ok hc (bind_eq_of_ok ((s.checkBuffers_ok [b c]).mpr (List.forall_mem_singleton.mpr hb)) rfl)

/-- The end of a command that records a change of its own slot and returns no handle (rules R436, R440). -/
theorem exec_of_record (i : Instr) (s : State) (h : Nat) (v : Slot) (ws : List (Nat × Bytes)) (hne : s.slot h ≠ .empty)
    (hrule : ruleOf i s = .ok { slot := some (h, v), writes := ws }) :
    exec i s = .next { s.ended .ok 0 with slots := s.slots.set (h - 1) v, mem := Memory.commit s.mem ws } := by
  obtain ⟨hpos, -⟩ := s.slot_range h hne
  rw [exec_of_ok i s _ hrule, s.complete_of_slot h _ _ _ hpos]
  rfl

/-- Settles O44: every check of the rule passes, and `Alloc` gives the lowest EMPTY slot. -/
theorem cmacCreateFillsACmacSlot : Obligations.CmacCreateFillsACmacSlot := fun s h hkey hacc hfree =>
  exec_of_fill _ s h _ hfree (createRule_of_lowestFree s h _ _ _ _ ((validKeyLen_iff _).mpr hkey)
    (List.forall_mem_singleton.mpr hacc) hfree)

/-- Settles O45: both checks of each rule pass, and it records the updated OMAC state and queues no write. -/
theorem macUpdatesAbsorbTheData : Obligations.MacUpdatesAbsorbTheData := by
  refine fun s h hacc => ⟨fun c hslot hphase => ?_, fun c hslot hphase => ?_, fun c hslot hphase => ?_⟩
  · exact exec_of_record _ s h _ [] (by rw [hslot]; nofun)
      (handleRule_of_accepts _ (s.checkHandle_of_cmac h c _ hslot hphase) hacc)
  · exact exec_of_record _ s h _ [] (by rw [hslot]; nofun)
      (handleRule_of_accepts _ (s.checkHandle_of_xcbc h c _ hslot hphase) hacc)
  · exact exec_of_record _ s h _ [] (by rw [hslot]; nofun)
      (handleRule_of_accepts _ (s.checkHandle_of_eax h c _ hslot hphase) hacc)

/-- The leading 16 bytes of a MAC are the whole block (rule R298). -/
theorem omacResult_sixteen (o : Omac) : omacResult o 16 = blockBytes (omacFinal o) :=
  List.take_of_length_le (blockBytes_length _).le

/-- Settles O46: both checks of each rule pass, and it records the FINAL slot and queues the MAC. -/
theorem macFinalsWriteTheMacAndCloseTheSlot : Obligations.MacFinalsWriteTheMacAndCloseTheSlot := by
  refine fun s h => ⟨fun c hslot hphase hacc => ?_, fun c hslot hphase hacc => ?_⟩
  · rw [← omacResult_sixteen, ← Memory.commit_one s.mem (s.a0, omacResult c.om 16)]
    exact exec_of_record _ s h _ _ (by rw [hslot]; nofun)
      (handleRule_of_accepts _ (s.checkHandle_of_cmac h c _ hslot hphase) hacc)
  · rw [← omacResult, ← Memory.commit_one s.mem (s.a0, omacResult c.om c.outLen)]
    exact exec_of_record _ s h _ _ (by rw [hslot]; nofun)
      (handleRule_of_accepts _ (s.checkHandle_of_xcbc h c _ hslot hphase) hacc)

end Sys2Proof.Machine
end

/-! PROOFS. XCBC_CREATE (rules R320 to R330): the key a variant uses, and the end of the command. -/
section
namespace Sys2Proof.Machine

/-- The only key length a variant refuses is one other than 16 for MAC-96 (rules R322, R323). -/
theorem xcbcKeyLenOk_iff (variant : XcbcVariant) (n : Nat) :
    xcbcKeyLenOk variant n = true ↔ (variant = .mac96 → n = 16) := by
  cases variant with
  | mac96 => simp [xcbcKeyLenOk]
  | prf128 => simp [xcbcKeyLenOk]

/-- The definition that the commands run is the one that writes out rules R325 and R326. -/
theorem xcbcMac16_eq_xcbcValue (key m : Bytes) : xcbcMac16 key m = xcbcValue key m := rfl

/-- The PRF key of a buffer's contents by the buffer's length (rule R324). -/
theorem prfKey_memRead (s : State) (a n : Nat) :
    prfKey (s.memRead a n) =
      if n = 16 then s.memRead a n
      else if n < 16 then s.memRead a n ++ zeros (16 - n)
      else blockBytes (xcbcValue (zeros 16) (s.memRead a n)) := by
  rw [prfKey, State.memRead_length, xcbcMac16_eq_xcbcValue]

/-- XCBC_CREATE where every check passes records `xcbcInit` of the key buffer in the lowest EMPTY slot (rule R330). -/
theorem exec_xcbcCreate_of_lowestFree (s : State) (h : Nat) (variant : XcbcVariant)
    (hlen : variant = .mac96 → s.a1 = 16) (hacc : s.accepts ⟨s.a0, s.a1⟩) (hfree : s.lowestFree h) :
    exec (.xcbcCreate variant) s = .next { s.ended .ok (BitVec.ofNat 8 h) with
      slots := s.slots.set (h - 1) (.xcbc (xcbcInit variant (s.memRead s.a0 s.a1))) } :=
  exec_of_fill _ s h _ hfree (createRule_of_lowestFree s h _ _ _ _ ((xcbcKeyLenOk_iff variant _).mpr hlen)
    (List.forall_mem_singleton.mpr hacc) hfree)

/-- Settles O47: the command records `xcbcInit`, whose key is the buffer's contents for MAC-96 and `PrfKey` of them for PRF-128. -/
theorem xcbcCreateFillsAnXcbcSlot : Obligations.XcbcCreateFillsAnXcbcSlot := by
  intro s h v hlen hacc hfree
  rw [exec_xcbcCreate_of_lowestFree s h v hlen hacc hfree]
  cases v with
  | mac96 => rfl
  | prf128 =>
    rw [xcbcInit, xcbcKey, prfKey_memRead]
    rfl

end Sys2Proof.Machine
end

/-! PROOFS. The EAX engine (rules R350 to R378): how header, ciphertext and transform of a context go together, and the
commands that create, stream and close it. -/
section
namespace Sys2Proof.Machine

/-! ### The operations of a context -/

/-- Two updates are one update with both strings (rule R294). -/
theorem omacUpdate_append (o : Omac) (a b : Bytes) : omacUpdate o (a ++ b) = omacUpdate (omacUpdate o a) b :=
  List.foldl_append

theorem EaxCtx.header_append (c : EaxCtx) (a b : Bytes) : c.header (a ++ b) = (c.header a).header b := by
  simp only [EaxCtx.header, omacUpdate_append]

theorem EaxCtx.absorb_append (c : EaxCtx) (a b : Bytes) : c.absorb (a ++ b) = (c.absorb a).absorb b := by
  simp only [EaxCtx.absorb, omacUpdate_append]

/-- The transform goes on from the state that its first part left (rules R229, R353). -/
theorem EaxCtx.stream_append (c : EaxCtx) (a b : Bytes) :
    c.stream (a ++ b) = (((c.stream a).1.stream b).1, (c.stream a).2 ++ ((c.stream a).1.stream b).2) := by
  simp only [EaxCtx.stream, ctrApply, CtrState.withIv, ctrStream_append]

/-- The header goes into omH alone, so it may come before or after a piece of ciphertext (rule R354). -/
theorem EaxCtx.header_decrypt (c : EaxCtx) (a x : Bytes) :
    (c.header a).decrypt x = ((c.decrypt x).1.header a, (c.decrypt x).2) := rfl

/-- Decryption absorbs its input before the transform, so the pieces of a ciphertext decrypt as the whole (rule R367). -/
theorem EaxCtx.decrypt_append (c : EaxCtx) (a b : Bytes) :
    c.decrypt (a ++ b) = (((c.decrypt a).1.decrypt b).1, (c.decrypt a).2 ++ ((c.decrypt a).1.decrypt b).2) := by
  rw [EaxCtx.decrypt, EaxCtx.absorb_append, EaxCtx.stream_append]
  rfl

/-- Closing the slot touches neither the transform nor what it yields (rules R46, R375). -/
theorem EaxCtx.stream_close (c : EaxCtx) (x : Bytes) :
    c.close.stream x = ((c.stream x).1.close, (c.stream x).2) := rfl

/-- The tag does not depend on the CTR state (rule R355). -/
theorem EaxCtx.tag_stream (c : EaxCtx) (x : Bytes) : (c.stream x).1.tag = c.tag := rfl

/-! ### Streaming decryption -/

@[simp] theorem headerOf_inl (a : Bytes) (ps : List (Bytes ⊕ Bytes)) : headerOf (.inl a :: ps) = a ++ headerOf ps := rfl

@[simp] theorem headerOf_inr (x : Bytes) (ps : List (Bytes ⊕ Bytes)) : headerOf (.inr x :: ps) = headerOf ps := rfl

@[simp] theorem cipherOf_inl (a : Bytes) (ps : List (Bytes ⊕ Bytes)) : cipherOf (.inl a :: ps) = cipherOf ps := rfl

@[simp] theorem cipherOf_inr (x : Bytes) (ps : List (Bytes ⊕ Bytes)) : cipherOf (.inr x :: ps) = x ++ cipherOf ps := rfl

/-- Pieces in any order are the whole header and then the decryption of the whole ciphertext (rule R354). -/
theorem EaxCtx.decryptPieces_eq (c : EaxCtx) (ps : List (Bytes ⊕ Bytes)) :
    c.decryptPieces ps = (c.header (headerOf ps)).decrypt (cipherOf ps) := by
  induction ps generalizing c with
  | nil => rfl
  | cons p ps ih =>
    cases p with
    | inl a => rw [EaxCtx.decryptPieces, ih, headerOf_inl, cipherOf_inl, EaxCtx.header_append]
    | inr x =>
      rw [EaxCtx.decryptPieces, ih, headerOf_inr, cipherOf_inr, EaxCtx.decrypt_append, EaxCtx.header_decrypt c]

/-- Settles O52: the pieces are one decryption of the whole strings, which is GENTAG's absorption and then the
transform that GETPT runs; that transform leaves the tag alone and commutes with the closing of the slot. -/
theorem eaxWorkflowsAgree : Obligations.EaxWorkflowsAgree := by
  intro c pieces gen r
  have hr : r = gen.stream (cipherOf pieces) := c.decryptPieces_eq pieces
  rw [hr, EaxCtx.stream_close]
  exact ⟨gen.tag_stream _, rfl, rfl⟩

/-! ### EAX_CREATE -/

/-- N is the CMAC of the tweak block 0 and the nonce (rules R351, R352). -/
theorem eaxNonceValue_eq_cmac (ks : KeySchedule) (nonce : Bytes) :
    eaxNonceValue ks nonce = cmac ks (zeros 15 ++ [0] ++ nonce) := by
  rw [cmac, omacUpdate_append]
  rfl

/-- Settles O49: every check of the rule passes, `Alloc` gives the lowest EMPTY slot, and `eaxInit`'s N is the CMAC. -/
theorem eaxCreateFillsAnEaxSlot : Obligations.EaxCreateFillsAnEaxSlot := by
  intro s h hkey hkeyBuffer hnonceBuffer hfree ks n
  have hn : eaxNonceValue ks (s.memRead s.a2 s.a3) = n := eaxNonceValue_eq_cmac ks _
  rw [← hn]
  exact exec_of_fill _ s h (.eax (eaxInit ks (s.memRead s.a2 s.a3))) hfree
    (createRule_of_lowestFree s h _ _ _ _ ((validKeyLen_iff _).mpr hkey)
      (List.forall_mem_cons.mpr ⟨hkeyBuffer, List.forall_mem_singleton.mpr hnonceBuffer⟩) hfree)

/-! ### The commands on an EAX slot -/

/-- A command that does not ask for phase OPEN accepts the handle of an EAX slot in any phase (rules R375, R439). -/
theorem State.checkHandle_of_eax_anyPhase (s : State) (h : Nat) (c : EaxCtx) (hslot : s.slot h = .eax c) :
    s.checkHandle h Slot.asEax .anyPhase = .ok c :=
  (s.checkHandle_ok h _ _ c rfl).mpr ⟨(Slot.asEax_eq_some _ c).mpr hslot, by simp⟩

/-- The end of a command that keeps an EAX context in its slot and writes one byte string (rules R436, R440). -/
theorem exec_of_eaxRecord (i : Instr) (s : State) (h a : Nat) (c c' : EaxCtx) (bs : Bytes) (hslot : s.slot h = .eax c)
    (hrule : ruleOf i s = .ok { slot := some (h, .eax c'), writes := [(a, bs)] }) :
    exec i s = .next { s.ended .ok 0 with
      slots := s.slots.set (h - 1) (.eax c'), mem := Memory.writeBytes s.mem a bs } :=
  exec_of_record i s h _ _ (by rw [hslot]; nofun) hrule

/-- Settles O50: both checks of each rule pass, and it records the transformed context and queues the output. -/
theorem eaxStreamsTransformInPlace : Obligations.EaxStreamsTransformInPlace := by
  refine fun s h c hslot hacc => ⟨fun hphase => ?_, fun hphase => ?_, ?_⟩
  · exact exec_of_eaxRecord _ s h _ c _ _ hslot
      (handleRule_of_accepts _ (s.checkHandle_of_eax h c _ hslot hphase) hacc)
  · exact exec_of_eaxRecord _ s h _ c _ _ hslot
      (handleRule_of_accepts _ (s.checkHandle_of_eax h c _ hslot hphase) hacc)
  · exact exec_of_eaxRecord _ s h _ c _ _ hslot
      (handleRule_of_accepts _ (s.checkHandle_of_eax_anyPhase h c hslot) hacc)

/-- The checks of the two tag commands, handle, tag length and buffers, pass on an OPEN slot (rules R369, R372, R437). -/
theorem eaxTagRule_of_accepts (s : State) (h t : Nat) (c : EaxCtx) (bs : List Buffer) (f : EaxCtx → CommandResult)
    (hslot : s.slot h = .eax c) (hphase : c.phase = .opened) (ht : t ≤ 16) (hbs : ∀ b ∈ bs, s.accepts b) :
    (do let c ← s.checkHandle h Slot.asEax .mustBeOpen; require (t ≤ 16) .invalidArg; s.checkBuffers bs; f c) = f c :=
  bind_eq_of_ok (s.checkHandle_of_eax h c _ hslot hphase)
    (require_bind_eq (decide_eq_true ht) (bind_eq_of_ok ((s.checkBuffers_ok bs).mpr hbs) rfl))

/-- Settles O51: every check of each rule passes, and it records the closed context, for GENTAG the one that has absorbed
header and ciphertext, and queues that context's tag. -/
theorem eaxTagsCloseTheSlot : Obligations.EaxTagsCloseTheSlot := by
  refine ⟨fun s h t c hslot hphase ht hacc => ?_, fun s h t c hslot hphase ht hdata hheader htag => ?_⟩
  · exact exec_of_eaxRecord _ s h _ c _ _ hslot
      (eaxTagRule_of_accepts s h t c _ _ hslot hphase ht (List.forall_mem_singleton.mpr hacc))
  · have hbuffers : ∀ b ∈ [⟨s.a0, s.a1⟩, ⟨s.a2, s.a3⟩, ⟨s.a4, t⟩], s.accepts b := by
      simp only [List.forall_mem_cons]
      exact ⟨hdata, hheader, htag, nofun⟩
    exact exec_of_eaxRecord _ s h _ c _ _ hslot
      (eaxTagRule_of_accepts s h t c _ _ hslot hphase ht hbuffers)

end Sys2Proof.Machine
end

/-! PROOFS. Key Wrap (rules R390 to R405): the semiblocks of a byte string, unwrapping as the inverse of wrapping, the wrap
steps of rule R392, and the ends of KW_WRAP and KW_UNWRAP. -/
section
namespace Sys2Proof.Machine

/-! ### The semiblocks of a byte string -/

/-- The bytes of the number of a byte string are the string (rule R14). -/
theorem beBytes_intBE (b : Bytes) (n : Nat) (hn : b.length = n) : beBytes n (intBE b) = b := by
  subst hn
  refine List.ext_getElem (beBytes_length _ _) fun i _ hi => ?_
  simpa [beBytes] using intBE_digit b i hi

theorem semiblockOfBytes_semiblockBytes_append (r : Semiblock) (b : Bytes) :
    semiblockOfBytes (semiblockBytes r ++ b) = r := by
  have hlt : r.toNat < 256 ^ 8 := r.isLt
  rw [semiblockOfBytes, List.take_left' (semiblockBytes_length r), semiblockBytes, intBE_beBytes, Nat.mod_eq_of_lt hlt,
    BitVec.ofNat_toNat, BitVec.setWidth_eq]

theorem semiblockBytes_semiblockOfBytes (b : Bytes) (h : 8 ≤ b.length) : semiblockBytes (semiblockOfBytes b) = b.take 8 := by
  have hlen : (b.take 8).length = 8 := by rw [List.length_take]; omega
  have hlt : intBE (b.take 8) < 2 ^ 64 := by simpa [hlen] using intBE_lt (b.take 8)
  rw [semiblockBytes, semiblockOfBytes, BitVec.toNat_ofNat, Nat.mod_eq_of_lt hlt, beBytes_intBE _ 8 hlen]

theorem bytesOfSemiblocks_cons (r : Semiblock) (rs : List Semiblock) :
    bytesOfSemiblocks (r :: rs) = semiblockBytes r ++ bytesOfSemiblocks rs := rfl

theorem semiblocksFrom_bytesOfSemiblocks (rs : List Semiblock) :
    semiblocksFrom rs.length (bytesOfSemiblocks rs) = rs := by
  induction rs with
  | nil => rfl
  | cons r rs ih =>
    rw [List.length_cons, bytesOfSemiblocks_cons, semiblocksFrom, semiblockOfBytes_semiblockBytes_append,
      List.drop_left' (semiblockBytes_length r), ih]

theorem bytesOfSemiblocks_semiblocksFrom (n : Nat) (b : Bytes) (h : b.length = 8 * n) :
    bytesOfSemiblocks (semiblocksFrom n b) = b := by
  induction n generalizing b with
  | zero => exact (List.eq_nil_of_length_eq_zero h).symm
  | succ n ih =>
    rw [semiblocksFrom, bytesOfSemiblocks_cons, semiblockBytes_semiblockOfBytes b (by omega),
      ih _ (by rw [List.length_drop]; omega), List.take_append_drop]

/-- A byte string in whole semiblocks is the bytes of its semiblocks (rule R391). -/
theorem exists_semiblocks (b : Bytes) (h : b.length % 8 = 0) : ∃ rs, b = bytesOfSemiblocks rs :=
  ⟨semiblocksFrom (b.length / 8) b, (bytesOfSemiblocks_semiblocksFrom _ b (by omega)).symm⟩

theorem semiblocksFrom_getD (n i : Nat) (b : Bytes) (hi : i < n) :
    (semiblocksFrom n b).getD i 0 = semiblockOfBytes (b.drop (8 * i)) := by
  induction n generalizing i b with
  | zero => omega
  | succ n ih =>
    cases i with
    | zero => rfl
    | succ i =>
      rw [semiblocksFrom, List.getD_cons_succ, ih i _ (by omega), List.drop_drop]
      congr 2
      omega

/-- The bytes of semiblocks, by their numbers. -/
theorem bytesOfSemiblocks_eq_flatMap_range (rs : List Semiblock) :
    bytesOfSemiblocks rs = (List.range rs.length).flatMap fun i => semiblockBytes (rs.getD i 0) := by
  induction rs with
  | nil => rfl
  | cons r rs ih =>
    rw [List.length_cons, List.range_succ_eq_map, List.flatMap_cons, List.flatMap_map, bytesOfSemiblocks_cons, ih]
    rfl

/-! ### Unwrapping takes back wrapping -/

theorem kwXorCounter_kwXorCounter (a : Semiblock) (t : Nat) : kwXorCounter (kwXorCounter a t) t = a := by
  rw [kwXorCounter, kwXorCounter, BitVec.xor_assoc, BitVec.xor_self, BitVec.xor_zero]

/-- A block is its upper half and its lower half (rule R391). -/
theorem msb64_append_lsb64 (b : Block) : msb64 b ++ lsb64 b = b :=
  BitVec.extractLsb'_append_extractLsb'_eq_extractLsb' (by decide) |>.trans (by simp)

theorem msb64_append (a r : Semiblock) : msb64 (a ++ r) = a := BitVec.extractLsb'_append_eq_left

theorem lsb64_append (a r : Semiblock) : lsb64 (a ++ r) = r := BitVec.extractLsb'_append_eq_right

theorem kwUnwrapPass_kwWrapPass (ks : KeySchedule) (t : Nat) (a : Semiblock) (rs : List Semiblock) :
    kwUnwrapPass ks t (kwWrapPass ks t a rs).1 (kwWrapPass ks t a rs).2 = (a, rs) := by
  induction rs generalizing t a with
  | nil => rfl
  | cons r rs ih =>
    simp only [kwWrapPass, kwUnwrapPass, ih, kwXorCounter_kwXorCounter, msb64_append_lsb64, aesD_aesE, msb64_append,
      lsb64_append]

theorem kwWrapPass_kwUnwrapPass (ks : KeySchedule) (t : Nat) (a : Semiblock) (rs : List Semiblock) :
    kwWrapPass ks t (kwUnwrapPass ks t a rs).1 (kwUnwrapPass ks t a rs).2 = (a, rs) := by
  induction rs generalizing t a with
  | nil => rfl
  | cons r rs ih =>
    simp only [kwWrapPass, kwUnwrapPass, msb64_append_lsb64, aesE_aesD, msb64_append, lsb64_append,
      kwXorCounter_kwXorCounter, ih]

/-- Rounds in order, then their inverses in the opposite order. -/
theorem foldr_foldl_cancel {α β : Type} (f : α → β → α) (g : β → α → α) (h : ∀ x j, g j (f x j) = x) (js : List β)
    (x : α) : js.foldr g (js.foldl f x) = x := by
  induction js generalizing x with
  | nil => rfl
  | cons j js ih => rw [List.foldl_cons, List.foldr_cons, ih, h]

/-- The inverses of rounds in the opposite order, then the rounds. -/
theorem foldl_foldr_cancel {α β : Type} (f : α → β → α) (g : β → α → α) (h : ∀ x j, f (g j x) j = x) (js : List β)
    (x : α) : js.foldl f (js.foldr g x) = x := by
  induction js with
  | nil => rfl
  | cons j js ih => rw [List.foldr_cons, List.foldl_cons, h, ih]

@[simp] theorem kwWrapLoop_length (ks : KeySchedule) (a : Semiblock) (rs : List Semiblock) :
    (kwWrapLoop ks a rs).2.length = rs.length := by
  simp [kwWrapLoop, List.range_succ]

@[simp] theorem kwUnwrapLoop_length (ks : KeySchedule) (a : Semiblock) (rs : List Semiblock) :
    (kwUnwrapLoop ks a rs).2.length = rs.length := by
  simp [kwUnwrapLoop, List.range_succ]

theorem kwUnwrapLoop_kwWrapLoop (ks : KeySchedule) (a : Semiblock) (rs : List Semiblock) :
    kwUnwrapLoop ks (kwWrapLoop ks a rs).1 (kwWrapLoop ks a rs).2 = (a, rs) := by
  rw [kwUnwrapLoop, kwWrapLoop_length]
  exact foldr_foldl_cancel _ _ (fun st j => kwUnwrapPass_kwWrapPass ks _ st.1 st.2) _ _

theorem kwWrapLoop_kwUnwrapLoop (ks : KeySchedule) (a : Semiblock) (rs : List Semiblock) :
    kwWrapLoop ks (kwUnwrapLoop ks a rs).1 (kwUnwrapLoop ks a rs).2 = (a, rs) := by
  rw [kwWrapLoop, kwUnwrapLoop_length]
  exact foldl_foldr_cancel _ _ (fun st j => kwWrapPass_kwUnwrapPass ks _ st.1 st.2) _ _

/-- Wrapping on the semiblocks of the key data (rule R392). -/
theorem kwWrap_bytesOfSemiblocks (ks : KeySchedule) (rs : List Semiblock) :
    kwWrap ks (bytesOfSemiblocks rs) =
      bytesOfSemiblocks ((kwWrapLoop ks kwConstant rs).1 :: (kwWrapLoop ks kwConstant rs).2) := by
  rw [kwWrap, bytesOfSemiblocks_length, Nat.mul_div_cancel_left _ (by decide), semiblocksFrom_bytesOfSemiblocks]

/-- Unwrapping on the semiblocks of the wrapped data (rule R397). -/
theorem kwUnwrap_bytesOfSemiblocks (ks : KeySchedule) (a : Semiblock) (rs : List Semiblock) :
    kwUnwrap ks (bytesOfSemiblocks (a :: rs)) =
      (decide ((kwUnwrapLoop ks a rs).1 = kwConstant), bytesOfSemiblocks (kwUnwrapLoop ks a rs).2) := by
  rw [kwUnwrap, bytesOfSemiblocks_length, Nat.mul_div_cancel_left _ (by decide), bytesOfSemiblocks_cons,
    semiblockOfBytes_semiblockBytes_append, List.drop_left' (semiblockBytes_length a), List.length_cons,
    Nat.add_sub_cancel, semiblocksFrom_bytesOfSemiblocks]

/-- Settles O55: on semiblocks both loops are inverse, pass by pass, because E and D are (`aesD_aesE`, `aesE_aesD`). -/
theorem kwUnwrapUndoesWrap : Obligations.KwUnwrapUndoesWrap := by
  refine ⟨fun ks x hmod _ => ?_, fun ks ct hmod hlen hverified => ?_⟩
  · obtain ⟨rs, rfl⟩ := exists_semiblocks x hmod
    rw [kwWrap_bytesOfSemiblocks, kwUnwrap_bytesOfSemiblocks, kwUnwrapLoop_kwWrapLoop, decide_eq_true rfl]
  · obtain ⟨rs, rfl⟩ := exists_semiblocks ct hmod
    cases rs with
    | nil => cases hlen
    | cons a rs =>
      rw [kwUnwrap_bytesOfSemiblocks] at hverified ⊢
      rw [kwWrap_bytesOfSemiblocks, ← of_decide_eq_true hverified, kwWrapLoop_kwUnwrapLoop]

/-! ### The wrap steps -/

section
variable (ks : KeySchedule)

/-- One step of a pass: it handles semiblock i with the counter t + i (rule R392). -/
theorem kwWrapPass_step (t : Nat) (a : Semiblock) (rs : List Semiblock) (i : Nat) (hi : i < rs.length) :
    let b := aesE ks ((kwWrapPass ks t a (rs.take i)).1 ++ rs.getD i 0)
    (kwWrapPass ks t a (rs.take (i + 1))).1 = kwXorCounter (msb64 b) (t + i) ∧
      (kwWrapPass ks t a rs).2.getD i 0 = lsb64 b := by
  induction rs generalizing t a i with
  | nil => cases hi
  | cons r rs ih =>
    cases i with
    | zero => exact ⟨rfl, rfl⟩
    | succ i =>
      have h := ih (t + 1) (kwXorCounter (msb64 (aesE ks (a ++ r))) t) i (Nat.lt_of_succ_lt_succ hi)
      rwa [Nat.add_right_comm t 1 i] at h

variable (rs : List Semiblock)

/-- A and the semiblocks R after j rounds of wrap (rule R392). -/
def kwRounds (j : Nat) : Semiblock × List Semiblock :=
  (List.range j).foldl (fun st j => kwWrapPass ks (rs.length * j + 1) st.1 st.2) (kwConstant, rs)

theorem kwRounds_six : kwRounds ks rs 6 = kwWrapLoop ks kwConstant rs := rfl

theorem kwRounds_succ (j : Nat) :
    kwRounds ks rs (j + 1) = kwWrapPass ks (rs.length * j + 1) (kwRounds ks rs j).1 (kwRounds ks rs j).2 := by
  rw [kwRounds, List.range_succ, List.foldl_append]
  rfl

@[simp] theorem kwRounds_length (j : Nat) : (kwRounds ks rs j).2.length = rs.length := by
  induction j with
  | zero => rfl
  | succ j ih => rw [kwRounds_succ, kwWrapPass_length, ih]

/-- A after i steps of round j (rule R392). -/
def kwAfterSteps (j i : Nat) : Semiblock :=
  (kwWrapPass ks (rs.length * j + 1) (kwRounds ks rs j).1 ((kwRounds ks rs j).2.take i)).1

/-- The whole of round j leaves the A that round j + 1 starts from. -/
theorem kwAfterSteps_length (j : Nat) : kwAfterSteps ks rs j rs.length = kwAfterSteps ks rs (j + 1) 0 := by
  rw [kwAfterSteps, List.take_of_length_le (by simp), ← kwRounds_succ]
  rfl

/-- Step i of round j (rule R392). -/
theorem kwAfterSteps_succ (j i : Nat) (hi : i < rs.length) :
    let b := aesE ks (kwAfterSteps ks rs j i ++ (kwRounds ks rs j).2.getD i 0)
    kwAfterSteps ks rs j (i + 1) = kwXorCounter (msb64 b) (rs.length * j + i + 1) ∧
      (kwRounds ks rs (j + 1)).2.getD i 0 = lsb64 b := by
  rw [kwRounds_succ, Nat.add_right_comm]
  exact kwWrapPass_step ks _ _ _ i (by simpa using hi)

/-- A after t steps in all (rule R392). -/
def kwAccumulator (t : Nat) : Semiblock := kwAfterSteps ks rs (t / rs.length) (t % rs.length)

/-- Step n·j + i in all is step i of round j, for i up to n. -/
theorem kwAccumulator_eq (hpos : 0 < rs.length) (j i : Nat) (hi : i ≤ rs.length) :
    kwAccumulator ks rs (rs.length * j + i) = kwAfterSteps ks rs j i := by
  rcases Nat.lt_or_eq_of_le hi with hlt | rfl
  · rw [kwAccumulator, Nat.mul_add_div hpos, Nat.mul_add_mod, Nat.div_eq_of_lt hlt, Nat.mod_eq_of_lt hlt, Nat.add_zero]
  · rw [kwAccumulator, kwAfterSteps_length, ← Nat.mul_succ, Nat.mul_div_cancel_left _ hpos, Nat.mul_mod_right]

/-- Wrapping is the 6·n steps of rule R392, for every counter that agrees with the one-byte counter on them (rule R394). -/
theorem kwSteps_kwWrap (counter : Nat → Semiblock) (hpos : 0 < rs.length)
    (hcounter : ∀ t ≤ 6 * rs.length, counter t = BitVec.ofNat 64 (t % 256)) :
    kwSteps counter ks (bytesOfSemiblocks rs) (kwWrap ks (bytesOfSemiblocks rs)) := by
  have hn : (bytesOfSemiblocks rs).length / 8 = rs.length := by
    rw [bytesOfSemiblocks_length, Nat.mul_div_cancel_left _ (by decide)]
  have heq := kwAccumulator_eq ks rs hpos
  rw [kwSteps, hn]
  refine ⟨kwAccumulator ks rs, fun j i => (kwRounds ks rs j).2.getD i 0, heq 0 0 hpos.le, fun i hi => ?_,
    fun j hj i hi => ?_, ?_⟩
  · rw [← semiblocksFrom_getD rs.length i _ hi, semiblocksFrom_bytesOfSemiblocks]
    rfl
  · have ht : rs.length * j + i + 1 ≤ 6 * rs.length := by nlinarith
    rw [hcounter _ ht, heq j i hi.le, Nat.add_assoc, heq j (i + 1) hi, ← Nat.add_assoc]
    exact kwAfterSteps_succ ks rs j i hi
  · have hlast : kwAccumulator ks rs (6 * rs.length) = (kwRounds ks rs 6).1 := by
      rw [Nat.mul_comm]
      exact heq 6 0 hpos.le
    rw [kwWrap_bytesOfSemiblocks, bytesOfSemiblocks_cons, ← kwRounds_six, hlast, bytesOfSemiblocks_eq_flatMap_range,
      kwRounds_length]

end

/-! ### KW_WRAP and KW_UNWRAP -/

/-- The checks of both commands, length, key length and buffers, pass (rules R399, R437). -/
theorem kwRule_of_accepts {s : State} {lengthOk : Bool} {kek src dst : Buffer} {r : CommandResult}
    (hlen : lengthOk = true) (hkey : aesKeyLen s.a1) (hkek : s.accepts kek) (hsrc : s.accepts src)
    (hdst : s.accepts dst) :
    (do require lengthOk .badLength; require (validKeyLen s.a1) .invalidKeyLen; s.checkBuffers [kek, src, dst]; r) = r := by
  have hbuffers : ∀ b ∈ [kek, src, dst], s.accepts b := by
    simp only [List.forall_mem_cons]
    exact ⟨hkek, hsrc, hdst, nofun⟩
  exact require_bind_eq hlen (require_bind_eq ((validKeyLen_iff _).mpr hkey)
    (bind_eq_of_ok ((s.checkBuffers_ok _).mpr hbuffers) rfl))

/-- Settles O53: every check passes and the rule queues the wrapped data; up to 42 semiblocks no step number reaches 256, so
the 64-bit counter gives what the one-byte counter gives. -/
theorem kwWrapWritesTheWrappedKey : Obligations.KwWrapWritesTheWrappedKey := by
  intro s hmod hlen hkey hkek hsrc hdst ct
  have hct : ct.length = s.a3 + 8 := by rw [kwWrap_length _ _ (by simpa using hmod), State.memRead_length]
  have hrule : ruleOf .kwWrap s = .ok { writes := [(s.a4, ct)] } :=
    kwRule_of_accepts (decide_eq_true ⟨hmod, hlen⟩) hkey hkek hsrc hdst
  obtain ⟨rs, hrs⟩ := exists_semiblocks (s.memRead s.a2 s.a3) (by simpa using hmod)
  have hn : 8 * rs.length = s.a3 := by rw [← bytesOfSemiblocks_length, ← hrs, State.memRead_length]
  have hsteps := fun counter => kwSteps_kwWrap (expandKey (s.memRead s.a0 s.a1)) rs counter (by omega)
  rw [← hrs] at hsteps
  refine ⟨hct, ?_, hsteps _ fun _ _ => rfl, fun hmax => hsteps _ fun t ht => ?_⟩
  · rw [exec_of_writes _ s _ hrule, Memory.commit_one]
  · rw [Nat.mod_eq_of_lt (by omega)]

/-- Settles O54: every check passes, so the rule ends by whether the constant is recovered. -/
theorem kwUnwrapWritesOnlyAnIntactKey : Obligations.KwUnwrapWritesOnlyAnIntactKey := by
  intro s hmod hlen hkey hkek hsrc hdst r
  have hrule : ruleOf .kwUnwrap s = (do require r.1 .authFail; .ok { writes := [(s.a4, r.2)] }) :=
    kwRule_of_accepts (decide_eq_true ⟨hmod, hlen⟩) hkey hkek hsrc hdst
  refine ⟨fun hintact => ⟨?_, ?_⟩, fun hfailed => exec_of_error _ s _ (hrule.trans (require_bind_error hfailed))⟩
  · rw [kwUnwrap_length _ _ (by simpa using hmod), State.memRead_length]
  · rw [exec_of_writes _ s _ (hrule.trans (require_bind_eq hintact rfl)), Memory.commit_one]

end Sys2Proof.Machine
end

/-! PROOFS. CT_COMPARE (rules R421, R422), the status codes (rules R431, R438, R439, R445) and the host port at its faults, at
reset and while it polls (rules R449, R470, R478, R479). -/
section
namespace Sys2Proof.Machine

/-! ### CT_COMPARE -/

/-- Settles O43: CtEqual by `ctEqual_iff_take`, the command by its buffer check and then by the comparison. -/
theorem ctCompareReportsEquality : Obligations.CtCompareReportsEquality := by
  refine ⟨ctEqual_iff_take, fun s c hc => exec_of_error _ s c (bind_eq_of_error hc), fun s ha hb => ?_⟩
  have hchecks := (s.checkBuffers_ok [⟨s.a0, s.a2⟩, ⟨s.a1, s.a2⟩]).mpr
    (List.forall_mem_cons.mpr ⟨ha, List.forall_mem_singleton.mpr hb⟩)
  have hequal := ctEqual_iff_eq _ _ s.a2 (s.memRead_length s.a0 s.a2) (s.memRead_length s.a1 s.a2)
  refine ⟨fun heq => exec_of_ok _ s {} ?_, fun hne => exec_of_error _ s _ ?_⟩
  · exact bind_eq_of_ok hchecks (require_bind_eq (hequal.mpr heq) rfl)
  · exact bind_eq_of_ok hchecks (require_bind_error (Bool.eq_false_iff.mpr fun h => hne (hequal.mp h)))

/-! ### The status codes of a command -/

/-- Settles O16: completion gives OK, so only a raised code is left. -/
theorem failedCommandChangesNothing : Obligations.FailedCommandChangesNothing := by
  intro i s t h hcode
  rcases exec_cases i s t h with ⟨c, rfl, -⟩ | ⟨e, rfl, -⟩
  · rfl
  · exact absurd (s.complete_code e) hcode

/-- Settles O17: a raised code is one the command may report (`exec_cases`), and OK is reported by every command. -/
theorem commandsReportOnlyTheirCodes : Obligations.CommandsReportOnlyTheirCodes := by
  intro i s t h
  rcases exec_cases i s t h with ⟨c, rfl, -, hmay⟩ | ⟨e, rfl, -⟩
  · exact hmay
  · rfl

/-- Two states end alike: the same code, RESULT and slots, and the same byte at every address below MEM_BYTES (rule R445). -/
def EndsAlike (memBytes : Nat) (t₁ t₂ : State) : Prop :=
  t₂.code = t₁.code ∧ t₂.result = t₁.result ∧ t₂.slots = t₁.slots ∧ ∀ a < memBytes, t₂.readByte a = t₁.readByte a

/-- What a rule gives ends two states alike that agree on the slots and on what the data memory reads (rules R436, R445). -/
theorem State.finish_endsAlike (s₁ s₂ : State) (n : Nat) (r : CommandResult) (hslots : s₁.slots = s₂.slots)
    (hread : ∀ a < n, s₁.readByte a = s₂.readByte a) : EndsAlike n (s₁.finish r) (s₂.finish r) := by
  cases r with
  | error c => exact ⟨rfl, rfl, hslots.symm, fun a ha => (hread a ha).symm⟩
  | ok e =>
    refine ⟨rfl, rfl, congrArg e.slotsAfter hslots.symm, fun a ha => ?_⟩
    exact Memory.find_commit_congr e.writes s₂.mem s₁.mem (Config.ramDraw s₂.epoch) (Config.ramDraw s₁.epoch) a
      (hread a ha).symm

/-- Settles O19: a rule gives the same in both states (`ruleOf_congr`), and a word that is no command raises one code. -/
theorem outcomeDependsOnlyOnTheInputs : Obligations.OutcomeDependsOnlyOnTheInputs := by
  intro s₁ s₂ t₁ hargs hslots hbytes hread
  have halike := fun r => s₁.finish_endsAlike s₂ s₁.memBytes r hslots hread
  have hexec : ∀ i, exec i s₁ = .next t₁ → ∃ t₂, exec i s₂ = .next t₂ ∧ EndsAlike s₁.memBytes t₁ t₂ := fun i h => by
    rw [(exec_next i s₁ t₁).mp h, ruleOf_congr i s₁ s₂ hargs hslots hbytes hread]
    exact ⟨_, exec_eq_runRule i s₂, halike _⟩
  refine ⟨hexec, fun hcmd h => ?_⟩
  cases hd : decode s₁.cmd with
  | ok i =>
    rw [engineStep_of_decode s₁ i hd] at h
    rw [engineStep_of_decode s₂ i (hcmd ▸ hd)]
    exact hexec i h
  | error e =>
    rw [engineStep_of_decode_error s₁ e hd] at h
    cases h
    exact ⟨_, engineStep_of_decode_error s₂ e (hcmd ▸ hd), halike (.error .illegalCmd)⟩

/-! ### The handle check of a command -/

/-- The rule of the command starts with `CheckHandle` for the kind the command needs, and with phase OPEN where the command
needs it (rules R437 step 2, R439). -/
def StartsWithCheckHandle (i : Instr) (s : State) (h : Nat) : Prop :=
  ∃ (α : Type) (kind : Slot → Option α) (req : PhaseReq) (f : α → CommandResult),
    ruleOf i s = (s.checkHandle h kind req >>= f) ∧ (∀ v, i.kindOk v = (kind v).isSome) ∧
      (i.needsOpen = true → req = .mustBeOpen)

theorem startsWithCheckHandle (i : Instr) (s : State) (h : Nat) (hh : i.handle = some h) (hd : i.isDestroy = false) :
    StartsWithCheckHandle i s h := by
  cases i <;> cases hh
  case ctxDestroy => cases hd
  case aesBlock | blockMode => exact ⟨_, Slot.asCipher, .anyPhase, _, rfl, by rintro (_ | _) <;> rfl, nofun⟩
  case ctrApply => exact ⟨_, Slot.asCtr, .anyPhase, _, rfl, by rintro (_ | _) <;> rfl, nofun⟩
  case cmacUpdate | cmacFinal => exact ⟨_, Slot.asCmac, .mustBeOpen, _, rfl, by rintro (_ | _) <;> rfl, fun _ => rfl⟩
  case xcbcUpdate | xcbcFinal => exact ⟨_, Slot.asXcbc, .mustBeOpen, _, rfl, by rintro (_ | _) <;> rfl, fun _ => rfl⟩
  case eaxGetpt => exact ⟨_, Slot.asEax, .anyPhase, _, rfl, by rintro (_ | _) <;> rfl, nofun⟩
  all_goals exact ⟨_, Slot.asEax, .mustBeOpen, _, rfl, by rintro (_ | _) <;> rfl, fun _ => rfl⟩

/-- No command takes an EMPTY slot. -/
theorem Instr.kindOk_empty (i : Instr) : i.kindOk .empty = false := by cases i <;> rfl

section
variable {α : Type} (s : State) (h : Nat) (kind : Slot → Option α) (req : PhaseReq)

theorem State.checkHandle_of_empty (hpos : 1 ≤ h) (hle : h ≤ s.nslot) (hempty : s.slot h = .empty) :
    s.checkHandle h kind req = .error .nullRef := by
  rw [State.checkHandle, if_neg (by omega), if_neg (by omega), if_pos hempty]

theorem State.checkHandle_of_kind_none (hne : s.slot h ≠ .empty) (hkind : kind (s.slot h) = none) :
    s.checkHandle h kind req = .error .badState := by
  obtain ⟨hpos, hle⟩ := s.slot_range h hne
  rw [State.checkHandle, if_neg (by omega), if_neg (by omega), if_neg hne, hkind]

theorem State.checkHandle_of_finalized (c : α) (hkind : kind (s.slot h) = some c)
    (hfinal : (s.slot h).phase = .finalized) : s.checkHandle h kind .mustBeOpen = .error .badState := by
  have hne := Slot.ne_empty_of_finalized _ hfinal
  obtain ⟨hpos, hle⟩ := s.slot_range h hne
  rw [State.checkHandle, if_neg (by omega), if_neg (by omega), if_neg hne, hkind]
  exact if_pos ⟨rfl, hfinal⟩

end

/-- Settles O23: the rule starts with `CheckHandle` (`startsWithCheckHandle`), whose tests come in this order. -/
theorem handleChecksFollowTheirOrder : Obligations.HandleChecksFollowTheirOrder := by
  intro i s h hh hd
  obtain ⟨α, kind, req, f, hrule, hkind, hreq⟩ := startsWithCheckHandle i s h hh hd
  have hraise : ∀ c, s.checkHandle h kind req = .error c → exec i s = .next (s.ended c 0) := fun c hc =>
    exec_of_error i s c (hrule.trans (bind_eq_of_error hc))
  refine ⟨fun h0 => hraise _ ?_, fun hgt => hraise _ ?_, fun hpos hle hempty => hraise _ ?_, fun hne hno => hraise _ ?_,
    fun hok hopen hfinal => hraise _ ?_⟩
  · rw [State.checkHandle, if_pos h0]
  · rw [State.checkHandle, if_neg (by omega), if_pos hgt]
  · exact s.checkHandle_of_empty h kind req hpos hle hempty
  · rw [hkind, Option.isSome_eq_false_iff, Option.isNone_iff_eq_none] at hno
    exact s.checkHandle_of_kind_none h kind req hne hno
  · rw [hkind, Option.isSome_iff_exists] at hok
    obtain ⟨c, hc⟩ := hok
    rw [hreq hopen]
    exact s.checkHandle_of_finalized h kind c hc hfinal

/-! ### Host faults -/

/-- The engine never stops the machine (rule R448). -/
theorem engineStep_next (s : State) : ∃ t, engineStep s = .next t ∧ t.busy = false := by
  cases hd : decode s.cmd with
  | ok i =>
    obtain ⟨t, ht, hidle, -⟩ := everyCommandEndsAndKeepsTheRegisters i s
    exact ⟨t, (engineStep_of_decode s i hd).trans ht, hidle⟩
  | error e => exact ⟨_, engineStep_of_decode_error s e hd, rfl⟩

theorem orFault_fault (f : Option Fault) (s : State) : (∃ r, orFault f s = .fault r) ↔ f ≠ none := by
  cases f <;> simp [orFault]

/-- A fault that one test names is given where the test holds, else by the tests after it. -/
theorem ite_some_ne_none (p : Prop) [Decidable p] (r : Fault) (f : Option Fault) :
    (if p then some r else f) ≠ none ↔ p ∨ f ≠ none := by
  split <;> simp [*]

theorem not_registerFormOk_iff (width : AccessWidth) (offset : Byte) :
    (!registerFormOk width offset) = true ↔ ¬ alignedWord width offset := by
  rw [Bool.not_eq_true', registerFormOk, decide_eq_false_iff_not]

/-- The host faults are the forbidden actions, kind by kind (rules R80, R84, R449, R478). -/
theorem hostAction_fault_iff (a : HostAction) (s : State) : (∃ f, hostAction a s = .fault f) ↔ a.forbidden s := by
  have hmem : ∀ addr, memFault s addr ≠ none ↔ s.busy = true ∨ s.memBytes ≤ addr := fun addr => by
    rw [memFault, ite_some_ne_none, ite_some_ne_none, ne_self_iff_false, or_false]
  cases a with
  | memWrite addr v => exact (orFault_fault _ _).trans (hmem _)
  | memRead addr => exact (orFault_fault _ _).trans (hmem _)
  | regWrite width offset v =>
    refine (orFault_fault _ _).trans ?_
    rw [regWriteFault, ite_some_ne_none, ite_some_ne_none, ne_self_iff_false, or_false, not_registerFormOk_iff,
      HostAction.forbidden]
  | regRead width offset =>
    refine (orFault_fault _ _).trans ?_
    rw [regReadFault, ite_some_ne_none, ite_some_ne_none, ne_self_iff_false, or_false, not_registerFormOk_iff,
      HostAction.forbidden, statusOffset]
  | wait => cases hb : s.busy <;> simp [hostAction, hb, HostAction.forbidden]
  | reset => simp [hostAction, HostAction.forbidden]

/-- What is forbidden depends on BUSY and MEM_BYTES alone. -/
theorem HostAction.forbidden_congr (a : HostAction) (s t : State) (hbusy : t.busy = s.busy)
    (hbytes : t.memBytes = s.memBytes) : a.forbidden t ↔ a.forbidden s := by
  cases a <;> simp only [HostAction.forbidden, hbusy, hbytes]

/-- Settles O7: the engine never faults, and a host action does exactly when it is forbidden (`hostAction_fault_iff`). -/
theorem hostFaultsAreExactlyTheForbiddenActions : Obligations.HostFaultsAreExactlyTheForbiddenActions := by
  intro s
  cases hmove : s.nextMover with
  | engine =>
    obtain ⟨t, ht, -⟩ := engineStep_next s.useTurn
    rw [step_of_engine s hmove, ht]
    simp
  | host =>
    rw [step_of_host s hmove]
    cases hhost : s.host with
    | nil => simp [hostStep, hhost]
    | cons a rest =>
      rw [hostStep_cons s.useTurn a rest (by rw [State.useTurn_host, hhost]), hostAction_fault_iff,
        a.forbidden_congr s { s.useTurn with host := rest } s.useTurn_busy s.useTurn_memBytes]
      simp

/-! ### A host that polls -/

/-- A host that moves while BUSY = 1 has a turn and an action (rule R31). -/
theorem State.turns_of_host (s : State) (hbusy : s.busy = true) (hmove : s.nextMover = .host) :
    (∃ ts, s.turns = .host :: ts) ∧ ∃ a rest, s.host = a :: rest := by
  rw [State.nextMover, hbusy] at hmove
  cases hturns : s.turns with
  | nil => rw [hturns] at hmove; cases hmove
  | cons agent ts =>
    cases agent with
    | engine => rw [hturns] at hmove; cases hmove
    | host =>
      cases hhost : s.host with
      | nil => rw [hturns, hhost] at hmove; cases hmove
      | cons a rest => exact ⟨⟨ts, rfl⟩, a, rest, rfl⟩

/-- A poll while BUSY = 1 changes neither BUSY nor the turns, and the host has no new action after it (rules R111, R478). -/
theorem hostAction_of_polls (a : HostAction) (s : State) (hbusy : s.busy = true) (ha : a.polls) :
    ∃ t, hostAction a s = .next t ∧ t.busy = true ∧ t.turns = s.turns ∧ ∀ b ∈ t.host, b ∈ a :: s.host := by
  rcases ha with rfl | rfl
  · exact ⟨_, if_pos hbusy, hbusy, rfl, fun _ => id⟩
  · exact ⟨_, (orFault_next _ _ _).mpr ⟨regReadFault_status s, rfl⟩, hbusy, rfl, fun _ => List.mem_cons_of_mem _⟩

/-- A step while BUSY = 1 and the host only polls ends the command, or uses a turn of the host and leaves it polling. -/
theorem step_of_polls (s : State) (hbusy : s.busy = true) (hpolls : ∀ a ∈ s.host, a.polls) :
    ∃ t, step s = .next t ∧
      (t.busy = false ∨ t.busy = true ∧ (∀ a ∈ t.host, a.polls) ∧ s.turns = .host :: t.turns) := by
  cases hmove : s.nextMover with
  | engine =>
    obtain ⟨t, ht, hidle⟩ := engineStep_next s.useTurn
    exact ⟨t, (step_of_engine s hmove).trans ht, .inl hidle⟩
  | host =>
    obtain ⟨⟨ts, hturns⟩, a, rest, hhost⟩ := s.turns_of_host hbusy hmove
    obtain ⟨t, ht, hbusy', hturns', hmem⟩ := hostAction_of_polls a { s.useTurn with host := rest }
      (s.useTurn_busy.trans hbusy) (hpolls a (by simp [hhost]))
    refine ⟨t, ?_, .inr ⟨hbusy', fun b hb => hpolls b (hhost ▸ hmem b hb), ?_⟩⟩
    · rw [step_of_host s hmove, hostStep_cons s.useTurn a rest (by rw [State.useTurn_host, hhost]), ht]
    · rw [hturns', hturns, State.useTurn_turns, if_pos hbusy, hturns, List.tail_cons]

theorem run_succ_of_step {s t : State} (k : Nat) (h : step s = .next t) :
    Host.Core.run Sys2Proof.core (k + 1) s = Host.Core.run Sys2Proof.core k t := by
  have h' : Sys2Proof.core.step s = .next t := h
  simp only [Host.Core.run, h']

/-- While the host polls, BUSY falls after at most one step more than there are turns, since every step before the last uses
a turn (rule R479). -/
theorem run_of_polls (s : State) (hbusy : s.busy = true) (hpolls : ∀ a ∈ s.host, a.polls) :
    ∃ (k : Nat) (t : State), k ≤ s.turns.length + 1 ∧ Host.Core.run Sys2Proof.core k s = .next t ∧ t.busy = false := by
  obtain ⟨t, ht, hidle | ⟨hbusy', hpolls', hturns⟩⟩ := step_of_polls s hbusy hpolls
  · exact ⟨1, t, Nat.le_add_left 1 _, run_succ_of_step 0 ht, hidle⟩
  · obtain ⟨k, u, hk, hrun, hidle⟩ := run_of_polls t hbusy' hpolls'
    exact ⟨k + 1, u, by simpa [hturns] using hk, (run_succ_of_step k ht).trans hrun, hidle⟩
termination_by s.turns.length
decreasing_by rw [hturns]; exact Nat.lt_succ_self _

/-- Settles O14, by `run_of_polls`. -/
theorem pollingHostSeesTheCommandComplete : Obligations.PollingHostSeesTheCommandComplete := run_of_polls

/-! ### Reset -/

/-- Settles O12: the step is `takeReset`, and the slots and STATUS and RESULT read as after reset. -/
theorem resetSignalResetsFromEveryState : Obligations.ResetSignalResetsFromEveryState := by
  intro s rest hmove hhost
  have hstep : step s = .next (State.takeReset { s.useTurn with host := rest }) := by
    rw [step_of_host s hmove, hostStep_cons s.useTurn .reset rest (by rw [State.useTurn_host, hhost])]
    rfl
  refine ⟨_, hstep, rfl, BitVec.eq_of_toNat_eq (State.statusWord_toNat _), rfl,
    BitVec.eq_of_toNat_eq (State.resultWord_toNat _), rfl, ?_, fun h => State.slot_of_replicate _ _ h rfl, rfl,
    s.useTurn_memBytes, fun a => ?_, rfl⟩
  · simp [State.nslot]
  · simp [State.readByte, Memory.find]

end Sys2Proof.Machine
end
